-- ==== Sys2Proof/Word.lean ====
section
/-! DEFINITION. The widths the block's registers and cells have (10_state.md rule R26). -/

namespace Sys2Proof

/-- A value on the host's bus, and a register of the full bus width (R26). -/
abbrev Word := BitVec 32

/-- The 16-bit command word (30_encoding.md R82). -/
abbrev CommandWord := BitVec 16

/-- One byte of the key buffer KBUF (10_state.md R34). -/
abbrev Byte := BitVec 8

/-- One cell of the digit buffers DIG and SCR (10_state.md R33, R38). -/
abbrev Cell4 := BitVec 4

end Sys2Proof
end

