-- ==== Sys2Proof/Syntax.lean ====
section
/-! DEFINITION. The rows of spec/opcode_table.json: twelve command words and four reserved op codes
(format CMD, 30_encoding.md R82 to R84), the two bus transactions (format BUS, R85), the five
one-byte keys (format KEY1, R71) and the first bytes of longer keys (format KEYF, R72, R79). -/

namespace Sys2Proof

/-- One constructor per row of the opcode table. A field stands for the bits the row leaves free. -/
inductive Instr where
  -- format CMD: operations started by a write to CMD
  | encode
  | decode
  /-- `n` = CMD[7:4], `bits` = CMD[15:8]. -/
  | pack (n : BitVec 4) (bits : Byte)
  /-- `n` = CMD[7:4]. -/
  | unpack (n : BitVec 4)
  | expenc
  | expdec
  | sigenc
  | sigdec
  | classv
  | classk
  | spenc
  | spdec
  -- format CMD: reserved op codes; `rest` = CMD[15:4]
  | reservedOp0 (rest : BitVec 12)
  | reservedOpD (rest : BitVec 12)
  | reservedOpE (rest : BitVec 12)
  | reservedOpF (rest : BitVec 12)
  -- format BUS; `r` is a register number, to which the spec gives no width (30_encoding.md R85), so it is a
  -- plain number (DESIGN CHOICE, safe: notes/assumptions/12.md)
  | rd (r : Nat)
  | wr (r : Nat) (v : Word)
  -- format KEY1: the whole key is one byte
  | keyNegInf
  | keyNegZero
  | keyPosZero
  | keyPosInf
  | keyNan
  -- format KEYF: the first byte of a key of two or more bytes
  /-- `000Txxxx`. -/
  | keyNegFinite (t : BitVec 1) (x : BitVec 4)
  /-- `100Txxxx`. -/
  | keyPosFinite (t : BitVec 1) (x : BitVec 4)
  /-- `000100xx`. -/
  | keyInvalidNeg (x : BitVec 2)
  /-- `100011xx`. -/
  | keyInvalidPos (x : BitVec 2)
  /-- `01xxxxxx`. -/
  | keyInvalidSign01 (x : BitVec 6)
  /-- `11xxxxxx`. -/
  | keyInvalidSign11 (x : BitVec 6)
  /-- `001xxxxx`. -/
  | keyInvalidPadNeg (x : BitVec 5)
  /-- `101xxxxx`. -/
  | keyInvalidPadPos (x : BitVec 5)
deriving DecidableEq, Repr

end Sys2Proof
end

