-- ==== Sys2Proof/WellFormed.lean ====
section
/-! DEFINITION. Which terms of `Instr` an encoding of the spec stands for. A term that fails the
check has no encoding of its own: its word belongs to another row or to no row. -/

namespace Sys2Proof

/-- The number of the CMD register (10_state.md R26). -/
def cmdNumber : Nat := 0x00

/-- Well-formed terms. PACK and UNPACK name a width of 1 to 8 (30_encoding.md R84: any other width is
an illegal command word, which still decodes and faults). A finite key's first byte is none of
the invalid ones (the table's notes to KEY.NEGFINITE and KEY.POSFINITE). A WR to CMD is the command
it starts, not a WR (40_cursor.md R105). -/
def Instr.wf : Instr → Bool
  | .pack n _ => decide (1 ≤ n.toNat) && decide (n.toNat ≤ 8)
  | .unpack n => decide (1 ≤ n.toNat) && decide (n.toNat ≤ 8)
  | .wr r _ => decide (r ≠ cmdNumber)
  | .keyNegFinite t x => !(decide (t = 1#1) && decide (x.toNat / 4 = 0))
  | .keyPosFinite t x => !(decide (t = 0#1) && decide (x.toNat / 4 = 3))
  | .encode => true
  | .decode => true
  | .expenc => true
  | .expdec => true
  | .sigenc => true
  | .sigdec => true
  | .classv => true
  | .classk => true
  | .spenc => true
  | .spdec => true
  | .reservedOp0 _ => true
  | .reservedOpD _ => true
  | .reservedOpE _ => true
  | .reservedOpF _ => true
  | .rd _ => true
  | .keyNegInf => true
  | .keyNegZero => true
  | .keyPosZero => true
  | .keyPosInf => true
  | .keyNan => true
  | .keyInvalidNeg _ => true
  | .keyInvalidPos _ => true
  | .keyInvalidSign01 _ => true
  | .keyInvalidSign11 _ => true
  | .keyInvalidPadNeg _ => true
  | .keyInvalidPadPos _ => true

end Sys2Proof
end

