-- ==== Sys2Proof/Decode.lean ====
section
/-! DEFINITION. The decoder, total on what the block can be given (a bus transaction, or a key's
length and first byte), and after it the encoder, both from the tables of 30_encoding.md. -/

namespace Sys2Proof

/-- What the block is given to decode. A command word is the low half of a WR to CMD (R82, R105).
A key is told by its length and its first byte (R70, R79). -/
inductive Encoded where
  | rd (r : Nat)
  | wr (r : Nat) (v : Word)
  | key (len : Nat) (b0 : Byte)
deriving DecidableEq, Repr

/-- Why the decoder rejects an encoding. -/
inductive Reject where
  /-- UNPACK with a non-zero `bits` field and a width outside 1 to 8 (R84, R216). -/
  | badWidth
  /-- A command-word field the operation does not use is not 0 (R84). -/
  | reservedField
  /-- A key of no bytes (R80 (i)). -/
  | emptyKey
  /-- A one-byte key that is none of the five special bytes (R80 (a)). -/
  | unknownSpecial
deriving DecidableEq, Repr

/-- `op = CMD[3:0]` (R82). -/
def commandOp (w : CommandWord) : BitVec 4 := w.extractLsb' 0 4

/-- `n = CMD[7:4]` (R82). -/
def commandN (w : CommandWord) : BitVec 4 := w.extractLsb' 4 4

/-- `bits = CMD[15:8]` (R82). -/
def commandBits (w : CommandWord) : Byte := w.extractLsb' 8 8

/-- A field width outside 1 to 8 (R84). -/
def badFieldWidth (n : BitVec 4) : Bool := decide (n.toNat = 0) || decide (8 < n.toNat)

/-- A command word of an operation other than PACK and UNPACK: `n` and `bits` must be 0 (R82, R84). -/
def plainCommand (w : CommandWord) (i : Instr) : Except Reject Instr :=
  if commandN w = 0#4 ∧ commandBits w = 0#8 then .ok i else .error .reservedField

/-- The command word's decoder (R83, R84). PACK and UNPACK words of any width decode (the opcode table's
rows leave `n` free); the operation itself raises BadWidth. -/
def decodeCommand (w : CommandWord) : Except Reject Instr :=
  match (commandOp w).toNat with
  | 0x0 => .ok (.reservedOp0 (w.extractLsb' 4 12))
  | 0x1 => plainCommand w .encode
  | 0x2 => plainCommand w .decode
  | 0x3 => .ok (.pack (commandN w) (commandBits w))
  | 0x4 =>
    if commandBits w = 0#8 then .ok (.unpack (commandN w))
    else if badFieldWidth (commandN w) then .error .badWidth
    else .error .reservedField
  | 0x5 => plainCommand w .expenc
  | 0x6 => plainCommand w .expdec
  | 0x7 => plainCommand w .sigenc
  | 0x8 => plainCommand w .sigdec
  | 0x9 => plainCommand w .classv
  | 0xA => plainCommand w .classk
  | 0xB => plainCommand w .spenc
  | 0xC => plainCommand w .spdec
  | 0xD => .ok (.reservedOpD (w.extractLsb' 4 12))
  | 0xE => .ok (.reservedOpE (w.extractLsb' 4 12))
  | _ => .ok (.reservedOpF (w.extractLsb' 4 12))

/-- The row of a one-byte key (R71). -/
def decodeSpecialByte (b0 : Byte) : Except Reject Instr :=
  if b0 = 0x00#8 then .ok .keyNegInf
  else if b0 = 0x40#8 then .ok .keyNegZero
  else if b0 = 0x80#8 then .ok .keyPosZero
  else if b0 = 0xC0#8 then .ok .keyPosInf
  else if b0 = 0xE0#8 then .ok .keyNan
  else .error .unknownSpecial

/-- The row of the first byte of a key of two or more bytes: sign, then pad, then the degenerate
prefixes, then the two finite rows (R73, R74, R79; 43_special.md R167). -/
def decodeLeadByte (b0 : Byte) : Instr :=
  if b0.extractLsb' 6 2 = 0b01#2 then .keyInvalidSign01 (b0.extractLsb' 0 6)
  else if b0.extractLsb' 6 2 = 0b11#2 then .keyInvalidSign11 (b0.extractLsb' 0 6)
  else if b0.extractLsb' 5 3 = 0b001#3 then .keyInvalidPadNeg (b0.extractLsb' 0 5)
  else if b0.extractLsb' 5 3 = 0b101#3 then .keyInvalidPadPos (b0.extractLsb' 0 5)
  else if b0.extractLsb' 2 6 = 0b000100#6 then .keyInvalidNeg (b0.extractLsb' 0 2)
  else if b0.extractLsb' 2 6 = 0b100011#6 then .keyInvalidPos (b0.extractLsb' 0 2)
  else if b0.extractLsb' 6 2 = 0b00#2 then .keyNegFinite (b0.extractLsb' 4 1) (b0.extractLsb' 0 4)
  else .keyPosFinite (b0.extractLsb' 4 1) (b0.extractLsb' 0 4)

/-- The row of a key, from its length and first byte (R70). -/
def decodeKey (len : Nat) (b0 : Byte) : Except Reject Instr :=
  match len with
  | 0 => .error .emptyKey
  | 1 => decodeSpecialByte b0
  | _ + 2 => .ok (decodeLeadByte b0)

/-- The decoder. A WR to CMD is the command in `v[15:0]`; bits 31..16 are ignored (R82, R105). -/
def decode : Encoded → Except Reject Instr
  | .rd r => .ok (.rd r)
  | .wr r v => if r = cmdNumber then decodeCommand (v.setWidth 16) else .ok (.wr r v)
  | .key len b0 => decodeKey len b0

/-- `bits << 8 | n << 4 | op` (R83). -/
def commandWord (bits : Byte) (n op : BitVec 4) : CommandWord := bits ++ n ++ op

/-- A WR to CMD of a command word. -/
def encodeCommand (w : CommandWord) : Encoded := .wr cmdNumber (w.setWidth 32)

/-- The encoder, from R71, R72, R79, R83 and the opcode table's rows. A row of format KEYF stands for
the first byte of a key of two or more bytes: two stands for all of them. -/
def encode : Instr → Encoded
  | .encode => encodeCommand 0x0001#16
  | .decode => encodeCommand 0x0002#16
  | .pack n bits => encodeCommand (commandWord bits n 0x3#4)
  | .unpack n => encodeCommand (commandWord 0#8 n 0x4#4)
  | .expenc => encodeCommand 0x0005#16
  | .expdec => encodeCommand 0x0006#16
  | .sigenc => encodeCommand 0x0007#16
  | .sigdec => encodeCommand 0x0008#16
  | .classv => encodeCommand 0x0009#16
  | .classk => encodeCommand 0x000A#16
  | .spenc => encodeCommand 0x000B#16
  | .spdec => encodeCommand 0x000C#16
  | .reservedOp0 rest => encodeCommand (rest ++ 0x0#4)
  | .reservedOpD rest => encodeCommand (rest ++ 0xD#4)
  | .reservedOpE rest => encodeCommand (rest ++ 0xE#4)
  | .reservedOpF rest => encodeCommand (rest ++ 0xF#4)
  | .rd r => .rd r
  | .wr r v => .wr r v
  | .keyNegInf => .key 1 0x00#8
  | .keyNegZero => .key 1 0x40#8
  | .keyPosZero => .key 1 0x80#8
  | .keyPosInf => .key 1 0xC0#8
  | .keyNan => .key 1 0xE0#8
  | .keyNegFinite t x => .key 2 (0b000#3 ++ t ++ x)
  | .keyPosFinite t x => .key 2 (0b100#3 ++ t ++ x)
  | .keyInvalidNeg x => .key 2 (0b000100#6 ++ x)
  | .keyInvalidPos x => .key 2 (0b100011#6 ++ x)
  | .keyInvalidSign01 x => .key 2 (0b01#2 ++ x)
  | .keyInvalidSign11 x => .key 2 (0b11#2 ++ x)
  | .keyInvalidPadNeg x => .key 2 (0b001#3 ++ x)
  | .keyInvalidPadPos x => .key 2 (0b101#3 ++ x)

/-- Is the byte one of the five one-byte keys (R71)? -/
def isSpecialByte (b0 : Byte) : Bool :=
  match decodeSpecialByte b0 with
  | .ok _ => true
  | .error _ => false

/-- The instruction the decoder reads from an opcode-table word. Sixteen bits are a command word. Eight
bits are a key's first byte: one of the five special bytes is a whole key (its row fixes all eight
bits), any other byte begins a key of two or more bytes (notes/assumptions/6.md). RD and WR have no
bit pattern (R85): no bits stand for RD of register 0 (notes/assumptions/11.md). -/
def decodeTableWord (nbits w : Nat) : Option Instr :=
  if nbits = 16 then (decode (.wr cmdNumber (BitVec.ofNat 32 (w % 2 ^ 16)))).toOption
  else if nbits = 8 then
    let b0 := BitVec.ofNat 8 w
    (decode (.key (if isSpecialByte b0 then 1 else 2) b0)).toOption
  else if nbits = 0 then (decode (.rd 0)).toOption
  else none

end Sys2Proof
end

