-- ==== Sys2Proof/Config.lean ====
section
/-! DEFINITION. The build-time parameters (00_scope.md R8 to R11) and the free values of the cells
that a reset leaves unspecified (10_state.md R41, 93_implementation_defined.md U16). -/

namespace Sys2Proof

/-- The three build-time parameters "the external system must agree on" (R8). -/
structure Params where
  /-- `DMAX`, the largest digit count of a coefficient. -/
  dmax : Nat
  /-- `M` (`MaxExpBits`), the bound on the exponent decoder's unary run. -/
  m : Nat
  /-- `ELIM`, the largest accepted magnitude of an adjusted exponent. -/
  elim : Nat
deriving DecidableEq, Repr

/-- The constraints of rules R8 and R9, and `DMAX ≤ 4096`, which R26 and decision D3 add so that the
register map holds. The model refuses a parameter set outside them (U9, notes/assumptions/8.md). -/
def Params.valid (p : Params) : Bool :=
  decide (0 < p.dmax) && decide (p.dmax % 3 = 0) && decide (p.dmax ≤ 4096) &&
  decide (5 ≤ p.m) && decide (p.m ≤ 31) &&
  decide (p.elim ≤ 2 ^ p.m - 1) && decide (p.elim + p.dmax ≤ 2 ^ 31 - 1)

/-- `KMAX = ceil((2*M + 4 + 10*DMAX/3) / 8)`, the size of the key buffer in bytes (R10). -/
def Params.kmax (p : Params) : Nat := (2 * p.m + 4 + 10 * (p.dmax / 3) + 7) / 8

/-- The test configuration of rule R11. DESIGN CHOICE, unsafe: decision D24 leaves the three
parameters open, and this is the set `State.reset` is given (notes/assumptions/1.md). -/
def Config.testParams : Params := { dmax := 36, m := 30, elim := 999999999 }

/-- What DIG cell `i` holds after reset event number `n`: a free value (U16; notes/assumptions/3.md). -/
opaque Config.resetDigit : Nat → Nat → Cell4

/-- What KBUF byte `i` holds after reset event number `n`: a free value (U16; notes/assumptions/3.md). -/
opaque Config.resetByte : Nat → Nat → Byte

/-- What SCR cell `i` holds after reset event number `n`: a free value (U16; notes/assumptions/3.md). -/
opaque Config.resetScratch : Nat → Nat → Cell4

end Sys2Proof
end

