-- ==== Sys2Proof/Machine/State.lean ====
section
/-! DEFINITION. The state of one instance of the block (10_state.md), the codes its registers hold, what
the host can issue to it, the stops of the model, and the state after reset (10_state.md R41). -/

namespace Sys2Proof.Machine

/-- The status codes (60_exceptions.md R210). -/
inductive Status where
  | ok
  | invalidEncoding
  | unsupportedValue
  | bufferTooSmall
  | illegalCommand
deriving DecidableEq, Repr

/-- The detail codes of a fault (60_exceptions.md R211); detail 0, None, is no fault. -/
inductive Detail where
  | emptyKey
  | unknownSpecial
  | badSign
  | badPad
  | negZeroExponent
  | truncated
  | runTooLong
  | exponentTooLarge
  | tooManyDigits
  | badTail
  | badDeclet
  | zeroLastGroup
  | badLeadGroup
  | keyTooLong
  | badClass
  | badDigitCount
  | badDigit
  | leadingZero
  | exponentOutOfRange
  | trailingZeroGroup
  | notSpecial
  | zeroCoefficient
  | capacity
  | reservedOp
  | badWidth
  | reservedField
deriving DecidableEq, Repr

/-- The seven kinds, in key order (43_special.md R160). -/
inductive Kind where
  | negInf
  | negFinite
  | negZero
  | posZero
  | posFinite
  | posInf
  | nan
deriving DecidableEq, Repr

/-- What the host can issue: the two bus transactions (40_cursor.md R104, R105) and the external reset
(70_reset_and_hazards.md R240; notes/assumptions/14.md). -/
inductive HostEvent where
  | rd (r : Nat)
  | wr (r : Nat) (v : Word)
  | reset
deriving DecidableEq, Repr

/-- What a transaction gives the host on the bus. The model's own (notes/assumptions/5.md). -/
inductive BusResponse where
  /-- No transaction since reset. -/
  | idle
  /-- A WR has completed. -/
  | done
  /-- The value an RD returned (R104). -/
  | value (v : Word)
  /-- A bus error (60_exceptions.md R221; notes/assumptions/7.md). -/
  | busError
deriving DecidableEq, Repr

/-- The state of one instance. The buffers are lists of exactly the cells the parameters give them
(notes/assumptions/9.md); the registers are bit vectors of their stored widths (notes/assumptions/13.md). -/
structure State where
  /-- The build-time parameters; no step changes them (00_scope.md R8; notes/assumptions/1.md). -/
  params : Params
  /-- STATUS (R28). -/
  status : BitVec 3
  /-- DETAIL (R29). -/
  detail : BitVec 5
  /-- SIGN: 0 Positive, 1 Negative (R30). -/
  sign : BitVec 1
  /-- CLASS: 0 Finite, 1 Infinite, 2 NaN, 3 reserved (R30). -/
  cls : BitVec 2
  /-- EXP, two's complement (R32). -/
  exp : Word
  /-- DCNT (R33). -/
  dcnt : Word
  /-- KLEN (R34). -/
  klen : Word
  /-- CUR, the cursor as a stream-bit offset (R25, R35). -/
  cur : Word
  /-- EMAG (R36). -/
  emag : Word
  /-- TBIT (R36). -/
  tbit : BitVec 1
  /-- NBITS (R36). -/
  nbits : BitVec 6
  /-- VAL (R37). -/
  val : Byte
  /-- KIND (R37). -/
  kind : BitVec 3
  /-- DIG, `DMAX` cells (R33). -/
  dig : List Cell4
  /-- KBUF, `KMAX` bytes (R34). -/
  kbuf : List Byte
  /-- SCR, the hidden scratch copy, `DMAX` cells (R38). -/
  scr : List Cell4
  /-- The model's own: what the last transaction gave the host. -/
  resp : BusResponse
  /-- The model's own: what the host has issued and the block has not yet performed, oldest first. -/
  pending : List HostEvent
  /-- The model's own: how many reset events there have been, the index of the free values. -/
  resets : Nat
deriving DecidableEq, Repr

/-- The faults that stop the machine: none. Every fault of the spec ends in a next state with STATUS
and DETAIL written (60_exceptions.md R218), and a bus error in a next state with that response (R221). -/
inductive Fault where
deriving DecidableEq, Repr

/-- The refusals. -/
inductive Refusal where
  /-- Raised by an arm of `exec` whose instruction has no meaning yet; there is none. Safe. -/
  | notModelled (mnemonic : String)
  /-- Raised by `step` for parameters outside the constraints of 00_scope.md R9, which
  93_implementation_defined.md U9 has the model refuse. Safe: no claim is made about such an instance. -/
  | unsupportedParams
deriving DecidableEq, Repr

/-- The state after reset with parameters `p`, for any contents of the three buffers (R41): every scalar
register 0. `pending` is the host's, not the block's. -/
def State.afterReset (p : Params) (dig : List Cell4) (kbuf : List Byte) (scr : List Cell4)
    (pending : List HostEvent) (resets : Nat) : State where
  params := p
  status := 0#3
  detail := 0#5
  sign := 0#1
  cls := 0#2
  exp := 0#32
  dcnt := 0#32
  klen := 0#32
  cur := 0#32
  emag := 0#32
  tbit := 0#1
  nbits := 0#6
  val := 0#8
  kind := 0#3
  dig := dig
  kbuf := kbuf
  scr := scr
  resp := .idle
  pending := pending
  resets := resets

/-- The machine right after reset, in the test configuration (R11, R41). The cells of DIG, KBUF and SCR,
which R41 leaves unspecified, hold 0: DESIGN CHOICE, unsafe (notes/assumptions/2.md). -/
def State.reset : State :=
  .afterReset Config.testParams (List.replicate Config.testParams.dmax 0#4)
    (List.replicate Config.testParams.kmax 0#8) (List.replicate Config.testParams.dmax 0#4) [] 0

end Sys2Proof.Machine
end

