-- ==== Sys2Proof/Machine/Flags.lean ====
section
/-! DEFINITION. The codes the result registers hold. The block has no condition codes (10_state.md R39):
STATUS, DETAIL and KIND are all that an operation reports. -/

namespace Sys2Proof.Machine

/-- The number of a status (60_exceptions.md R210). -/
def Status.code : Status → BitVec 3
  | .ok => 0#3
  | .invalidEncoding => 1#3
  | .unsupportedValue => 2#3
  | .bufferTooSmall => 3#3
  | .illegalCommand => 4#3

/-- The number of a detail code (60_exceptions.md R211). -/
def Detail.code : Detail → BitVec 5
  | .emptyKey => 1#5
  | .unknownSpecial => 2#5
  | .badSign => 3#5
  | .badPad => 4#5
  | .negZeroExponent => 5#5
  | .truncated => 6#5
  | .runTooLong => 7#5
  | .exponentTooLarge => 8#5
  | .tooManyDigits => 9#5
  | .badTail => 10#5
  | .badDeclet => 11#5
  | .zeroLastGroup => 12#5
  | .badLeadGroup => 13#5
  | .keyTooLong => 14#5
  | .badClass => 16#5
  | .badDigitCount => 17#5
  | .badDigit => 18#5
  | .leadingZero => 19#5
  | .exponentOutOfRange => 20#5
  | .trailingZeroGroup => 21#5
  | .notSpecial => 22#5
  | .zeroCoefficient => 23#5
  | .capacity => 24#5
  | .reservedOp => 28#5
  | .badWidth => 29#5
  | .reservedField => 30#5

/-- The status a detail code belongs to (60_exceptions.md R211). -/
def Detail.status : Detail → Status
  | .emptyKey => .invalidEncoding
  | .unknownSpecial => .invalidEncoding
  | .badSign => .invalidEncoding
  | .badPad => .invalidEncoding
  | .negZeroExponent => .invalidEncoding
  | .truncated => .invalidEncoding
  | .runTooLong => .invalidEncoding
  | .exponentTooLarge => .invalidEncoding
  | .tooManyDigits => .invalidEncoding
  | .badTail => .invalidEncoding
  | .badDeclet => .invalidEncoding
  | .zeroLastGroup => .invalidEncoding
  | .badLeadGroup => .invalidEncoding
  | .keyTooLong => .invalidEncoding
  | .badClass => .unsupportedValue
  | .badDigitCount => .unsupportedValue
  | .badDigit => .unsupportedValue
  | .leadingZero => .unsupportedValue
  | .exponentOutOfRange => .unsupportedValue
  | .trailingZeroGroup => .unsupportedValue
  | .notSpecial => .unsupportedValue
  | .zeroCoefficient => .unsupportedValue
  | .capacity => .bufferTooSmall
  | .reservedOp => .illegalCommand
  | .badWidth => .illegalCommand
  | .reservedField => .illegalCommand

/-- The number of a kind (43_special.md R160). -/
def Kind.code : Kind → BitVec 3
  | .negInf => 0#3
  | .negFinite => 1#3
  | .negZero => 2#3
  | .posZero => 3#3
  | .posFinite => 4#3
  | .posInf => 5#3
  | .nan => 6#3

end Sys2Proof.Machine
end

