-- ==== Sys2Proof/Machine/Ops.lean ====
section
/-! DEFINITION. The shared operations: bit strings (00_scope.md R13), the bit-stream cursor's pack and
unpack (40_cursor.md R100, R101, R106), the buffers, the register map (10_state.md R26), how an
operation ends (60_exceptions.md R218, R219), and the reset event (70_reset_and_hazards.md R240). -/

namespace Sys2Proof.Machine

/-! ## Bit strings (00_scope.md R13) -/

/-- `bitlen(x)` for `x >= 1`. -/
def bitlen (x : Nat) : Nat := x.log2 + 1

/-- `bits_n(v)`: the `n` low bits of `v`, most significant first. -/
def bitsOf : Nat → Nat → List Bool
  | 0, _ => []
  | n + 1, v => v.testBit n :: bitsOf n v

/-- `val(b)`: the number a bit string spells, first bit most significant. -/
def bitsVal (b : List Bool) : Nat := b.foldl (fun v x => 2 * v + x.toNat) 0

/-! ## The key space (20_memory.md R50, R52, R57) -/

/-- `getbit(K, s)`: stream bit `s` is register bit `7 - (s mod 8)` of byte `s div 8` (R52). -/
def getbit (k : List Byte) (s : Nat) : Bool := (k.getD (s / 8) 0#8).getLsbD (7 - s % 8)

/-- The byte with register bit `q` set to `b` and the other seven left. -/
def setBitIn (x : Byte) (q : Nat) (b : Bool) : Byte :=
  (x &&& ~~~(1#8 <<< q)) ||| ((BitVec.ofBool b).setWidth 8 <<< q)

/-- `setbit(s, b)`: that one bit set to `b` (not ORed, 93_implementation_defined.md U3). -/
def setbit (k : List Byte) (s : Nat) (b : Bool) : List Byte :=
  k.set (s / 8) (setBitIn (k.getD (s / 8) 0#8) (7 - s % 8) b)

/-- `K[j] <- 0` for `lo <= j <= hi` (R57). -/
def zeroBytes (k : List Byte) (lo hi : Nat) : List Byte :=
  (List.range' lo (hi + 1 - lo)).foldl (fun k j => k.set j 0#8) k

/-- A key buffer, the length of the key in it, and a cursor: what pack takes and gives (R100). -/
structure KeyStream where
  k : List Byte
  len : Nat
  off : Nat
deriving DecidableEq, Repr

/-- Allocation (R57): byte `p` and every byte from the length up to it become 0 when the first bit is
about to be written into byte `p`. -/
def KeyStream.allocate (st : KeyStream) (p : Nat) : KeyStream :=
  if st.len ≤ p then { st with k := zeroBytes st.k st.len p, len := p + 1 } else st

/-- One turn of pack's loop (R100). -/
def KeyStream.packBit (st : KeyStream) (b : Bool) : KeyStream :=
  let st' := st.allocate (st.off / 8)
  { st' with k := setbit st'.k st'.off b, off := st'.off + 1 }

/-- `packw` (R106) of a bit string: pack, bit by bit, in order. -/
def KeyStream.packBits (st : KeyStream) (bs : List Bool) : KeyStream :=
  bs.foldl KeyStream.packBit st

/-- `pack(K, L, off, v, n)` (R100). -/
def KeyStream.pack (st : KeyStream) (v n : Nat) : KeyStream := st.packBits (bitsOf n v)

/-- The bits at stream offsets `off .. off + n - 1`. -/
def readBits (k : List Byte) (off n : Nat) : List Bool :=
  (List.range n).map fun i => getbit k (off + i)

/-- `unpackw(K, L, off, n)` (R101, R106): the value read; the cursor moves on by `n`. -/
def unpack (k : List Byte) (off n : Nat) : Nat := bitsVal (readBits k off n)

/-! ## The buffers -/

/-- `new` written over the first cells of `old`; the cells after it are left. -/
def overlay {α : Type} (new old : List α) : List α := new ++ old.drop new.length

/-- The stream a component operation works on: KBUF, KLEN, CUR. -/
def State.stream (s : State) : KeyStream := { k := s.kbuf, len := s.klen.toNat, off := s.cur.toNat }

/-- KBUF, KLEN and CUR from a stream. -/
def State.setStream (s : State) (st : KeyStream) : State :=
  { s with kbuf := st.k, klen := BitVec.ofNat 32 st.len, cur := BitVec.ofNat 32 st.off }

/-- Decimal digits as 4-bit cells. -/
def toCells (d : List Nat) : List Cell4 := d.map (BitVec.ofNat 4)

/-! ## The register map (10_state.md R26) -/

/-- The number of DIG[0]. -/
def digBase : Nat := 0x1000

/-- The number of KBUF[0]. -/
def kbufBase : Nat := 0x2000

/-- RD's value (40_cursor.md R104): the stored bits zero-extended to 32; CMD reads 0; none for an
unassigned number. -/
def readRegister (s : State) (r : Nat) : Option Word :=
  match r with
  | 0x00 => some 0#32
  | 0x01 => some (s.status.setWidth 32)
  | 0x02 => some (s.detail.setWidth 32)
  | 0x03 => some (s.sign.setWidth 32)
  | 0x04 => some (s.cls.setWidth 32)
  | 0x05 => some s.exp
  | 0x06 => some s.dcnt
  | 0x07 => some s.klen
  | 0x08 => some s.cur
  | 0x09 => some s.emag
  | 0x0A => some (s.tbit.setWidth 32)
  | 0x0B => some (s.nbits.setWidth 32)
  | 0x0C => some (s.val.setWidth 32)
  | 0x0D => some (s.kind.setWidth 32)
  | _ =>
    if digBase ≤ r ∧ r < digBase + s.params.dmax then
      some ((s.dig.getD (r - digBase) 0#4).setWidth 32)
    else if kbufBase ≤ r ∧ r < kbufBase + s.params.kmax then
      some ((s.kbuf.getD (r - kbufBase) 0#8).setWidth 32)
    else none

/-- WR's store (40_cursor.md R105) to a register other than CMD: the low bits of `v`; none for a
read-only register (STATUS, DETAIL, NBITS, VAL, KIND) or an unassigned number. -/
def writeRegister (s : State) (r : Nat) (v : Word) : Option State :=
  match r with
  | 0x00 => none
  | 0x01 => none
  | 0x02 => none
  | 0x03 => some { s with sign := v.setWidth 1 }
  | 0x04 => some { s with cls := v.setWidth 2 }
  | 0x05 => some { s with exp := v }
  | 0x06 => some { s with dcnt := v }
  | 0x07 => some { s with klen := v }
  | 0x08 => some { s with cur := v }
  | 0x09 => some { s with emag := v }
  | 0x0A => some { s with tbit := v.setWidth 1 }
  | 0x0B => none
  | 0x0C => none
  | 0x0D => none
  | _ =>
    if digBase ≤ r ∧ r < digBase + s.params.dmax then
      some { s with dig := s.dig.set (r - digBase) (v.setWidth 4) }
    else if kbufBase ≤ r ∧ r < kbufBase + s.params.kmax then
      some { s with kbuf := s.kbuf.set (r - kbufBase) (v.setWidth 8) }
    else none

/-! ## How an operation ends -/

/-- FAULT ENTRY (60_exceptions.md R218): STATUS and DETAIL are written and nothing else of the block
changes. No register saves anything, no vector is fetched: the CMD write completes. -/
def enterFault (d : Detail) (s : State) : State :=
  { s with status := d.status.code, detail := d.code, resp := .done }

/-- The end of an operation that did its work: `STATUS <- OK ; DETAIL <- 0`. There is no return from a
fault (60_exceptions.md R219): the next operation writes STATUS and DETAIL with its own outcome. -/
def succeed (s : State) : State :=
  { s with status := Status.ok.code, detail := 0#5, resp := .done }

/-- An operation's end: its result on `s`, or the fault it raised with `s` as it was (R218). -/
def finish (s : State) (r : Except Detail State) : State :=
  match r with
  | .ok s' => succeed s'
  | .error d => enterFault d s

/-- The detail code of a command word the decoder rejects (30_encoding.md R84), and of a key it rejects
(43_special.md R167). -/
def rejectDetail : Reject → Detail
  | .badWidth => .badWidth
  | .reservedField => .reservedField
  | .emptyKey => .emptyKey
  | .unknownSpecial => .unknownSpecial

/-! ## Reset -/

/-- The external reset (70_reset_and_hazards.md R240): the state of R41, with free values in the cells it
leaves unspecified (93_implementation_defined.md U16; notes/assumptions/3.md, 14.md). What the host has yet to
issue stays the host's. -/
def resetBlock (s : State) : State :=
  .afterReset s.params
    ((List.range s.params.dmax).map (Config.resetDigit s.resets))
    ((List.range s.params.kmax).map (Config.resetByte s.resets))
    ((List.range s.params.dmax).map (Config.resetScratch s.resets))
    s.pending (s.resets + 1)

end Sys2Proof.Machine
end

