-- ==== Sys2Proof/Machine/Operands.lean ====
section
/-! DEFINITION. The operands every operation takes from registers (30_encoding.md R86): the Decimal Value
(10_state.md R40) and its classification, the key's classification, the adjusted exponent and the
sign indicator, digit padding. -/

namespace Sys2Proof.Machine

/-- Is the sign Negative (R30)? -/
def State.negative (s : State) : Bool := decide (s.sign = 1#1)

/-- T as a bit of a stream. -/
def State.tIndicator (s : State) : Bool := decide (s.tbit = 1#1)

/-- `DIG[0..n-1]` as numbers. -/
def State.digits (s : State) (n : Nat) : List Nat := (s.dig.take n).map (·.toNat)

/-- The coefficient `DIG[0..DCNT-1]` (R40). -/
def State.coefficient (s : State) : List Nat := s.digits s.dcnt.toNat

/-- Does a cell hold no decimal digit? -/
def badDigits (d : List Nat) : Bool := d.any fun x => decide (9 < x)

/-- Are all digits 0? -/
def allZero (d : List Nat) : Bool := d.all fun x => decide (x = 0)

/-- `kindv(x)` (43_special.md R165). -/
def kindv (s : State) : Except Detail Kind :=
  if s.cls = 3#2 then .error .badClass
  else if s.cls = 2#2 then .ok .nan
  else if s.cls = 1#2 then .ok (if s.negative then .negInf else .posInf)
  else if s.dcnt.toNat = 0 ∨ s.params.dmax < s.dcnt.toNat then .error .badDigitCount
  else if badDigits s.coefficient then .error .badDigit
  else if allZero s.coefficient then .ok (if s.negative then .negZero else .posZero)
  else .ok (if s.negative then .negFinite else .posFinite)

/-- The one-byte lookup of `kindk(x)` (43_special.md R167, 30_encoding.md R71). -/
def kindOfByte (b0 : Byte) : Except Detail Kind :=
  if b0 = 0x00#8 then .ok .negInf
  else if b0 = 0x40#8 then .ok .negZero
  else if b0 = 0x80#8 then .ok .posZero
  else if b0 = 0xC0#8 then .ok .posInf
  else if b0 = 0xE0#8 then .ok .nan
  else .error .unknownSpecial

/-- The header tests of `kindk(x)` for a key of two or more bytes (43_special.md R167,
44_orchestrator.md R187, R188). -/
def kindOfLead (b0 : Byte) : Except Detail Kind :=
  if b0.extractLsb' 6 2 = 0b01#2 ∨ b0.extractLsb' 6 2 = 0b11#2 then .error .badSign
  else if b0.getLsbD 5 then .error .badPad
  else if b0.extractLsb' 2 6 = 0b100011#6 ∨ b0.extractLsb' 2 6 = 0b000100#6 then
    .error .negZeroExponent
  else .ok (if b0.extractLsb' 6 2 = 0b00#2 then .negFinite else .posFinite)

/-- KBUF[0]. -/
def State.lead (s : State) : Byte := s.kbuf.getD 0 0#8

/-- `kindk(x)` (43_special.md R167). -/
def kindk (s : State) : Except Detail Kind :=
  if s.klen.toNat = 0 then .error .emptyKey
  else if s.params.kmax < s.klen.toNat then .error .keyTooLong
  else if s.klen.toNat = 1 then kindOfByte s.lead
  else kindOfLead s.lead

/-- The byte of a kind that has a one-byte key (30_encoding.md R71), none for a finite nonzero kind. -/
def Kind.keyByte : Kind → Option Byte
  | .negInf => some 0x00#8
  | .negFinite => none
  | .negZero => some 0x40#8
  | .posZero => some 0x80#8
  | .posFinite => none
  | .posInf => some 0xC0#8
  | .nan => some 0xE0#8

/-- `padlen(n)` (42_significand.md R140). -/
def padlen (n : Nat) : Nat := 3 * ((n + 2) / 3)

/-- `pad(d)` (42_significand.md R140). -/
def pad (d : List Nat) : List Nat := d ++ List.replicate (padlen d.length - d.length) 0

/-- `adjExp` (44_orchestrator.md R181), a mathematical integer. -/
def State.adjExp (s : State) : Int := s.exp.toInt + s.dcnt.toNat - 1

/-- The sign indicator T (44_orchestrator.md R182, 30_encoding.md R75). -/
def signIndicator (neg : Bool) (adjExp : Int) : Bool :=
  if neg then decide (adjExp < 0) else decide (0 ≤ adjExp)

/-- The adjusted exponent from the sign, T and E (44_orchestrator.md R189). -/
def adjExpOf (neg t : Bool) (e : Nat) : Int :=
  if neg then (if t then -(e : Int) else e) else (if t then (e : Int) else -e)

end Sys2Proof.Machine
end

