-- ==== Sys2Proof/Machine/Cursor.lean ====
section
/-! DEFINITION. The Bit-Stream Cursor's operations PACK and UNPACK (40_cursor.md R102, R103). -/

namespace Sys2Proof.Machine

/-- PACK's work (R102): the checks in their order, then pack at CUR. -/
def packOp (n : BitVec 4) (bits : Byte) (s : State) : Except Detail State :=
  if badFieldWidth n then .error .badWidth
  else if s.params.kmax < s.klen.toNat then .error .capacity
  else if 8 * s.params.kmax < s.cur.toNat + n.toNat then .error .capacity
  else .ok (s.setStream (s.stream.pack bits.toNat n.toNat))

/-- UNPACK's work (R103). The decoder has checked that `bits` is 0 (30_encoding.md R84). -/
def unpackOp (n : BitVec 4) (s : State) : Except Detail State :=
  if badFieldWidth n then .error .badWidth
  else if s.params.kmax < s.klen.toNat then .error .keyTooLong
  else if 8 * s.klen.toNat < s.cur.toNat + n.toNat then .error .truncated
  else .ok { s with
    val := BitVec.ofNat 8 (unpack s.kbuf s.cur.toNat n.toNat)
    cur := BitVec.ofNat 32 (s.cur.toNat + n.toNat) }

/-- PACK n, bits (R102). -/
def execPack (n : BitVec 4) (bits : Byte) (s : State) : Host.Outcome State Fault Refusal :=
  .next (finish s (packOp n bits s))

/-- UNPACK n (R103). -/
def execUnpack (n : BitVec 4) (s : State) : Host.Outcome State Fault Refusal :=
  .next (finish s (unpackOp n s))

end Sys2Proof.Machine
end

