-- ==== Sys2Proof/Machine/Exponent.lean ====
section
/-! DEFINITION. The Exponent Codec (41_exponent.md). -/

namespace Sys2Proof.Machine

/-- `N = bitlen(E + 2)` (R120). -/
def expN (e : Nat) : Nat := bitlen (e + 2)

/-- `expfield(E, T)` (R120). -/
def expfield (e : Nat) (t : Bool) : List Bool :=
  let n := expN e
  let f := List.replicate (n - 1) true ++ false :: bitsOf (n - 1) (e + 2)
  if t then f else f.map (!·)

/-- What the exponent decoder returns (R123). -/
structure ExpResult where
  e : Nat
  n : Nat
  off : Nat
deriving DecidableEq, Repr

/-- The loop of `expdec` (R123): `room` is how many more bits the run may grow by before it passes `M`.
It answers the run's length, T included, and the offset after the terminator. -/
def scanRun (k : List Byte) (len : Nat) (t : Bool) : Nat → Nat → Nat → Except Detail (Nat × Nat)
  | 0, off, run =>
    if 8 * len ≤ off then .error .truncated
    else if getbit k off = t then .error .runTooLong
    else .ok (run, off + 1)
  | room + 1, off, run =>
    if 8 * len ≤ off then .error .truncated
    else if getbit k off = t then scanRun k len t room (off + 1) (run + 1)
    else .ok (run, off + 1)

/-- `expdec(K, L, off, T)` (R123). -/
def expdec (p : Params) (k : List Byte) (len off : Nat) (t : Bool) : Except Detail ExpResult :=
  match scanRun k len t (p.m - 1) off 1 with
  | .error d => .error d
  | .ok (run, off) =>
    let n := run + 1
    if 8 * len < off + (n - 1) then .error .truncated
    else
      let pay := unpack k off (n - 1)
      let pay := if t then pay else (2 ^ (n - 1) - 1) - pay
      let e := 2 ^ (n - 1) + pay - 2
      if p.elim < e then .error .exponentTooLarge
      else .ok { e := e, n := n, off := off + (n - 1) }

/-- EXPENC's work (R122). The field's first bit is not written: the caller has placed it. -/
def expencOp (s : State) : Except Detail State :=
  let e := s.emag.toNat
  if s.params.elim < e then .error .exponentOutOfRange
  else if s.params.kmax < s.klen.toNat then .error .capacity
  else if 8 * s.params.kmax < s.cur.toNat + (2 * expN e - 2) then .error .capacity
  else .ok { s.setStream (s.stream.packBits (expfield e s.tIndicator).tail) with
    nbits := BitVec.ofNat 6 (expN e) }

/-- EXPDEC's work (R124). -/
def expdecOp (s : State) : Except Detail State :=
  if s.params.kmax < s.klen.toNat then .error .keyTooLong
  else
    match expdec s.params s.kbuf s.klen.toNat s.cur.toNat s.tIndicator with
    | .error d => .error d
    | .ok f => .ok { s with
        emag := BitVec.ofNat 32 f.e
        nbits := BitVec.ofNat 6 f.n
        cur := BitVec.ofNat 32 f.off }

/-- EXPENC (R122). -/
def execExpenc (s : State) : Host.Outcome State Fault Refusal := .next (finish s (expencOp s))

/-- EXPDEC (R124). -/
def execExpdec (s : State) : Host.Outcome State Fault Refusal := .next (finish s (expdecOp s))

end Sys2Proof.Machine
end

