-- ==== Sys2Proof/Machine/Significand.lean ====
section
/-! DEFINITION. The Significand Codec (42_significand.md). -/

namespace Sys2Proof.Machine

/-- `tens(d)` digit by digit (R141): `9 - d[i]` before the last non-zero digit, `10 - d[j]` at it, 0
after it. It is not defined for a sequence of zeros; no operation calls it on one. -/
def tens : List Nat → List Nat
  | [] => []
  | x :: d => if allZero d then (10 - x) :: d else (9 - x) :: tens d

/-- `declet(d0, d1, d2)` (R142). -/
def declet (d0 d1 d2 : Nat) : Nat := 100 * d0 + 10 * d1 + d2

/-- The declets of a sequence of `3*g` digits, most significant group first (R143, 20_memory.md R53). -/
def declets : List Nat → List Nat
  | d0 :: d1 :: d2 :: d => declet d0 d1 d2 :: declets d
  | _ => []

/-- The digits of a declet (R142). -/
def decletDigits (v : Nat) : List Nat := [v / 100, v / 10 % 10, v % 10]

/-- The digits `sigbits` groups: complemented exactly once if negative (R143). -/
def storedDigits (d : List Nat) (neg : Bool) : List Nat := if neg then tens d else d

/-- `sigbits(d, neg)` (R143). -/
def sigbits (d : List Nat) (neg : Bool) : List Bool :=
  (declets (storedDigits d neg)).flatMap (bitsOf 10)

/-- What the significand decoder returns (R145). -/
structure SigResult where
  digits : List Nat
  off : Nat
deriving DecidableEq, Repr

/-- The `g` stored groups at `off` (R145). -/
def readDeclets (k : List Byte) (off g : Nat) : List Nat :=
  (List.range g).map fun i => unpack k (off + 10 * i) 10

/-- `sigdec(K, L, off, neg)` (R145). -/
def sigdec (p : Params) (k : List Byte) (len off : Nat) (neg : Bool) : Except Detail SigResult :=
  if 8 * len < off then .error .truncated
  else
    let r := 8 * len - off
    let g := r / 10
    let spare := r % 10
    if g = 0 then .error .truncated
    else if p.dmax < 3 * g then .error .tooManyDigits
    else if 8 ≤ spare then .error .badTail
    else
      let v := readDeclets k off g
      if v.any (fun x => decide (999 < x)) then .error .badDeclet
      else if unpack k (off + 10 * g) spare ≠ 0 then .error .badTail
      else if v.getLastD 0 = 0 then .error .zeroLastGroup
      else
        let d := storedDigits (v.flatMap decletDigits) neg
        if d.headD 0 = 0 then .error .badLeadGroup
        else .ok { digits := d, off := 8 * len }

/-- SIGENC's work (R144). The scratch copy ends up holding the digits that were packed
(10_state.md R38; DEDUCED, notes/assumptions/10.md). -/
def sigencOp (s : State) : Except Detail State :=
  let n := s.dcnt.toNat
  if n = 0 ∨ s.params.dmax < n ∨ n % 3 ≠ 0 then .error .badDigitCount
  else if badDigits s.coefficient then .error .badDigit
  else if s.negative ∧ allZero s.coefficient then .error .zeroCoefficient
  else if s.params.kmax < s.klen.toNat then .error .capacity
  else if 8 * s.params.kmax < s.cur.toNat + 10 * (n / 3) then .error .capacity
  else .ok { s.setStream (s.stream.packBits (sigbits s.coefficient s.negative)) with
    scr := overlay (toCells (storedDigits s.coefficient s.negative)) s.scr }

/-- DIG, DCNT and SCR from a decoded coefficient (R146, 44_orchestrator.md R186). -/
def State.setCoefficient (s : State) (d : List Nat) : State :=
  { s with
    dig := overlay (toCells d) s.dig
    dcnt := BitVec.ofNat 32 d.length
    scr := overlay (toCells d) s.scr }

/-- SIGDEC's work (R146). -/
def sigdecOp (s : State) : Except Detail State :=
  if s.params.kmax < s.klen.toNat then .error .keyTooLong
  else
    match sigdec s.params s.kbuf s.klen.toNat s.cur.toNat s.negative with
    | .error d => .error d
    | .ok c => .ok { s.setCoefficient c.digits with cur := BitVec.ofNat 32 c.off }

/-- SIGENC (R144). -/
def execSigenc (s : State) : Host.Outcome State Fault Refusal := .next (finish s (sigencOp s))

/-- SIGDEC (R146). -/
def execSigdec (s : State) : Host.Outcome State Fault Refusal := .next (finish s (sigdecOp s))

end Sys2Proof.Machine
end

