-- ==== Sys2Proof/Machine/Special.lean ====
section
/-! DEFINITION. The Special-Value Codec and the classifier (43_special.md). -/

namespace Sys2Proof.Machine

/-- `writespecial(k)` (R168): the Decimal Value a one-byte key decodes to. The rows of the two finite
nonzero kinds do not exist: no operation calls it with them. -/
def writeSpecial (k : Kind) (s : State) : State :=
  match k with
  | .negInf => { s with sign := 1#1, cls := 1#2, exp := 0#32, dcnt := 0#32 }
  | .negZero => { s with sign := 1#1, cls := 0#2, exp := 0#32, dcnt := 1#32, dig := s.dig.set 0 0#4 }
  | .posZero => { s with sign := 0#1, cls := 0#2, exp := 0#32, dcnt := 1#32, dig := s.dig.set 0 0#4 }
  | .posInf => { s with sign := 0#1, cls := 1#2, exp := 0#32, dcnt := 0#32 }
  | .nan => { s with sign := 0#1, cls := 2#2, exp := 0#32, dcnt := 0#32 }
  | .negFinite => s
  | .posFinite => s

/-- The decoded special value and the cursor after its one byte (R164, 44_orchestrator.md R186). -/
def decodeSpecial (k : Kind) (s : State) : State := { writeSpecial k s with cur := 8#32 }

/-- The one-byte key of a special value, its length and the cursor (R163, 44_orchestrator.md R180). -/
def encodeSpecial (b : Byte) (s : State) : State :=
  { s with kbuf := s.kbuf.set 0 b, klen := 1#32, cur := 8#32 }

/-- CLASSV's work (R161). -/
def classvOp (s : State) : Except Detail State :=
  match kindv s with
  | .error d => .error d
  | .ok k => .ok { s with kind := k.code }

/-- CLASSK's work (R162). -/
def classkOp (s : State) : Except Detail State :=
  match kindk s with
  | .error d => .error d
  | .ok k => .ok { s with kind := k.code }

/-- SPENC's work (R163). -/
def spencOp (s : State) : Except Detail State :=
  match kindv s with
  | .error d => .error d
  | .ok k =>
    match k.keyByte with
    | none => .error .notSpecial
    | some b => .ok (encodeSpecial b s)

/-- SPDEC's work (R164). -/
def spdecOp (s : State) : Except Detail State :=
  if s.klen.toNat = 0 then .error .emptyKey
  else if s.params.kmax < s.klen.toNat then .error .keyTooLong
  else if s.klen.toNat ≠ 1 then .error .unknownSpecial
  else
    match kindk s with
    | .error d => .error d
    | .ok k => .ok (decodeSpecial k s)

/-- CLASSV (R161). -/
def execClassv (s : State) : Host.Outcome State Fault Refusal := .next (finish s (classvOp s))

/-- CLASSK (R162). -/
def execClassk (s : State) : Host.Outcome State Fault Refusal := .next (finish s (classkOp s))

/-- SPENC (R163). -/
def execSpenc (s : State) : Host.Outcome State Fault Refusal := .next (finish s (spencOp s))

/-- SPDEC (R164). -/
def execSpdec (s : State) : Host.Outcome State Fault Refusal := .next (finish s (spdecOp s))

end Sys2Proof.Machine
end

