-- ==== Sys2Proof/Machine/Orchestrator.lean ====
section
/-! DEFINITION. The Encoder/Decoder Orchestrator (44_orchestrator.md). -/

namespace Sys2Proof.Machine

/-- The stream of a finite nonzero value (R183, 30_encoding.md R72): sign, pad, T, the rest of the
exponent field, the declets. -/
def keyBits (neg : Bool) (d : List Nat) (adjExp : Int) : List Bool :=
  let t := signIndicator neg adjExp
  (if neg then [false, false] else [true, false]) ++ [false] ++ [t] ++
    (expfield adjExp.natAbs t).tail ++ sigbits d neg

/-- `keyfinite(neg, d, adjExp)` (R183), in a fresh buffer with a fresh cursor. -/
def keyfinite (p : Params) (neg : Bool) (d : List Nat) (adjExp : Int) : KeyStream :=
  KeyStream.packBits { k := List.replicate p.kmax 0#8, len := 0, off := 0 } (keyBits neg d adjExp)

/-- Is the last three-digit group of a padded coefficient 000 (R180)? -/
def lastGroupZero (d : List Nat) : Bool := allZero (d.drop (d.length - 3))

/-- ENCODE's finite path (R180, from the source's step 2 on). The scratch copy ends up holding the
digits that were packed (10_state.md R38; DEDUCED, notes/assumptions/10.md). -/
def encodeFinite (s : State) : Except Detail State :=
  let d := s.coefficient
  let e := s.adjExp.natAbs
  if d.headD 0 = 0 then .error .leadingZero
  else if s.params.elim < e then .error .exponentOutOfRange
  else if lastGroupZero (pad d) then .error .trailingZeroGroup
  else
    let st := keyfinite s.params s.negative (pad d) s.adjExp
    .ok { s with
      kbuf := overlay (st.k.take st.len) s.kbuf
      klen := BitVec.ofNat 32 st.len
      cur := BitVec.ofNat 32 st.off
      emag := BitVec.ofNat 32 e
      tbit := BitVec.ofBool (signIndicator s.negative s.adjExp)
      nbits := BitVec.ofNat 6 (expN e)
      scr := overlay (toCells (storedDigits (pad d) s.negative)) s.scr }

/-- ENCODE's work (R180). -/
def encodeOp (s : State) : Except Detail State :=
  match kindv s with
  | .error d => .error d
  | .ok k =>
    match k.keyByte with
    | some b => .ok (encodeSpecial b s)
    | none => encodeFinite s

/-- DECODE's finite path (R186, from the source's step 2 on) on the key bytes `k` of length KLEN. -/
def decodeFinite (neg : Bool) (k : List Byte) (s : State) : Except Detail State :=
  let t := getbit k 3
  match expdec s.params k s.klen.toNat 4 t with
  | .error d => .error d
  | .ok f =>
    match sigdec s.params k s.klen.toNat f.off neg with
    | .error d => .error d
    | .ok c =>
      .ok { s.setCoefficient c.digits with
        sign := BitVec.ofBool neg
        cls := 0#2
        exp := BitVec.ofInt 32 (adjExpOf neg t f.e - c.digits.length + 1)
        emag := BitVec.ofNat 32 f.e
        tbit := BitVec.ofBool t
        nbits := BitVec.ofNat 6 f.n
        cur := BitVec.ofNat 32 c.off }

/-- DECODE's work (R186). -/
def decodeOp (s : State) : Except Detail State :=
  match kindk s with
  | .error d => .error d
  | .ok .negInf => .ok (decodeSpecial .negInf s)
  | .ok .negZero => .ok (decodeSpecial .negZero s)
  | .ok .posZero => .ok (decodeSpecial .posZero s)
  | .ok .posInf => .ok (decodeSpecial .posInf s)
  | .ok .nan => .ok (decodeSpecial .nan s)
  | .ok .negFinite => decodeFinite true s.kbuf s
  | .ok .posFinite => decodeFinite false s.kbuf s

/-- ENCODE (R180). -/
def execEncode (s : State) : Host.Outcome State Fault Refusal := .next (finish s (encodeOp s))

/-- DECODE (R186). -/
def execDecode (s : State) : Host.Outcome State Fault Refusal := .next (finish s (decodeOp s))

end Sys2Proof.Machine
end

