-- ==== Sys2Proof/Machine/Keys.lean ====
section
/-! DEFINITION. The key rows of the opcode table: what DECODE does with a key of that row once its length
and first byte have told the row (30_encoding.md R71, R72, R79; 44_orchestrator.md R186 to R188). A
row of format KEYF takes the bits the row leaves free from the instruction and the rest of the key
from KBUF[1] on. DESIGN CHOICE: notes/assumptions/6.md. -/

namespace Sys2Proof.Machine

/-- A one-byte key (format KEY1). -/
def specialKey (k : Kind) (s : State) : State := succeed (decodeSpecial k s)

/-- A key of format KEYF with a valid first byte `b0`: the finite path of DECODE. A length KBUF cannot hold
is KeyTooLong (43_special.md R167). -/
def finiteKeyOp (neg : Bool) (b0 : Byte) (s : State) : Except Detail State :=
  if s.params.kmax < s.klen.toNat then .error .keyTooLong
  else decodeFinite neg (s.kbuf.set 0 b0) s

/-- KEY.NEGINF, 0x00 (R71, R168). -/
def execKeyNegInf (s : State) : Host.Outcome State Fault Refusal := .next (specialKey .negInf s)

/-- KEY.NEGZERO, 0x40 (R71, R168). -/
def execKeyNegZero (s : State) : Host.Outcome State Fault Refusal := .next (specialKey .negZero s)

/-- KEY.POSZERO, 0x80 (R71, R168). -/
def execKeyPosZero (s : State) : Host.Outcome State Fault Refusal := .next (specialKey .posZero s)

/-- KEY.POSINF, 0xC0 (R71, R168). -/
def execKeyPosInf (s : State) : Host.Outcome State Fault Refusal := .next (specialKey .posInf s)

/-- KEY.NAN, 0xE0 (R71, R166, R168). -/
def execKeyNan (s : State) : Host.Outcome State Fault Refusal := .next (specialKey .nan s)

/-- KEY.NEGFINITE, `000Txxxx` (R72, R186). -/
def execKeyNegFinite (t : BitVec 1) (x : BitVec 4) (s : State) : Host.Outcome State Fault Refusal :=
  .next (finish s (finiteKeyOp true (0b000#3 ++ t ++ x) s))

/-- KEY.POSFINITE, `100Txxxx` (R72, R186). -/
def execKeyPosFinite (t : BitVec 1) (x : BitVec 4) (s : State) : Host.Outcome State Fault Refusal :=
  .next (finish s (finiteKeyOp false (0b100#3 ++ t ++ x) s))

/-- KEY.INVALID.NEG, 0x10 to 0x13 (R188). -/
def execKeyInvalidNeg (_x : BitVec 2) (s : State) : Host.Outcome State Fault Refusal :=
  .next (enterFault .negZeroExponent s)

/-- KEY.INVALID.POS, 0x8C to 0x8F (R188). -/
def execKeyInvalidPos (_x : BitVec 2) (s : State) : Host.Outcome State Fault Refusal :=
  .next (enterFault .negZeroExponent s)

/-- KEY.INVALID.SIGN01, `01xxxxxx` (R73). -/
def execKeyInvalidSign01 (_x : BitVec 6) (s : State) : Host.Outcome State Fault Refusal :=
  .next (enterFault .badSign s)

/-- KEY.INVALID.SIGN11, `11xxxxxx` (R73). -/
def execKeyInvalidSign11 (_x : BitVec 6) (s : State) : Host.Outcome State Fault Refusal :=
  .next (enterFault .badSign s)

/-- KEY.INVALID.PAD.NEG, `001xxxxx` (R187). -/
def execKeyInvalidPadNeg (_x : BitVec 5) (s : State) : Host.Outcome State Fault Refusal :=
  .next (enterFault .badPad s)

/-- KEY.INVALID.PAD.POS, `101xxxxx` (R187). -/
def execKeyInvalidPadPos (_x : BitVec 5) (s : State) : Host.Outcome State Fault Refusal :=
  .next (enterFault .badPad s)

end Sys2Proof.Machine
end

