-- ==== Sys2Proof/Machine/Bus.lean ====
section
/-! DEFINITION. The reserved op codes (30_encoding.md R84) and the host's transactions RD and WR
(40_cursor.md R104, R105). -/

namespace Sys2Proof.Machine

/-- op 0x0 (R84). -/
def execReservedOp0 (_rest : BitVec 12) (s : State) : Host.Outcome State Fault Refusal :=
  .next (enterFault .reservedOp s)

/-- op 0xD (R84). -/
def execReservedOpD (_rest : BitVec 12) (s : State) : Host.Outcome State Fault Refusal :=
  .next (enterFault .reservedOp s)

/-- op 0xE (R84). -/
def execReservedOpE (_rest : BitVec 12) (s : State) : Host.Outcome State Fault Refusal :=
  .next (enterFault .reservedOp s)

/-- op 0xF (R84). -/
def execReservedOpF (_rest : BitVec 12) (s : State) : Host.Outcome State Fault Refusal :=
  .next (enterFault .reservedOp s)

/-- The operation a command word starts (R83). The rows that are no command words are no operation of
the command register; the decoder gives none of them for a command word. -/
def runCommand (i : Instr) (s : State) : Host.Outcome State Fault Refusal :=
  match i with
  | .encode => execEncode s
  | .decode => execDecode s
  | .pack n bits => execPack n bits s
  | .unpack n => execUnpack n s
  | .expenc => execExpenc s
  | .expdec => execExpdec s
  | .sigenc => execSigenc s
  | .sigdec => execSigdec s
  | .classv => execClassv s
  | .classk => execClassk s
  | .spenc => execSpenc s
  | .spdec => execSpdec s
  | .reservedOp0 rest => execReservedOp0 rest s
  | .reservedOpD rest => execReservedOpD rest s
  | .reservedOpE rest => execReservedOpE rest s
  | .reservedOpF rest => execReservedOpF rest s
  | .rd _ | .wr _ _ | .keyNegInf | .keyNegZero | .keyPosZero | .keyPosInf | .keyNan
  | .keyNegFinite _ _ | .keyPosFinite _ _ | .keyInvalidNeg _ | .keyInvalidPos _
  | .keyInvalidSign01 _ | .keyInvalidSign11 _ | .keyInvalidPadNeg _ | .keyInvalidPadPos _ =>
    .next (enterFault .reservedOp s)

/-- A write of a command word to CMD (R82 to R84, R105): decode it and perform the operation, or raise
IllegalCommand. -/
def writeCommand (w : CommandWord) (s : State) : Host.Outcome State Fault Refusal :=
  match decodeCommand w with
  | .ok i => runCommand i s
  | .error e => .next (enterFault (rejectDetail e) s)

/-- RD r (R104): the value, or a bus error; no register changes. -/
def execRd (r : Nat) (s : State) : Host.Outcome State Fault Refusal :=
  match readRegister s r with
  | some v => .next { s with resp := .value v }
  | none => .next { s with resp := .busError }

/-- WR r, v (R105): a write to CMD performs the command in `v[15:0]`; a register with W access stores the
low bits; anything else is a bus error and nothing changes. -/
def execWr (r : Nat) (v : Word) (s : State) : Host.Outcome State Fault Refusal :=
  if r = cmdNumber then writeCommand (v.setWidth 16) s
  else
    match writeRegister s r v with
    | some s' => .next { s' with resp := .done }
    | none => .next { s with resp := .busError }

end Sys2Proof.Machine
end

