-- ==== Sys2Proof/Machine/Dispatch.lean ====
section
/-! DEFINITION. What each instruction of the opcode table does: one arm per constructor of Instr. -/

namespace Sys2Proof.Machine

def exec (i : Instr) (s : State) : Host.Outcome State Fault Refusal :=
  match i with
  | .encode => Sys2Proof.Machine.execEncode s
  | .decode => Sys2Proof.Machine.execDecode s
  | .pack n bits => Sys2Proof.Machine.execPack n bits s
  | .unpack n => Sys2Proof.Machine.execUnpack n s
  | .expenc => Sys2Proof.Machine.execExpenc s
  | .expdec => Sys2Proof.Machine.execExpdec s
  | .sigenc => Sys2Proof.Machine.execSigenc s
  | .sigdec => Sys2Proof.Machine.execSigdec s
  | .classv => Sys2Proof.Machine.execClassv s
  | .classk => Sys2Proof.Machine.execClassk s
  | .spenc => Sys2Proof.Machine.execSpenc s
  | .spdec => Sys2Proof.Machine.execSpdec s
  | .reservedOp0 rest => Sys2Proof.Machine.execReservedOp0 rest s
  | .reservedOpD rest => Sys2Proof.Machine.execReservedOpD rest s
  | .reservedOpE rest => Sys2Proof.Machine.execReservedOpE rest s
  | .reservedOpF rest => Sys2Proof.Machine.execReservedOpF rest s
  | .rd r => Sys2Proof.Machine.execRd r s
  | .wr r v => Sys2Proof.Machine.execWr r v s
  | .keyNegInf => Sys2Proof.Machine.execKeyNegInf s
  | .keyNegZero => Sys2Proof.Machine.execKeyNegZero s
  | .keyPosZero => Sys2Proof.Machine.execKeyPosZero s
  | .keyPosInf => Sys2Proof.Machine.execKeyPosInf s
  | .keyNan => Sys2Proof.Machine.execKeyNan s
  | .keyNegFinite t x => Sys2Proof.Machine.execKeyNegFinite t x s
  | .keyPosFinite t x => Sys2Proof.Machine.execKeyPosFinite t x s
  | .keyInvalidNeg x => Sys2Proof.Machine.execKeyInvalidNeg x s
  | .keyInvalidPos x => Sys2Proof.Machine.execKeyInvalidPos x s
  | .keyInvalidSign01 x => Sys2Proof.Machine.execKeyInvalidSign01 x s
  | .keyInvalidSign11 x => Sys2Proof.Machine.execKeyInvalidSign11 x s
  | .keyInvalidPadNeg x => Sys2Proof.Machine.execKeyInvalidPadNeg x s
  | .keyInvalidPadPos x => Sys2Proof.Machine.execKeyInvalidPadPos x s

end Sys2Proof.Machine
end

