-- ==== Sys2Proof/Machine/Fetch.lean ====
section
/-! DEFINITION. How the block comes to its next instruction: it fetches none (10_state.md R31), the host
issues transactions (00_scope.md R7), and the oldest of them is the next one. -/

namespace Sys2Proof.Machine

/-- What the next step has to do. -/
inductive Fetched where
  /-- The host has issued nothing: the block is idle (10_state.md R42, 60_exceptions.md R234). -/
  | idle
  /-- The external reset. -/
  | reset (s : State)
  /-- A transaction, to be decoded. -/
  | transaction (e : Encoded) (s : State)
deriving DecidableEq, Repr

/-- Take the oldest thing the host has issued. -/
def fetch (s : State) : Fetched :=
  match s.pending with
  | [] => .idle
  | .reset :: rest => .reset { s with pending := rest }
  | .rd r :: rest => .transaction (.rd r) { s with pending := rest }
  | .wr r v :: rest => .transaction (.wr r v) { s with pending := rest }

/-- An event at the head of what the host has issued. -/
def State.issue (s : State) (ev : HostEvent) : State := { s with pending := ev :: s.pending }

/-- `s` with a key whose first byte is `b0` in KBUF: the byte alone, or with one byte of zeros after it. -/
def State.loadKey (s : State) (b0 : Byte) : State :=
  if isSpecialByte b0 then { s with kbuf := s.kbuf.set 0 b0, klen := 1#32 }
  else { s with kbuf := (s.kbuf.set 0 b0).set 1 0#8, klen := 2#32 }

/-- Place an opcode-table word so that the next step runs it: a command word as a WR to CMD, a key's
first byte in KBUF with DECODE issued, no bits as an RD of register 0 (notes/assumptions/4.md, 6.md,
11.md). -/
def placeWord (s : State) (nbits w : Nat) : State :=
  if nbits = 16 then s.issue (.wr cmdNumber (BitVec.ofNat 32 (w % 2 ^ 16)))
  else if nbits = 8 then (s.loadKey (BitVec.ofNat 8 w)).issue (.wr cmdNumber 0x0002#32)
  else s.issue (.rd 0)

end Sys2Proof.Machine
end

