-- ==== Sys2Proof/Machine/Step.lean ====
section
/-! DEFINITION. One step of the block: one transaction of the host, complete (20_memory.md R60). -/

namespace Sys2Proof.Machine

/-- One step: with nothing issued the block stays as it is; otherwise it performs the oldest transaction,
or the reset. An encoding the decoder rejects is an illegal command word (30_encoding.md R84).
Parameter sets outside 00_scope.md R9 are refused (93_implementation_defined.md U9). -/
def step (s : State) : Host.Outcome State Fault Refusal :=
  if s.params.valid then
    match fetch s with
    | .idle => .next s
    | .reset s' => .next (resetBlock s')
    | .transaction e s' =>
      match decode e with
      | .ok i => exec i s'
      | .error r => .next (enterFault (rejectDetail r) s')
  else .refused .unsupportedParams

/-- `s` with an opcode-table word placed where the next step finds it. -/
def State.withFetchWord (s : State) (nbits w : Nat) : State := placeWord s nbits w

end Sys2Proof.Machine
end

