-- ==== Sys2Proof/Laws/PerInstr.lean ====
section
/-! SUPPORT. The statement made per instruction: the decoder reads back what the encoder writes. -/

/-- Decoding the encoding of a well-formed instruction gives it back, with every operand. -/
def Sys2Proof.Laws.DecodeEncode.Statement (i : Sys2Proof.Instr) : Prop :=
  i.wf = true → Sys2Proof.decode (Sys2Proof.encode i) = .ok i

namespace Sys2Proof

/-! ## The fields of a command word, put together and taken apart (30_encoding.md R82, R83) -/

/-- The bits of a command word, by its op code and the twelve bits above it. -/
theorem word_getLsbD (x : BitVec 12) (op : BitVec 4) (i : Nat) :
    BitVec.getLsbD (w := 16) (x ++ op) i = if i < 4 then op.getLsbD i else x.getLsbD (i - 4) := by
  have h : BitVec.getLsbD (w := 16) (x ++ op) i = _ := BitVec.getLsbD_append (x := x) (y := op)
  rw [h]

/-- The twelve bits above the op code, by `n` and `bits`. -/
theorem fields_getLsbD (b : Byte) (n : BitVec 4) (i : Nat) :
    BitVec.getLsbD (w := 12) (b ++ n) i = if i < 4 then n.getLsbD i else b.getLsbD (i - 4) := by
  have h : BitVec.getLsbD (w := 12) (b ++ n) i = _ := BitVec.getLsbD_append (x := b) (y := n)
  rw [h]

theorem commandOp_append (x : BitVec 12) (op : BitVec 4) : commandOp (x ++ op) = op := by
  refine BitVec.eq_of_getLsbD_eq fun i hi => ?_
  rw [commandOp, BitVec.getLsbD_extractLsb', word_getLsbD, if_pos (by omega)]
  simp [hi]

theorem rest_append (x : BitVec 12) (op : BitVec 4) :
    BitVec.extractLsb' 4 12 (n := 16) (x ++ op) = x := by
  refine BitVec.eq_of_getLsbD_eq fun i hi => ?_
  rw [BitVec.getLsbD_extractLsb', word_getLsbD, if_neg (by omega), show 4 + i - 4 = i by omega]
  simp [hi]

theorem commandOp_commandWord (b : Byte) (n op : BitVec 4) : commandOp (commandWord b n op) = op :=
  commandOp_append (b ++ n) op

theorem commandN_commandWord (b : Byte) (n op : BitVec 4) : commandN (commandWord b n op) = n := by
  refine BitVec.eq_of_getLsbD_eq fun i hi => ?_
  rw [commandN, BitVec.getLsbD_extractLsb', commandWord, word_getLsbD, if_neg (by omega),
    fields_getLsbD, if_pos (by omega), show 4 + i - 4 = i by omega]
  simp [hi]

theorem commandBits_commandWord (b : Byte) (n op : BitVec 4) : commandBits (commandWord b n op) = b := by
  refine BitVec.eq_of_getLsbD_eq fun i hi => ?_
  rw [commandBits, BitVec.getLsbD_extractLsb', commandWord, word_getLsbD, if_neg (by omega),
    fields_getLsbD, if_neg (by omega), show 8 + i - 4 - 4 = i by omega]
  simp [hi]

/-- A WR to CMD of a command word is that command word decoded (40_cursor.md R105). -/
theorem decode_encodeCommand (w : CommandWord) : decode (encodeCommand w) = decodeCommand w := by
  have : (w.setWidth 32).setWidth 16 = w := by
    ext i hi
    simp
  simp [decode, encodeCommand, this]

end Sys2Proof

namespace Sys2Proof.Laws.DecodeEncode

open Sys2Proof

theorem encode : Statement .encode := fun _ => by decide

theorem decode : Statement .decode := fun _ => by decide

theorem pack (n : BitVec 4) (bits : Byte) : Statement (.pack n bits) := fun _ => by
  rw [Sys2Proof.encode, decode_encodeCommand, decodeCommand, commandOp_commandWord]
  simp only [commandN_commandWord, commandBits_commandWord]
  rfl

theorem unpack (n : BitVec 4) : Statement (.unpack n) := fun _ => by
  rw [Sys2Proof.encode, decode_encodeCommand, decodeCommand, commandOp_commandWord]
  simp only [commandN_commandWord, commandBits_commandWord]
  rfl

theorem expenc : Statement .expenc := fun _ => by decide

theorem expdec : Statement .expdec := fun _ => by decide

theorem sigenc : Statement .sigenc := fun _ => by decide

theorem sigdec : Statement .sigdec := fun _ => by decide

theorem classv : Statement .classv := fun _ => by decide

theorem classk : Statement .classk := fun _ => by decide

theorem spenc : Statement .spenc := fun _ => by decide

theorem spdec : Statement .spdec := fun _ => by decide

theorem reservedOp0 (rest : BitVec 12) : Statement (.reservedOp0 rest) := fun _ => by
  rw [Sys2Proof.encode, decode_encodeCommand, decodeCommand, commandOp_append, rest_append]
  rfl

theorem reservedOpD (rest : BitVec 12) : Statement (.reservedOpD rest) := fun _ => by
  rw [Sys2Proof.encode, decode_encodeCommand, decodeCommand, commandOp_append, rest_append]
  rfl

theorem reservedOpE (rest : BitVec 12) : Statement (.reservedOpE rest) := fun _ => by
  rw [Sys2Proof.encode, decode_encodeCommand, decodeCommand, commandOp_append, rest_append]
  rfl

theorem reservedOpF (rest : BitVec 12) : Statement (.reservedOpF rest) := fun _ => by
  rw [Sys2Proof.encode, decode_encodeCommand, decodeCommand, commandOp_append, rest_append]
  rfl

theorem rd (r : Nat) : Statement (.rd r) := fun _ => rfl

theorem wr (r : Nat) (v : Word) : Statement (.wr r v) := fun h => by
  have h0 : r ≠ cmdNumber := by simpa [Instr.wf] using h
  rw [Sys2Proof.encode, Sys2Proof.decode, if_neg h0]

theorem keyNegInf : Statement .keyNegInf := fun _ => by decide

theorem keyNegZero : Statement .keyNegZero := fun _ => by decide

theorem keyPosZero : Statement .keyPosZero := fun _ => by decide

theorem keyPosInf : Statement .keyPosInf := fun _ => by decide

theorem keyNan : Statement .keyNan := fun _ => by decide

theorem keyNegFinite (t : BitVec 1) (x : BitVec 4) : Statement (.keyNegFinite t x) := by
  revert t x
  unfold Statement
  decide

theorem keyPosFinite (t : BitVec 1) (x : BitVec 4) : Statement (.keyPosFinite t x) := by
  revert t x
  unfold Statement
  decide

theorem keyInvalidNeg (x : BitVec 2) : Statement (.keyInvalidNeg x) := by
  revert x
  unfold Statement
  decide

theorem keyInvalidPos (x : BitVec 2) : Statement (.keyInvalidPos x) := by
  revert x
  unfold Statement
  decide

theorem keyInvalidSign01 (x : BitVec 6) : Statement (.keyInvalidSign01 x) := by
  revert x
  unfold Statement
  decide

theorem keyInvalidSign11 (x : BitVec 6) : Statement (.keyInvalidSign11 x) := by
  revert x
  unfold Statement
  decide

theorem keyInvalidPadNeg (x : BitVec 5) : Statement (.keyInvalidPadNeg x) := by
  revert x
  unfold Statement
  decide

theorem keyInvalidPadPos (x : BitVec 5) : Statement (.keyInvalidPadPos x) := by
  revert x
  unfold Statement
  decide

end Sys2Proof.Laws.DecodeEncode
end

