-- ==== Sys2Proof/Safety.lean ====
section
/-! DEFINITION. The terms claims are stated in: the invariant of an instance, what a write of bits leaves in
the key buffer, the Decimal Value and the key an instance holds, encodable values and their order. -/

namespace Sys2Proof

/-- The rows of format CMD: what a write to CMD can start (30_encoding.md R83). -/
def Instr.isCommand : Instr → Bool
  | .encode | .decode | .pack _ _ | .unpack _ | .expenc | .expdec | .sigenc | .sigdec
  | .classv | .classk | .spenc | .spdec
  | .reservedOp0 _ | .reservedOpD _ | .reservedOpE _ | .reservedOpF _ => true
  | .rd _ | .wr _ _ | .keyNegInf | .keyNegZero | .keyPosZero | .keyPosInf | .keyNan
  | .keyNegFinite _ _ | .keyPosFinite _ _ | .keyInvalidNeg _ | .keyInvalidPos _
  | .keyInvalidSign01 _ | .keyInvalidSign11 _ | .keyInvalidPadNeg _ | .keyInvalidPadPos _ => false

end Sys2Proof

namespace Sys2Proof.Machine

/-! ## The invariant -/

/-- Each buffer has exactly the cells the parameters give it (10_state.md R26, R38): its one form. -/
def Memory.wf (s : State) : Bool :=
  decide (s.dig.length = s.params.dmax) && decide (s.kbuf.length = s.params.kmax) &&
  decide (s.scr.length = s.params.dmax)

/-- STATUS and DETAIL hold OK and 0, or a detail code with the status it belongs to (60_exceptions.md
R210, R211). -/
def LegalReport (s : State) : Prop :=
  (s.status = 0#3 ∧ s.detail = 0#5) ∨
  (∃ d : Detail, s.status = d.status.code ∧ s.detail = d.code)

/-- What every state of an instance meets: parameters within 00_scope.md R9, buffers of their sizes, and no
register holding a code that 93_implementation_defined.md U18 says is never written. -/
structure BlockInv (s : State) : Prop where
  params : s.params.valid = true
  memory : Memory.wf s = true
  report : LegalReport s
  kind : s.kind ≠ 7#3
  nbits : s.nbits = 0#6 ∨ (2 ≤ s.nbits.toNat ∧ s.nbits.toNat ≤ 32)

/-! ## How an operation ends -/

/-- `s` after an operation reported `status` and `detail` and changed nothing else (60_exceptions.md R218). -/
def State.reported (s : State) (status : BitVec 3) (detail : BitVec 5) : State :=
  { s with status := status, detail := detail, resp := .done }

/-! ## The key buffer -/

/-- `KEY(x)`, the bytes of the key an instance holds (10_state.md R40). -/
def State.key (s : State) : List Byte := s.kbuf.take s.klen.toNat

/-- `k'` and `len'` are what packing the bits `bs` at stream offset `off` makes of a buffer `k` that holds a
key of `len` bytes (40_cursor.md R100, 20_memory.md R57): the bits stand at `off`; the other bits of
the old key are kept; the other bits of the bytes the key grew by are 0; the bytes above are kept. -/
structure PackedAt (k : List Byte) (len off : Nat) (bs : List Bool) (k' : List Byte) (len' : Nat) :
    Prop where
  size : k'.length = k.length
  grown : len' = if bs = [] then len else max len ((off + bs.length - 1) / 8 + 1)
  written : readBits k' off bs.length = bs
  kept : ∀ j, j < off ∨ off + bs.length ≤ j → j < 8 * len → getbit k' j = getbit k j
  fresh : ∀ j, j < off ∨ off + bs.length ≤ j → 8 * len ≤ j → j < 8 * len' → getbit k' j = false
  above : ∀ i, len' ≤ i → k'.getD i 0#8 = k.getD i 0#8

/-! ## Decimal Values -/

/-- The integer a digit sequence spells, most significant digit first (10_state.md R20). -/
def digitsValue (d : List Nat) : Nat := d.foldl (fun v x => 10 * v + x) 0

/-- Is every digit a decimal digit (10_state.md R21)? -/
def AllDigits (d : List Nat) : Prop := ∀ x ∈ d, x ≤ 9

/-- A padded coefficient that a canonical key holds: whole groups, at most `DMAX` digits, no leading zero
digit, last group not 000 (42_significand.md R145, 10_state.md R22). -/
structure Canonical (p : Params) (d : List Nat) : Prop where
  digits : AllDigits d
  groups : d.length % 3 = 0
  nonempty : 0 < d.length
  size : d.length ≤ p.dmax
  lead : d.headD 0 ≠ 0
  last : lastGroupZero d = false

/-- The finite nonzero values ENCODE accepts (10_state.md R21, R22), as the registers hold them. -/
structure EncodableFinite (s : State) : Prop where
  cls : s.cls = 0#2
  count : 1 ≤ s.dcnt.toNat ∧ s.dcnt.toNat ≤ s.params.dmax
  digits : AllDigits s.coefficient
  lead : s.coefficient.headD 0 ≠ 0
  range : s.adjExp.natAbs ≤ s.params.elim
  last : lastGroupZero (pad s.coefficient) = false

/-- The zeros ENCODE accepts (10_state.md R22), as the registers hold them. -/
structure EncodableZero (s : State) : Prop where
  cls : s.cls = 0#2
  count : 1 ≤ s.dcnt.toNat ∧ s.dcnt.toNat ≤ s.params.dmax
  zero : ∀ x ∈ s.coefficient, x = 0

/-- The encodable values (10_state.md R22), as the registers hold them. -/
def Encodable (s : State) : Prop :=
  s.cls = 1#2 ∨ s.cls = 2#2 ∨ EncodableZero s ∨ EncodableFinite s

/-- The numeric value of a finite value (10_state.md R20). -/
def State.numeric (s : State) : ℚ :=
  (if s.negative then -1 else 1) * (digitsValue s.coefficient : ℚ) * (10 : ℚ) ^ s.exp.toInt

/-- The rank of an encodable value's kind in key order (10_state.md R23, 43_special.md R160). -/
def State.rank (s : State) : Nat :=
  if s.cls = 2#2 then 6
  else if s.cls = 1#2 then (if s.negative then 0 else 5)
  else if allZero s.coefficient then (if s.negative then 2 else 3)
  else if s.negative then 1 else 4

/-- Is the kind one of the two finite nonzero ones? -/
def State.finiteNonzero (s : State) : Prop := s.rank = 1 ∨ s.rank = 4

/-- `a < b` in the order of 10_state.md R23. -/
def ValueLt (a b : State) : Prop :=
  a.rank < b.rank ∨ (a.rank = b.rank ∧ a.finiteNonzero ∧ a.numeric < b.numeric)

/-- `a` and `b` are of the same kind and, when finite nonzero, numerically equal (44_orchestrator.md R200). -/
def ValueEq (a b : State) : Prop :=
  a.rank = b.rank ∧ (a.finiteNonzero → a.numeric = b.numeric)

/-! ## Stale cells -/

/-- `s` and `s'` differ at most in cells that are no part of the value or of the key they hold: DIG at or
above DCNT, KBUF at or above KLEN, and SCR (10_state.md R33, R34, R38). -/
structure SameButStale (s s' : State) : Prop where
  registers : { s with dig := [], kbuf := [], scr := [] } = { s' with dig := [], kbuf := [], scr := [] }
  digSize : s.dig.length = s'.dig.length
  kbufSize : s.kbuf.length = s'.kbuf.length
  dig : ∀ i, i < s.dcnt.toNat → s.dig.getD i 0#4 = s'.dig.getD i 0#4
  kbuf : ∀ i, i < s.klen.toNat → s.kbuf.getD i 0#8 = s'.kbuf.getD i 0#8

end Sys2Proof.Machine
end

