-- ==== Sys2Proof/Certificates/Slice0/Obligations.lean ====
section
/-! DEFINITION. The statements for the provers. Numbers of STATUS and DETAIL are those of
60_exceptions.md R210 and R211. -/

open Sys2Proof Sys2Proof.Machine

/-! ## Encodings -/

/-- Every well-formed instruction is decoded from its encoding, with every operand it has
(30_encoding.md R71, R72, R79, R83, R85). -/
def Obligations.DecodeReadsBackEveryEncoding : Prop :=
  ∀ i : Instr, Sys2Proof.Laws.DecodeEncode.Statement i

/-- A few encodings written out from R71, R79 and R83: PACK 2, 0b10; UNPACK 8; ENCODE; the one-byte key
of NaN; the first bytes of the keys of 1.9 and -199.8 and of a degenerate header. -/
def Obligations.SampleWordsDecode : Prop :=
  decode (.wr 0x00 0b0000001000100011#32) = .ok (.pack 2#4 0b10#8) ∧
  decode (.wr 0x00 0b0000000010000100#32) = .ok (.unpack 8#4) ∧
  decode (.wr 0x00 0b0000000000000001#32) = .ok .encode ∧
  decode (.key 1 0b11100000#8) = .ok .keyNan ∧
  decode (.key 2 0b10010000#8) = .ok (.keyPosFinite 1#1 0#4) ∧
  decode (.key 4 0b00000111#8) = .ok (.keyNegFinite 0#1 7#4) ∧
  decode (.key 2 0b10001100#8) = .ok (.keyInvalidPos 0#2)

/-- The illegal command words of R84, told by the numbers `op`, `n` and `bits` of R82: a reserved op code,
then a bad width of PACK or UNPACK, then a non-zero unused field; each write changes STATUS and DETAIL
and nothing else. PACK ignores the bits of `bits` above bit `n - 1`. -/
def Obligations.IllegalCommandWordsFault : Prop :=
  ∀ (s : State) (v : Word) (op n bits : Nat),
    op = v.toNat % 16 → n = v.toNat / 16 % 16 → bits = v.toNat / 256 % 256 →
    ((op = 0 ∨ 13 ≤ op) → exec (.wr 0 v) s = .next (s.reported 4#3 28#5)) ∧
    ((op = 3 ∨ op = 4) → (n = 0 ∨ 9 ≤ n) → exec (.wr 0 v) s = .next (s.reported 4#3 29#5)) ∧
    (op = 4 → 1 ≤ n → n ≤ 8 → bits ≠ 0 → exec (.wr 0 v) s = .next (s.reported 4#3 30#5)) ∧
    (1 ≤ op → op ≤ 12 → op ≠ 3 → op ≠ 4 → (n ≠ 0 ∨ bits ≠ 0) →
      exec (.wr 0 v) s = .next (s.reported 4#3 30#5)) ∧
    (∀ v' : Word, op = 3 → 1 ≤ n → n ≤ 8 → v'.toNat % 256 = v.toNat % 256 →
      v'.toNat / 256 % 2 ^ n = v.toNat / 256 % 2 ^ n → exec (.wr 0 v') s = exec (.wr 0 v) s)

/-! ## Reset and the host's transactions -/

/-- After reset, whatever DIG, KBUF and SCR hold and whatever the parameters (10_state.md R41): every scalar
register reads 0, ENCODE raises UnsupportedValue(BadDigitCount), DECODE raises
InvalidEncoding(EmptyKey), and each cell of DIG and KBUF reads what it holds. -/
def Obligations.ResetLeavesScalarsZero : Prop :=
  ∀ (p : Params) (dig scr : List Cell4) (kbuf : List Byte) (pending : List HostEvent) (n : Nat)
    (s : State), p.valid = true → s = State.afterReset p dig kbuf scr pending n →
    (∀ r : Nat, r ≤ 0x0D → exec (.rd r) s = .next { s with resp := .value 0#32 }) ∧
    exec .encode s = .next (s.reported 2#3 17#5) ∧
    exec .decode s = .next (s.reported 1#3 1#5) ∧
    (∀ i, i < p.dmax →
      exec (.rd (0x1000 + i)) s = .next { s with resp := .value ((dig.getD i 0#4).setWidth 32) }) ∧
    (∀ i, i < p.kmax →
      exec (.rd (0x2000 + i)) s = .next { s with resp := .value ((kbuf.getD i 0#8).setWidth 32) })

/-- The external reset (70_reset_and_hazards.md R240) puts the block into the state of R41, for some contents
of the three buffers, whatever it was before; what the host has still to issue stays. That reset is an
event of the host's list is the model's choice (notes/assumptions/4.md, 14.md). -/
def Obligations.ResetEventGivesResetState : Prop :=
  ∀ (s : State) (rest : List HostEvent), s.params.valid = true → s.pending = .reset :: rest →
    ∃ (dig scr : List Cell4) (kbuf : List Byte),
      dig.length = s.params.dmax ∧ kbuf.length = s.params.kmax ∧ scr.length = s.params.dmax ∧
      step s = .next (State.afterReset s.params dig kbuf scr rest (s.resets + 1))

/-- The reset state meets the invariant. That its buffers hold 0 and its parameters are the test
configuration is the model's choice (notes/assumptions/1.md, 2.md). -/
def Obligations.ResetMeetsInvariant : Prop := BlockInv State.reset

/-- With nothing issued the block is idle and stays as it is (10_state.md R42, 60_exceptions.md R217, R234).
That transactions stand in a list is the model's choice (notes/assumptions/4.md). -/
def Obligations.IdleBlockStays : Prop :=
  ∀ s : State, s.params.valid = true → s.pending = [] → step s = .next s

/-- A step performs the oldest transaction of the host: what the decoder reads from it is what `exec` runs
(on the state with the transaction taken), and a command word the decoder rejects raises IllegalCommand
(20_memory.md R60, 30_encoding.md R84). The list of transactions is the model's
(notes/assumptions/4.md). -/
def Obligations.StepRunsTheDecodedInstruction : Prop :=
  ∀ (s : State) (rest : List HostEvent), s.params.valid = true →
    (∀ r, s.pending = .rd r :: rest → ∀ i, decode (.rd r) = .ok i →
      step s = exec i { s with pending := rest }) ∧
    (∀ r v, s.pending = .wr r v :: rest → ∀ i, decode (.wr r v) = .ok i →
      step s = exec i { s with pending := rest }) ∧
    (∀ v, s.pending = .wr 0 v :: rest → decode (.wr 0 v) = .error .badWidth →
      step s = .next (({ s with pending := rest } : State).reported 4#3 29#5)) ∧
    (∀ v, s.pending = .wr 0 v :: rest → decode (.wr 0 v) = .error .reservedField →
      step s = .next (({ s with pending := rest } : State).reported 4#3 30#5))

/-- A WR to CMD performs the operation its command word stands for (40_cursor.md R105), so a step on it is
that operation. -/
def Obligations.CommandWriteRunsItsOperation : Prop :=
  ∀ (s : State) (i : Instr) (v : Word), i.isCommand = true → i.wf = true →
    encode i = .wr 0 v → ∀ v' : Word, v'.setWidth 16 = v.setWidth 16 →
    exec (.wr 0 v') s = exec i s

/-- RD (40_cursor.md R104): the register's stored bits zero-extended to 32, for every number of the map; a bus
error for any other number; nothing else changes. -/
def Obligations.ReadGivesStoredBits : Prop :=
  ∀ (s : State) (r : Nat), s.params.valid = true →
    (∀ v : Word,
      ((r = 0x00 ∧ v = 0#32) ∨ (r = 0x01 ∧ v = s.status.setWidth 32) ∨
       (r = 0x02 ∧ v = s.detail.setWidth 32) ∨ (r = 0x03 ∧ v = s.sign.setWidth 32) ∨
       (r = 0x04 ∧ v = s.cls.setWidth 32) ∨ (r = 0x05 ∧ v = s.exp) ∨ (r = 0x06 ∧ v = s.dcnt) ∨
       (r = 0x07 ∧ v = s.klen) ∨ (r = 0x08 ∧ v = s.cur) ∨ (r = 0x09 ∧ v = s.emag) ∨
       (r = 0x0A ∧ v = s.tbit.setWidth 32) ∨ (r = 0x0B ∧ v = s.nbits.setWidth 32) ∨
       (r = 0x0C ∧ v = s.val.setWidth 32) ∨ (r = 0x0D ∧ v = s.kind.setWidth 32) ∨
       (∃ i, i < s.params.dmax ∧ r = 0x1000 + i ∧ v = (s.dig.getD i 0#4).setWidth 32) ∨
       (∃ i, i < s.params.kmax ∧ r = 0x2000 + i ∧ v = (s.kbuf.getD i 0#8).setWidth 32)) →
      exec (.rd r) s = .next { s with resp := .value v }) ∧
    ((0x0D < r ∧ (r < 0x1000 ∨ 0x1000 + s.params.dmax ≤ r) ∧
        (r < 0x2000 ∨ 0x2000 + s.params.kmax ≤ r)) →
      exec (.rd r) s = .next { s with resp := .busError })

/-- WR (40_cursor.md R105): to CMD, the operation the low 16 bits stand for, or IllegalCommand; to a register
with W access, the low bits of the value are stored and nothing else of the block changes; a read-only or
an unassigned number is a bus error and changes nothing. -/
def Obligations.WriteStoresLowBits : Prop :=
  ∀ (s : State) (v : Word), s.params.valid = true →
    (∀ i, decode (.wr 0 v) = .ok i → exec (.wr 0 v) s = exec i s) ∧
    (decode (.wr 0 v) = .error .badWidth → exec (.wr 0 v) s = .next (s.reported 4#3 29#5)) ∧
    (decode (.wr 0 v) = .error .reservedField → exec (.wr 0 v) s = .next (s.reported 4#3 30#5)) ∧
    (∀ v' : Word, v'.setWidth 16 = v.setWidth 16 → exec (.wr 0 v') s = exec (.wr 0 v) s) ∧
    exec (.wr 0x03 v) s = .next { s with sign := BitVec.ofNat 1 v.toNat, resp := .done } ∧
    exec (.wr 0x04 v) s = .next { s with cls := BitVec.ofNat 2 v.toNat, resp := .done } ∧
    exec (.wr 0x05 v) s = .next { s with exp := v, resp := .done } ∧
    exec (.wr 0x06 v) s = .next { s with dcnt := v, resp := .done } ∧
    exec (.wr 0x07 v) s = .next { s with klen := v, resp := .done } ∧
    exec (.wr 0x08 v) s = .next { s with cur := v, resp := .done } ∧
    exec (.wr 0x09 v) s = .next { s with emag := v, resp := .done } ∧
    exec (.wr 0x0A v) s = .next { s with tbit := BitVec.ofNat 1 v.toNat, resp := .done } ∧
    (∀ i, i < s.params.dmax → exec (.wr (0x1000 + i) v) s =
      .next { s with dig := s.dig.set i (BitVec.ofNat 4 v.toNat), resp := .done }) ∧
    (∀ i, i < s.params.kmax → exec (.wr (0x2000 + i) v) s =
      .next { s with kbuf := s.kbuf.set i (BitVec.ofNat 8 v.toNat), resp := .done }) ∧
    (∀ r : Nat, (r = 0x01 ∨ r = 0x02 ∨ r = 0x0B ∨ r = 0x0C ∨ r = 0x0D ∨
        (0x0D < r ∧ (r < 0x1000 ∨ 0x1000 + s.params.dmax ≤ r) ∧
          (r < 0x2000 ∨ 0x2000 + s.params.kmax ≤ r))) →
      exec (.wr r v) s = .next { s with resp := .busError })

/-- The reserved op codes (30_encoding.md R84): IllegalCommand(ReservedOp), nothing else changes. -/
def Obligations.ReservedOpCodesFault : Prop :=
  ∀ (s : State) (rest : BitVec 12),
    exec (.reservedOp0 rest) s = .next (s.reported 4#3 28#5) ∧
    exec (.reservedOpD rest) s = .next (s.reported 4#3 28#5) ∧
    exec (.reservedOpE rest) s = .next (s.reported 4#3 28#5) ∧
    exec (.reservedOpF rest) s = .next (s.reported 4#3 28#5)

/-! ## The Bit-Stream Cursor -/

/-- PACK n, bits (40_cursor.md R102): with a width of 1 to 8 and room in KBUF the `n` low bits of `bits` stand at
the old cursor, the cursor has moved on by `n`, and nothing else of the block has changed; otherwise
BadWidth, then Capacity. -/
def Obligations.PackWritesItsBits : Prop :=
  ∀ (s : State) (n : BitVec 4) (bits : Byte), BlockInv s →
    (1 ≤ n.toNat → n.toNat ≤ 8 → s.klen.toNat ≤ s.params.kmax →
      s.cur.toNat + n.toNat ≤ 8 * s.params.kmax →
      ∃ (k' : List Byte) (len' : Nat),
        PackedAt s.kbuf s.klen.toNat s.cur.toNat (bitsOf n.toNat bits.toNat) k' len' ∧
        exec (.pack n bits) s = .next { s.reported 0#3 0#5 with
          kbuf := k', klen := BitVec.ofNat 32 len', cur := s.cur + n.setWidth 32 }) ∧
    (n.toNat = 0 ∨ 9 ≤ n.toNat → exec (.pack n bits) s = .next (s.reported 4#3 29#5)) ∧
    (1 ≤ n.toNat → n.toNat ≤ 8 →
      (s.params.kmax < s.klen.toNat ∨ 8 * s.params.kmax < s.cur.toNat + n.toNat) →
      exec (.pack n bits) s = .next (s.reported 3#3 24#5))

/-- UNPACK n (40_cursor.md R103): with a width of 1 to 8 and enough of the key left, VAL is the number the `n`
bits at the cursor spell and the cursor has moved on by `n`; otherwise BadWidth, ReservedField,
KeyTooLong, Truncated, in that order. -/
def Obligations.UnpackReadsItsBits : Prop :=
  ∀ (s : State) (n : BitVec 4), BlockInv s →
    (1 ≤ n.toNat → n.toNat ≤ 8 → s.klen.toNat ≤ s.params.kmax →
      s.cur.toNat + n.toNat ≤ 8 * s.klen.toNat →
      ∃ v : Byte, v.toNat < 2 ^ n.toNat ∧
        (∀ i, i < n.toNat → v.getLsbD (n.toNat - 1 - i) = getbit s.kbuf (s.cur.toNat + i)) ∧
        exec (.unpack n) s = .next { s.reported 0#3 0#5 with
          val := v, cur := s.cur + n.setWidth 32 }) ∧
    (n.toNat = 0 ∨ 9 ≤ n.toNat → exec (.unpack n) s = .next (s.reported 4#3 29#5)) ∧
    (∀ bits : Byte, n.toNat = 0 ∨ 9 ≤ n.toNat →
      exec (.wr 0 ((bits ++ n ++ 4#4).setWidth 32)) s = .next (s.reported 4#3 29#5)) ∧
    (∀ bits : Byte, bits ≠ 0#8 → 1 ≤ n.toNat → n.toNat ≤ 8 →
      exec (.wr 0 ((bits ++ n ++ 4#4).setWidth 32)) s = .next (s.reported 4#3 30#5)) ∧
    (1 ≤ n.toNat → n.toNat ≤ 8 → s.params.kmax < s.klen.toNat →
      exec (.unpack n) s = .next (s.reported 1#3 14#5)) ∧
    (1 ≤ n.toNat → n.toNat ≤ 8 → s.klen.toNat ≤ s.params.kmax →
      8 * s.klen.toNat < s.cur.toNat + n.toNat →
      exec (.unpack n) s = .next (s.reported 1#3 6#5))

/-- The split law (40_cursor.md R106) on the operations: packing a field in two packs, the high bits first,
leaves the same state as packing it in one. -/
def Obligations.PackSplitsAnywhere : Prop :=
  ∀ (s t : State) (n n1 n2 : BitVec 4) (bits : Byte), BlockInv s →
    1 ≤ n1.toNat → 1 ≤ n2.toNat → n.toNat = n1.toNat + n2.toNat → n.toNat ≤ 8 →
    s.klen.toNat ≤ s.params.kmax → s.cur.toNat + n.toNat ≤ 8 * s.params.kmax →
    exec (.pack n1 (bits >>> n2.toNat)) s = .next t →
    exec (.pack n2 bits) t = exec (.pack n bits) s

/-- UNPACK reads back what PACK wrote, from the same cursor (40_cursor.md R100, R101). -/
def Obligations.UnpackReadsBackPack : Prop :=
  ∀ (s t : State) (n : BitVec 4) (bits : Byte), BlockInv s →
    exec (.pack n bits) s = .next t → t.status = 0#3 →
    exec (.unpack n) { t with cur := s.cur } =
      .next { t with val := BitVec.ofNat 8 (bits.toNat % 2 ^ n.toNat) }

/-! ## The Exponent Codec -/

/-- The properties of `expfield` (41_exponent.md R121): (a) its width is 2N-1; (b) its first bit is T; (c) its
width is 2N-1 exactly for `2^(N-1) - 2 <= E <= 2^N - 3`, so it grows with E; (d) for a fixed T no field
begins another; (e) the order of fields of one T, and T = 0 below T = 1. -/
def Obligations.ExponentFieldProperties : Prop :=
  (∀ e t, (expfield e t).length = 2 * bitlen (e + 2) - 1) ∧
  (∀ e t, (expfield e t).head? = some t) ∧
  (∀ e t n, 2 ≤ n → ((expfield e t).length = 2 * n - 1 ↔ 2 ^ (n - 1) - 2 ≤ e ∧ e ≤ 2 ^ n - 3)) ∧
  (∀ e1 e2 t, e1 ≤ e2 → (expfield e1 t).length ≤ (expfield e2 t).length) ∧
  (∀ e1 e2 t, expfield e1 t <+: expfield e2 t → e1 = e2) ∧
  (∀ e1 e2, e1 < e2 → expfield e1 true < expfield e2 true ∧ expfield e2 false < expfield e1 false) ∧
  (∀ e1 e2, expfield e1 false < expfield e2 true)

/-- EXPENC (41_exponent.md R122): with `E <= ELIM` and room in KBUF the field without its first bit stands at the
old cursor; otherwise ExponentOutOfRange, then Capacity. -/
def Obligations.ExpencWritesTheField : Prop :=
  ∀ s : State, BlockInv s → ∀ e n, e = s.emag.toNat → n = bitlen (e + 2) →
    (e ≤ s.params.elim → s.klen.toNat ≤ s.params.kmax →
      s.cur.toNat + (2 * n - 2) ≤ 8 * s.params.kmax →
      ∃ (k' : List Byte) (len' : Nat),
        PackedAt s.kbuf s.klen.toNat s.cur.toNat (expfield e (decide (s.tbit = 1#1))).tail k' len' ∧
        exec .expenc s = .next { s.reported 0#3 0#5 with
          kbuf := k', klen := BitVec.ofNat 32 len',
          cur := BitVec.ofNat 32 (s.cur.toNat + (2 * n - 2)), nbits := BitVec.ofNat 6 n }) ∧
    (s.params.elim < e → exec .expenc s = .next (s.reported 2#3 20#5)) ∧
    (e ≤ s.params.elim →
      (s.params.kmax < s.klen.toNat ∨ 8 * s.params.kmax < s.cur.toNat + (2 * n - 2)) →
      exec .expenc s = .next (s.reported 3#3 24#5))

/-- EXPDEC (41_exponent.md R123, R124): where the bits at the cursor are an exponent field without its first bit,
for the T in TBIT and an `E <= ELIM`, it gives E, N and the cursor after the field. Otherwise: KeyTooLong;
Truncated where the key ends in the run or in the payload; RunTooLong where `M` more bits equal T;
ExponentTooLarge where the field is complete and `E > ELIM`. -/
def Obligations.ExpdecReadsTheField : Prop :=
  ∀ s : State, BlockInv s → ∀ t, t = decide (s.tbit = 1#1) →
    (∀ e n, e ≤ s.params.elim → n = bitlen (e + 2) → s.klen.toNat ≤ s.params.kmax →
      s.cur.toNat + (2 * n - 2) ≤ 8 * s.klen.toNat →
      readBits s.kbuf s.cur.toNat (2 * n - 2) = (expfield e t).tail →
      exec .expdec s = .next { s.reported 0#3 0#5 with
        emag := BitVec.ofNat 32 e, nbits := BitVec.ofNat 6 n,
        cur := BitVec.ofNat 32 (s.cur.toNat + (2 * n - 2)) }) ∧
    (s.params.kmax < s.klen.toNat → exec .expdec s = .next (s.reported 1#3 14#5)) ∧
    (s.klen.toNat ≤ s.params.kmax → 8 * s.klen.toNat < s.cur.toNat + s.params.m →
      (∀ j, s.cur.toNat ≤ j → j < 8 * s.klen.toNat → getbit s.kbuf j = t) →
      exec .expdec s = .next (s.reported 1#3 6#5)) ∧
    (s.klen.toNat ≤ s.params.kmax → s.cur.toNat + s.params.m ≤ 8 * s.klen.toNat →
      (∀ j, s.cur.toNat ≤ j → j < s.cur.toNat + s.params.m → getbit s.kbuf j = t) →
      exec .expdec s = .next (s.reported 1#3 7#5)) ∧
    (∀ r, s.klen.toNat ≤ s.params.kmax → r < s.params.m → s.cur.toNat + r < 8 * s.klen.toNat →
      (∀ j, s.cur.toNat ≤ j → j < s.cur.toNat + r → getbit s.kbuf j = t) →
      getbit s.kbuf (s.cur.toNat + r) = !t → 8 * s.klen.toNat < s.cur.toNat + (2 * r + 2) →
      exec .expdec s = .next (s.reported 1#3 6#5)) ∧
    (∀ e n, s.params.elim < e → n = bitlen (e + 2) → n ≤ s.params.m + 1 →
      s.klen.toNat ≤ s.params.kmax → s.cur.toNat + (2 * n - 2) ≤ 8 * s.klen.toNat →
      readBits s.kbuf s.cur.toNat (2 * n - 2) = (expfield e t).tail →
      exec .expdec s = .next (s.reported 1#3 8#5))

/-! ## The Significand Codec -/

/-- Ten's complement (42_significand.md R141): the `k` digits of `10^k - C`; digit by digit with `j` the last
non-zero digit; its own inverse; larger to smaller; commuting with appended zero digits. -/
def Obligations.TensComplementProperties : Prop :=
  ∀ d : List Nat, AllDigits d → 1 ≤ digitsValue d →
    ((tens d).length = d.length ∧ AllDigits (tens d) ∧
      digitsValue (tens d) = 10 ^ d.length - digitsValue d) ∧
    (∀ j, j < d.length → d.getD j 0 ≠ 0 → (∀ i, j < i → d.getD i 0 = 0) →
      (∀ i, i < j → (tens d).getD i 0 = 9 - d.getD i 0) ∧
      (tens d).getD j 0 = 10 - d.getD j 0 ∧ ∀ i, j < i → (tens d).getD i 0 = 0) ∧
    tens (tens d) = d ∧
    (∀ d' : List Nat, AllDigits d' → d'.length = d.length → digitsValue d < digitsValue d' →
      digitsValue (tens d') < digitsValue (tens d)) ∧
    (∀ z, tens (d ++ List.replicate z 0) = tens d ++ List.replicate z 0)

/-- The declet of a group (42_significand.md R142): three digits give `100*d0 + 10*d1 + d2`, a number of 0 to 999,
which `sigbits` stores as ten bits, most significant first; every such number gives its three digits back;
1000 to 1023 are the declet of no three digits. -/
def Obligations.DecletAndDigitsAreInverse : Prop :=
  (∀ d0 d1 d2, d0 ≤ 9 → d1 ≤ 9 → d2 ≤ 9 →
    declet d0 d1 d2 = 100 * d0 + 10 * d1 + d2 ∧ declet d0 d1 d2 ≤ 999 ∧
    sigbits [d0, d1, d2] false = bitsOf 10 (declet d0 d1 d2) ∧
    decletDigits (declet d0 d1 d2) = [d0, d1, d2]) ∧
  (∀ v, v ≤ 999 → decletDigits v = [v / 100, v / 10 % 10, v % 10] ∧
    declet (v / 100) (v / 10 % 10) (v % 10) = v) ∧
  (∀ v d0 d1 d2, 1000 ≤ v → v ≤ 1023 → d0 ≤ 9 → d1 ≤ 9 → d2 ≤ 9 → declet d0 d1 d2 ≠ v)

/-- SIGENC (42_significand.md R144): with a digit count that is a positive multiple of 3 up to DMAX, decimal
digits, a nonzero coefficient if negative, and room in KBUF, the declets stand at the old cursor, ten bits
each, and of the block nothing but KBUF, KLEN, CUR, STATUS, DETAIL and the hidden SCR has changed; otherwise
BadDigitCount, BadDigit, ZeroCoefficient, Capacity, in that order. -/
def Obligations.SigencWritesTheDeclets : Prop :=
  ∀ s : State, BlockInv s → ∀ n d, n = s.dcnt.toNat → d = (s.dig.take n).map (·.toNat) →
    (1 ≤ n → n ≤ s.params.dmax → n % 3 = 0 → AllDigits d →
      (s.sign = 1#1 → ∃ x ∈ d, x ≠ 0) → s.klen.toNat ≤ s.params.kmax →
      s.cur.toNat + 10 * (n / 3) ≤ 8 * s.params.kmax →
      ∃ (k' : List Byte) (len' : Nat) (scr' : List Cell4),
        PackedAt s.kbuf s.klen.toNat s.cur.toNat (sigbits d (decide (s.sign = 1#1))) k' len' ∧
        scr'.length = s.scr.length ∧
        exec .sigenc s = .next { s.reported 0#3 0#5 with
          kbuf := k', klen := BitVec.ofNat 32 len',
          cur := BitVec.ofNat 32 (s.cur.toNat + 10 * (n / 3)), scr := scr' }) ∧
    ((n = 0 ∨ s.params.dmax < n ∨ n % 3 ≠ 0) → exec .sigenc s = .next (s.reported 2#3 17#5)) ∧
    (1 ≤ n → n ≤ s.params.dmax → n % 3 = 0 → (∃ x ∈ d, 9 < x) →
      exec .sigenc s = .next (s.reported 2#3 18#5)) ∧
    (1 ≤ n → n ≤ s.params.dmax → n % 3 = 0 → s.sign = 1#1 → (∀ x ∈ d, x = 0) →
      exec .sigenc s = .next (s.reported 2#3 23#5)) ∧
    (1 ≤ n → n ≤ s.params.dmax → n % 3 = 0 → AllDigits d → (s.sign = 1#1 → ∃ x ∈ d, x ≠ 0) →
      (s.params.kmax < s.klen.toNat ∨ 8 * s.params.kmax < s.cur.toNat + 10 * (n / 3)) →
      exec .sigenc s = .next (s.reported 3#3 24#5))

/-- SIGDEC on what an encoder wrote (42_significand.md R145, R146): where the bits from the cursor to the key's end
are the declets of a canonical padded coefficient and fewer than 8 zeros, it gives that coefficient, its
digit count and the cursor at the key's end; cells of DIG above it and everything but DIG, DCNT, CUR,
STATUS, DETAIL and the hidden SCR are as before. -/
def Obligations.SigdecReadsTheDeclets : Prop :=
  ∀ (s : State) (d : List Nat) (tail : Nat), BlockInv s → Canonical s.params d → tail ≤ 7 →
    s.klen.toNat ≤ s.params.kmax →
    s.cur.toNat + (10 * (d.length / 3) + tail) = 8 * s.klen.toNat →
    readBits s.kbuf s.cur.toNat (10 * (d.length / 3) + tail) =
      sigbits d (decide (s.sign = 1#1)) ++ List.replicate tail false →
    ∃ (dig' scr' : List Cell4),
      dig'.length = s.dig.length ∧ scr'.length = s.scr.length ∧
      (∀ i, i < d.length → (dig'.getD i 0#4).toNat = d.getD i 0) ∧
      (∀ i, d.length ≤ i → dig'.getD i 0#4 = s.dig.getD i 0#4) ∧
      exec .sigdec s = .next { s.reported 0#3 0#5 with
        dig := dig', dcnt := BitVec.ofNat 32 d.length,
        cur := BitVec.ofNat 32 (8 * s.klen.toNat), scr := scr' }

/-- SIGDEC's faults (42_significand.md R145, R146) in their order, with `g` complete declets and `p` spare bits:
KeyTooLong; Truncated; TooManyDigits; BadTail for 8 or 9 spare bits; BadDeclet; BadTail for a spare bit
that is 1; ZeroLastGroup; BadLeadGroup. -/
def Obligations.SigdecFaultsInOrder : Prop :=
  ∀ s : State, BlockInv s → ∀ g p v d, g = (8 * s.klen.toNat - s.cur.toNat) / 10 →
    p = (8 * s.klen.toNat - s.cur.toNat) % 10 → v = readDeclets s.kbuf s.cur.toNat g →
    d = v.flatMap decletDigits →
    (s.params.kmax < s.klen.toNat → exec .sigdec s = .next (s.reported 1#3 14#5)) ∧
    (s.klen.toNat ≤ s.params.kmax →
      (8 * s.klen.toNat < s.cur.toNat + 10 → exec .sigdec s = .next (s.reported 1#3 6#5)) ∧
      (1 ≤ g → s.params.dmax < 3 * g → exec .sigdec s = .next (s.reported 1#3 9#5)) ∧
      (1 ≤ g → 3 * g ≤ s.params.dmax →
        (8 ≤ p → exec .sigdec s = .next (s.reported 1#3 10#5)) ∧
        (p ≤ 7 →
          ((∃ x ∈ v, 1000 ≤ x) → exec .sigdec s = .next (s.reported 1#3 11#5)) ∧
          ((∀ x ∈ v, x ≤ 999) →
            ((∃ j, s.cur.toNat + 10 * g ≤ j ∧ j < 8 * s.klen.toNat ∧ getbit s.kbuf j = true) →
              exec .sigdec s = .next (s.reported 1#3 10#5)) ∧
            ((∀ j, s.cur.toNat + 10 * g ≤ j → j < 8 * s.klen.toNat → getbit s.kbuf j = false) →
              (v.getLast? = some 0 → exec .sigdec s = .next (s.reported 1#3 12#5)) ∧
              (v.getLast? ≠ some 0 →
                (if s.sign = 1#1 then tens d else d).head? = some 0 →
                exec .sigdec s = .next (s.reported 1#3 13#5)))))))

/-! ## The Special-Value Codec and the classifier -/

/-- CLASSV (43_special.md R161, R165): the kind of the Decimal Value into KIND, or BadClass, BadDigitCount,
BadDigit; nothing else changes. -/
def Obligations.ClassvGivesTheKind : Prop :=
  ∀ s : State, BlockInv s → ∀ n d, n = s.dcnt.toNat → d = (s.dig.take n).map (·.toNat) →
    (s.cls = 3#2 → exec .classv s = .next (s.reported 2#3 16#5)) ∧
    (s.cls = 2#2 → exec .classv s = .next { s.reported 0#3 0#5 with kind := 6#3 }) ∧
    (s.cls = 1#2 → s.sign = 1#1 → exec .classv s = .next { s.reported 0#3 0#5 with kind := 0#3 }) ∧
    (s.cls = 1#2 → s.sign = 0#1 → exec .classv s = .next { s.reported 0#3 0#5 with kind := 5#3 }) ∧
    (s.cls = 0#2 →
      ((n = 0 ∨ s.params.dmax < n) → exec .classv s = .next (s.reported 2#3 17#5)) ∧
      (1 ≤ n → n ≤ s.params.dmax →
        ((∃ x ∈ d, 9 < x) → exec .classv s = .next (s.reported 2#3 18#5)) ∧
        ((∀ x ∈ d, x = 0) → s.sign = 1#1 →
          exec .classv s = .next { s.reported 0#3 0#5 with kind := 2#3 }) ∧
        ((∀ x ∈ d, x = 0) → s.sign = 0#1 →
          exec .classv s = .next { s.reported 0#3 0#5 with kind := 3#3 }) ∧
        (AllDigits d → (∃ x ∈ d, x ≠ 0) → s.sign = 1#1 →
          exec .classv s = .next { s.reported 0#3 0#5 with kind := 1#3 }) ∧
        (AllDigits d → (∃ x ∈ d, x ≠ 0) → s.sign = 0#1 →
          exec .classv s = .next { s.reported 0#3 0#5 with kind := 4#3 })))

/-- CLASSK (43_special.md R162, R167): the kind of the key, by its length and its first byte as a number, into
KIND, or EmptyKey, KeyTooLong, UnknownSpecial, BadSign, BadPad, NegZeroExponent; nothing else changes. -/
def Obligations.ClasskGivesTheKind : Prop :=
  ∀ s : State, BlockInv s → ∀ len b, len = s.klen.toNat → b = (s.kbuf.getD 0 0#8).toNat →
    (len = 0 → exec .classk s = .next (s.reported 1#3 1#5)) ∧
    (s.params.kmax < len → exec .classk s = .next (s.reported 1#3 14#5)) ∧
    (len = 1 →
      (b = 0x00 → exec .classk s = .next { s.reported 0#3 0#5 with kind := 0#3 }) ∧
      (b = 0x40 → exec .classk s = .next { s.reported 0#3 0#5 with kind := 2#3 }) ∧
      (b = 0x80 → exec .classk s = .next { s.reported 0#3 0#5 with kind := 3#3 }) ∧
      (b = 0xC0 → exec .classk s = .next { s.reported 0#3 0#5 with kind := 5#3 }) ∧
      (b = 0xE0 → exec .classk s = .next { s.reported 0#3 0#5 with kind := 6#3 }) ∧
      (b ≠ 0x00 → b ≠ 0x40 → b ≠ 0x80 → b ≠ 0xC0 → b ≠ 0xE0 →
        exec .classk s = .next (s.reported 1#3 2#5))) ∧
    (2 ≤ len → len ≤ s.params.kmax →
      ((0x40 ≤ b ∧ b < 0x80 ∨ 0xC0 ≤ b) → exec .classk s = .next (s.reported 1#3 3#5)) ∧
      ((0x20 ≤ b ∧ b < 0x40 ∨ 0xA0 ≤ b ∧ b < 0xC0) →
        exec .classk s = .next (s.reported 1#3 4#5)) ∧
      ((0x10 ≤ b ∧ b ≤ 0x13 ∨ 0x8C ≤ b ∧ b ≤ 0x8F) →
        exec .classk s = .next (s.reported 1#3 5#5)) ∧
      ((b ≤ 0x0F ∨ 0x14 ≤ b ∧ b ≤ 0x1F) →
        exec .classk s = .next { s.reported 0#3 0#5 with kind := 1#3 }) ∧
      ((0x80 ≤ b ∧ b ≤ 0x8B ∨ 0x90 ≤ b ∧ b ≤ 0x9F) →
        exec .classk s = .next { s.reported 0#3 0#5 with kind := 4#3 }))

/-- SPENC (43_special.md R163): the one byte of an infinity, a zero or a NaN; NotSpecial for a finite nonzero
value; BadClass, BadDigitCount and BadDigit as in R165. -/
def Obligations.SpencWritesTheByte : Prop :=
  ∀ s : State, BlockInv s → ∀ n d, n = s.dcnt.toNat → d = (s.dig.take n).map (·.toNat) →
    ∀ out : Byte → State, (∀ b, out b =
      { s.reported 0#3 0#5 with kbuf := s.kbuf.set 0 b, klen := 1#32, cur := 8#32 }) →
    (s.cls = 3#2 → exec .spenc s = .next (s.reported 2#3 16#5)) ∧
    (s.cls = 2#2 → exec .spenc s = .next (out 0xE0#8)) ∧
    (s.cls = 1#2 → s.sign = 1#1 → exec .spenc s = .next (out 0x00#8)) ∧
    (s.cls = 1#2 → s.sign = 0#1 → exec .spenc s = .next (out 0xC0#8)) ∧
    (s.cls = 0#2 →
      ((n = 0 ∨ s.params.dmax < n) → exec .spenc s = .next (s.reported 2#3 17#5)) ∧
      (1 ≤ n → n ≤ s.params.dmax →
        ((∃ x ∈ d, 9 < x) → exec .spenc s = .next (s.reported 2#3 18#5)) ∧
        ((∀ x ∈ d, x = 0) → s.sign = 1#1 → exec .spenc s = .next (out 0x40#8)) ∧
        ((∀ x ∈ d, x = 0) → s.sign = 0#1 → exec .spenc s = .next (out 0x80#8)) ∧
        (AllDigits d → (∃ x ∈ d, x ≠ 0) → exec .spenc s = .next (s.reported 2#3 22#5))))

/-- SPDEC (43_special.md R164, R168): the Decimal Value of each one-byte key; EmptyKey, KeyTooLong, and
UnknownSpecial for any other byte and for any longer key. -/
def Obligations.SpdecReadsTheByte : Prop :=
  ∀ s : State, BlockInv s → ∀ len b, len = s.klen.toNat → b = (s.kbuf.getD 0 0#8).toNat →
    ∀ out : BitVec 1 → BitVec 2 → Word → State, (∀ sg c n, out sg c n =
      { s.reported 0#3 0#5 with sign := sg, cls := c, exp := 0#32, dcnt := n, cur := 8#32 }) →
    (len = 0 → exec .spdec s = .next (s.reported 1#3 1#5)) ∧
    (s.params.kmax < len → exec .spdec s = .next (s.reported 1#3 14#5)) ∧
    (2 ≤ len → len ≤ s.params.kmax → exec .spdec s = .next (s.reported 1#3 2#5)) ∧
    (len = 1 →
      (b = 0x00 → exec .spdec s = .next (out 1#1 1#2 0#32)) ∧
      (b = 0x40 → exec .spdec s = .next { out 1#1 0#2 1#32 with dig := s.dig.set 0 0#4 }) ∧
      (b = 0x80 → exec .spdec s = .next { out 0#1 0#2 1#32 with dig := s.dig.set 0 0#4 }) ∧
      (b = 0xC0 → exec .spdec s = .next (out 0#1 1#2 0#32)) ∧
      (b = 0xE0 → exec .spdec s = .next (out 0#1 2#2 0#32)) ∧
      (b ≠ 0x00 → b ≠ 0x40 → b ≠ 0x80 → b ≠ 0xC0 → b ≠ 0xE0 →
        exec .spdec s = .next (s.reported 1#3 2#5)))

/-! ## The Orchestrator -/

/-- ENCODE of a special value (44_orchestrator.md R180, source step 1; R71): its one byte, KLEN 1, CUR 8, nothing
else changed; and of a value that is none: BadClass, BadDigitCount, BadDigit. -/
def Obligations.EncodeWritesSpecialKeys : Prop :=
  ∀ s : State, BlockInv s → ∀ n d, n = s.dcnt.toNat → d = (s.dig.take n).map (·.toNat) →
    ∀ out : Byte → State, (∀ b, out b =
      { s.reported 0#3 0#5 with kbuf := s.kbuf.set 0 b, klen := 1#32, cur := 8#32 }) →
    (s.cls = 3#2 → exec .encode s = .next (s.reported 2#3 16#5)) ∧
    (s.cls = 2#2 → exec .encode s = .next (out 0xE0#8)) ∧
    (s.cls = 1#2 → s.sign = 1#1 → exec .encode s = .next (out 0x00#8)) ∧
    (s.cls = 1#2 → s.sign = 0#1 → exec .encode s = .next (out 0xC0#8)) ∧
    (s.cls = 0#2 →
      ((n = 0 ∨ s.params.dmax < n) → exec .encode s = .next (s.reported 2#3 17#5)) ∧
      (1 ≤ n → n ≤ s.params.dmax →
        ((∃ x ∈ d, 9 < x) → exec .encode s = .next (s.reported 2#3 18#5)) ∧
        ((∀ x ∈ d, x = 0) → s.sign = 1#1 → exec .encode s = .next (out 0x40#8)) ∧
        ((∀ x ∈ d, x = 0) → s.sign = 0#1 → exec .encode s = .next (out 0x80#8))))

/-- ENCODE of a finite nonzero value (44_orchestrator.md R180 to R183, 30_encoding.md R72): on an encodable value the
key is the bits of R72 and fewer than 8 zeros; CUR, EMAG, TBIT and NBITS are what R180 says; bytes above
the key, the value registers and everything else but STATUS, DETAIL and the hidden SCR are as before.
Otherwise LeadingZero, ExponentOutOfRange, TrailingZeroGroup, in that order. -/
def Obligations.EncodeWritesFiniteKeys : Prop :=
  ∀ s : State, BlockInv s → ∀ n d neg adj, n = s.dcnt.toNat → d = (s.dig.take n).map (·.toNat) →
    neg = decide (s.sign = 1#1) → adj = s.exp.toInt + n - 1 →
    s.cls = 0#2 → 1 ≤ n → n ≤ s.params.dmax → AllDigits d → (∃ x ∈ d, x ≠ 0) →
    (d.head? ≠ some 0 → adj.natAbs ≤ s.params.elim → lastGroupZero (pad d) = false →
      ∃ (k' : List Byte) (len' tail : Nat) (scr' : List Cell4),
        tail ≤ 7 ∧ (keyBits neg (pad d) adj).length + tail = 8 * len' ∧ len' ≤ s.params.kmax ∧
        k'.length = s.kbuf.length ∧ scr'.length = s.scr.length ∧
        readBits k' 0 (8 * len') = keyBits neg (pad d) adj ++ List.replicate tail false ∧
        (∀ i, len' ≤ i → k'.getD i 0#8 = s.kbuf.getD i 0#8) ∧
        exec .encode s = .next { s.reported 0#3 0#5 with
          kbuf := k', klen := BitVec.ofNat 32 len',
          cur := BitVec.ofNat 32 (keyBits neg (pad d) adj).length,
          emag := BitVec.ofNat 32 adj.natAbs,
          tbit := BitVec.ofBool (if neg then decide (adj < 0) else decide (0 ≤ adj)),
          nbits := BitVec.ofNat 6 (bitlen (adj.natAbs + 2)), scr := scr' }) ∧
    (d.head? = some 0 → exec .encode s = .next (s.reported 2#3 19#5)) ∧
    (d.head? ≠ some 0 → s.params.elim < adj.natAbs →
      exec .encode s = .next (s.reported 2#3 20#5)) ∧
    (d.head? ≠ some 0 → adj.natAbs ≤ s.params.elim → lastGroupZero (pad d) = true →
      exec .encode s = .next (s.reported 2#3 21#5))

/-- The stream of a finite nonzero key, field by field (30_encoding.md R72 to R77): sign, pad, T (which says
`adjExp`'s sign as R75 has it), `N - 2` more bits of the run, the terminator, the payload, the declets. -/
def Obligations.KeyBitsAreTheFields : Prop :=
  ∀ (neg : Bool) (d : List Nat) (adj : Int) (t : Bool) (n : Nat), d.length % 3 = 0 →
    (t = true ↔ (neg = true ∧ adj < 0) ∨ (neg = false ∧ 0 ≤ adj)) → n = bitlen (adj.natAbs + 2) →
    keyBits neg d adj = [!neg, false, false, t] ++ List.replicate (n - 2) t ++ [!t] ++
      (bitsOf (n - 1) (adj.natAbs + 2)).map (fun b => b == t) ++ sigbits d neg ∧
    (sigbits d neg).length = 10 * (d.length / 3) ∧
    (keyBits neg d adj).length = 2 * n + 2 + 10 * (d.length / 3)

/-- DECODE (44_orchestrator.md R186) on the key of a special value (R168), and the faults the length and the first
byte decide (43_special.md R167). -/
def Obligations.DecodeReadsSpecialKeys : Prop :=
  ∀ s : State, BlockInv s → ∀ len b, len = s.klen.toNat → b = (s.kbuf.getD 0 0#8).toNat →
    ∀ out : BitVec 1 → BitVec 2 → Word → State, (∀ sg c n, out sg c n =
      { s.reported 0#3 0#5 with sign := sg, cls := c, exp := 0#32, dcnt := n, cur := 8#32 }) →
    (len = 0 → exec .decode s = .next (s.reported 1#3 1#5)) ∧
    (s.params.kmax < len → exec .decode s = .next (s.reported 1#3 14#5)) ∧
    (len = 1 →
      (b = 0x00 → exec .decode s = .next (out 1#1 1#2 0#32)) ∧
      (b = 0x40 → exec .decode s = .next { out 1#1 0#2 1#32 with dig := s.dig.set 0 0#4 }) ∧
      (b = 0x80 → exec .decode s = .next { out 0#1 0#2 1#32 with dig := s.dig.set 0 0#4 }) ∧
      (b = 0xC0 → exec .decode s = .next (out 0#1 1#2 0#32)) ∧
      (b = 0xE0 → exec .decode s = .next (out 0#1 2#2 0#32)) ∧
      (b ≠ 0x00 → b ≠ 0x40 → b ≠ 0x80 → b ≠ 0xC0 → b ≠ 0xE0 →
        exec .decode s = .next (s.reported 1#3 2#5))) ∧
    (2 ≤ len → len ≤ s.params.kmax →
      ((0x40 ≤ b ∧ b < 0x80 ∨ 0xC0 ≤ b) → exec .decode s = .next (s.reported 1#3 3#5)) ∧
      ((0x20 ≤ b ∧ b < 0x40 ∨ 0xA0 ≤ b ∧ b < 0xC0) →
        exec .decode s = .next (s.reported 1#3 4#5)) ∧
      ((0x10 ≤ b ∧ b ≤ 0x13 ∨ 0x8C ≤ b ∧ b ≤ 0x8F) →
        exec .decode s = .next (s.reported 1#3 5#5)))

/-- DECODE (44_orchestrator.md R186, R189) on the key of a finite nonzero value: where the key is the bits of R72 for
a sign, a canonical padded coefficient and an adjusted exponent within ELIM, and fewer than 8 zeros, it
gives that sign, that coefficient, and the exponent `adjExp - digitCount + 1`; KBUF, KLEN, cells of DIG
above the coefficient and everything else but STATUS, DETAIL and the hidden SCR are as before. -/
def Obligations.DecodeReadsFiniteKeys : Prop :=
  ∀ (s : State) (neg : Bool) (d : List Nat) (adj : Int) (tail : Nat), BlockInv s →
    Canonical s.params d → adj.natAbs ≤ s.params.elim → tail ≤ 7 → s.klen.toNat ≤ s.params.kmax →
    (keyBits neg d adj).length + tail = 8 * s.klen.toNat →
    readBits s.kbuf 0 (8 * s.klen.toNat) = keyBits neg d adj ++ List.replicate tail false →
    ∃ (dig' scr' : List Cell4),
      dig'.length = s.dig.length ∧ scr'.length = s.scr.length ∧
      (∀ i, i < d.length → (dig'.getD i 0#4).toNat = d.getD i 0) ∧
      (∀ i, d.length ≤ i → dig'.getD i 0#4 = s.dig.getD i 0#4) ∧
      (BitVec.ofInt 32 (adj - d.length + 1)).toInt = adj - d.length + 1 ∧
      exec .decode s = .next { s.reported 0#3 0#5 with
        sign := BitVec.ofBool neg, cls := 0#2, exp := BitVec.ofInt 32 (adj - d.length + 1),
        dig := dig', dcnt := BitVec.ofNat 32 d.length, scr := scr',
        emag := BitVec.ofNat 32 adj.natAbs, tbit := BitVec.ofBool (signIndicator neg adj),
        nbits := BitVec.ofNat 6 (bitlen (adj.natAbs + 2)),
        cur := BitVec.ofNat 32 (8 * s.klen.toNat) }

/-- DECODE of a key of two or more bytes with a valid first byte faults as the component decoders do
(44_orchestrator.md R186, 60_exceptions.md R216): what the exponent decoder raises at stream bit 4, else what
the significand decoder raises after it, and nothing but STATUS and DETAIL changes. -/
def Obligations.DecodeFaultsAsItsComponents : Prop :=
  ∀ s : State, BlockInv s → ∀ b neg t, b = (s.kbuf.getD 0 0#8).toNat → 2 ≤ s.klen.toNat →
    s.klen.toNat ≤ s.params.kmax →
    (neg = true ∧ (b ≤ 0x0F ∨ 0x14 ≤ b ∧ b ≤ 0x1F) ∨
      neg = false ∧ (0x80 ≤ b ∧ b ≤ 0x8B ∨ 0x90 ≤ b ∧ b ≤ 0x9F)) →
    t = getbit s.kbuf 3 →
    (∀ dd, expdec s.params s.kbuf s.klen.toNat 4 t = .error dd →
      exec .decode s = .next (s.reported 1#3 dd.code)) ∧
    (∀ f dd, expdec s.params s.kbuf s.klen.toNat 4 t = .ok f →
      sigdec s.params s.kbuf s.klen.toNat f.off neg = .error dd →
      exec .decode s = .next (s.reported 1#3 dd.code)) ∧
    (∀ f c, expdec s.params s.kbuf s.klen.toNat 4 t = .ok f →
      sigdec s.params s.kbuf s.klen.toNat f.off neg = .ok c →
      ∃ u, exec .decode s = .next u ∧ u.status = 0#3)

/-! ## The key rows -/

/-- The rows of format KEY1 (30_encoding.md R71, 43_special.md R168): what a one-byte key decodes to. That a row runs
as DECODE does on its key is the model's reading (notes/assumptions/6.md). -/
def Obligations.SpecialKeyRowsDecode : Prop :=
  ∀ (s : State) (out : BitVec 1 → BitVec 2 → Word → State), (∀ sg c n, out sg c n =
      { s.reported 0#3 0#5 with sign := sg, cls := c, exp := 0#32, dcnt := n, cur := 8#32 }) →
    exec .keyNegInf s = .next (out 1#1 1#2 0#32) ∧
    exec .keyNegZero s = .next { out 1#1 0#2 1#32 with dig := s.dig.set 0 0#4 } ∧
    exec .keyPosZero s = .next { out 0#1 0#2 1#32 with dig := s.dig.set 0 0#4 } ∧
    exec .keyPosInf s = .next (out 0#1 1#2 0#32) ∧
    exec .keyNan s = .next (out 0#1 2#2 0#32)

/-- The rows of invalid first bytes (30_encoding.md R73, 44_orchestrator.md R187, R188): NegZeroExponent, BadSign,
BadPad. That a row runs as DECODE does on its key is the model's reading (notes/assumptions/6.md). -/
def Obligations.InvalidKeyRowsFault : Prop :=
  ∀ s : State,
    (∀ x, exec (.keyInvalidNeg x) s = .next (s.reported 1#3 5#5)) ∧
    (∀ x, exec (.keyInvalidPos x) s = .next (s.reported 1#3 5#5)) ∧
    (∀ x, exec (.keyInvalidSign01 x) s = .next (s.reported 1#3 3#5)) ∧
    (∀ x, exec (.keyInvalidSign11 x) s = .next (s.reported 1#3 3#5)) ∧
    (∀ x, exec (.keyInvalidPadNeg x) s = .next (s.reported 1#3 4#5)) ∧
    (∀ x, exec (.keyInvalidPadPos x) s = .next (s.reported 1#3 4#5))

/-- The two finite rows (30_encoding.md R72, R79): with the row's byte as the key's first byte and KBUF[1] on as the
rest, the key of a sign, a canonical padded coefficient and an adjusted exponent decodes to them. That a row
runs as DECODE does on its key is the model's reading (notes/assumptions/6.md). -/
def Obligations.FiniteKeyRowsDecode : Prop :=
  ∀ (s : State) (neg : Bool) (t : BitVec 1) (x : BitVec 4) (b0 : Byte) (d : List Nat) (adj : Int)
    (tail : Nat), BlockInv s →
    b0 = (if neg then (0b000#3 ++ t ++ x) else (0b100#3 ++ t ++ x)) →
    Canonical s.params d → adj.natAbs ≤ s.params.elim → tail ≤ 7 → s.klen.toNat ≤ s.params.kmax →
    (keyBits neg d adj).length + tail = 8 * s.klen.toNat →
    readBits (s.kbuf.set 0 b0) 0 (8 * s.klen.toNat) =
      keyBits neg d adj ++ List.replicate tail false →
    ∃ (dig' scr' : List Cell4),
      dig'.length = s.dig.length ∧ scr'.length = s.scr.length ∧
      (∀ i, i < d.length → (dig'.getD i 0#4).toNat = d.getD i 0) ∧
      (∀ i, d.length ≤ i → dig'.getD i 0#4 = s.dig.getD i 0#4) ∧
      exec (if neg then .keyNegFinite t x else .keyPosFinite t x) s =
        .next { s.reported 0#3 0#5 with
          sign := BitVec.ofBool neg, cls := 0#2, exp := BitVec.ofInt 32 (adj - d.length + 1),
          dig := dig', dcnt := BitVec.ofNat 32 d.length, scr := scr',
          emag := BitVec.ofNat 32 adj.natAbs, tbit := BitVec.ofBool (signIndicator neg adj),
          nbits := BitVec.ofNat 6 (bitlen (adj.natAbs + 2)),
          cur := BitVec.ofNat 32 (8 * s.klen.toNat) }

/-- DECODE is the row the decoder reads from the key's length and first byte, and EmptyKey or UnknownSpecial
where it reads none (30_encoding.md R70, R79; 44_orchestrator.md R186). -/
def Obligations.DecodeRunsItsKeyRow : Prop :=
  ∀ s : State, BlockInv s → s.klen.toNat ≤ s.params.kmax →
    (∀ i, decode (.key s.klen.toNat (s.kbuf.getD 0 0#8)) = .ok i → exec .decode s = exec i s) ∧
    (decode (.key s.klen.toNat (s.kbuf.getD 0 0#8)) = .error .emptyKey →
      exec .decode s = .next (s.reported 1#3 1#5)) ∧
    (decode (.key s.klen.toNat (s.kbuf.getD 0 0#8)) = .error .unknownSpecial →
      exec .decode s = .next (s.reported 1#3 2#5))

/-! ## The whole machine -/

/-- Fault entry (60_exceptions.md R218): whatever an operation is, if it ends with a STATUS other than OK then it
has changed STATUS and DETAIL and nothing else; if it ends with OK then DETAIL is 0. -/
def Obligations.FaultsChangeOnlyStatusAndDetail : Prop :=
  ∀ (i : Instr) (s : State), i.isCommand = true → ∃ t, exec i s = .next t ∧
    (t.status ≠ 0#3 → t = s.reported t.status t.detail) ∧ (t.status = 0#3 → t.detail = 0#5)

/-- No operation reads STATUS or DETAIL, and every operation writes both (10_state.md R39, 60_exceptions.md R219). -/
def Obligations.NoOperationReadsStatus : Prop :=
  ∀ (i : Instr) (s : State) (a : BitVec 3) (b : BitVec 5), i.isCommand = true →
    exec i { s with status := a, detail := b } = exec i s

/-- No operation reads a cell of DIG at or above DCNT, a byte of KBUF at or above KLEN, or what an earlier
operation left in SCR (10_state.md R33, R34, R38; 70_reset_and_hazards.md R246): two states that differ
only there end in states that differ only there. -/
def Obligations.StaleCellsNeverReachAResult : Prop :=
  ∀ (i : Instr) (s s' t t' : State), i.isCommand = true → BlockInv s → BlockInv s' → SameButStale s s' →
    exec i s = .next t → exec i s' = .next t' → SameButStale t t'

/-- An encode never writes its input and a decode never writes its input (20_memory.md R63). -/
def Obligations.InputsAreNeverWritten : Prop :=
  ∀ (i : Instr) (s t : State), exec i s = .next t →
    (i = .encode ∨ i = .expenc ∨ i = .sigenc ∨ i = .spenc →
      t.sign = s.sign ∧ t.cls = s.cls ∧ t.exp = s.exp ∧ t.dcnt = s.dcnt ∧ t.dig = s.dig) ∧
    (i = .decode ∨ i = .expdec ∨ i = .sigdec ∨ i = .spdec → t.kbuf = s.kbuf ∧ t.klen = s.klen)

/-- Which kind of fault an operation can raise (60_exceptions.md R210, R214): the decoders and readers
InvalidEncoding, the encoders and classifier of values UnsupportedValue, PACK BufferTooSmall, EXPENC and
SIGENC UnsupportedValue or BufferTooSmall; PACK and UNPACK IllegalCommand for their width. ENCODE and SPENC
never raise BufferTooSmall. -/
def Obligations.OperationsRaiseOnlyTheirStatus : Prop :=
  ∀ (i : Instr) (s t : State), exec i s = .next t →
    (i = .decode ∨ i = .expdec ∨ i = .sigdec ∨ i = .classk ∨ i = .spdec →
      t.status = 0#3 ∨ t.status = 1#3) ∧
    (i = .encode ∨ i = .classv ∨ i = .spenc → t.status = 0#3 ∨ t.status = 2#3) ∧
    (i = .expenc ∨ i = .sigenc → t.status = 0#3 ∨ t.status = 2#3 ∨ t.status = 3#3) ∧
    ((∃ n b, i = .pack n b) → t.status = 0#3 ∨ t.status = 3#3 ∨ t.status = 4#3) ∧
    ((∃ n, i = .unpack n) → t.status = 0#3 ∨ t.status = 1#3 ∨ t.status = 4#3)

/-- Every step keeps the invariant: legal parameters, buffers of their sizes, no register with a code that is
never written (10_state.md R26, 60_exceptions.md R210, R211, 93_implementation_defined.md U18). -/
def Obligations.StepKeepsInvariant : Prop :=
  ∀ s t : State, BlockInv s → step s = .next t → BlockInv t ∧ t.params = s.params

/-- A state that meets the invariant always has a next state: nothing stops the block (60_exceptions.md R218,
R221). -/
def Obligations.InvariantStatesAlwaysStep : Prop := ∀ s : State, BlockInv s → ∃ t, step s = .next t

/-- ENCODE succeeds exactly on the encodable values (44_orchestrator.md R180, 10_state.md R22). -/
def Obligations.EncodeAcceptsExactlyEncodable : Prop :=
  ∀ s : State, BlockInv s → ((∃ t, exec .encode s = .next t ∧ t.status = 0#3) ↔ Encodable s)

/-- Round trip (44_orchestrator.md R195): ENCODE of an encodable value succeeds, DECODE of the key succeeds and gives
the value back: an infinity with its sign; a NaN, positive; the one-digit zero of the same sign; a finite
nonzero value with the same sign, its padded coefficient, and the exponent lowered by the padding. -/
def Obligations.DecodeUndoesEncode : Prop :=
  ∀ s : State, BlockInv s → Encodable s → ∃ t u,
    exec .encode s = .next t ∧ t.status = 0#3 ∧ exec .decode t = .next u ∧ u.status = 0#3 ∧
    (s.cls = 1#2 → u.cls = 1#2 ∧ u.sign = s.sign) ∧
    (s.cls = 2#2 → u.cls = 2#2 ∧ u.sign = 0#1) ∧
    (EncodableZero s → u.cls = 0#2 ∧ u.sign = s.sign ∧ u.coefficient = [0] ∧ u.exp = 0#32) ∧
    (EncodableFinite s → u.cls = 0#2 ∧ u.sign = s.sign ∧ u.coefficient = pad s.coefficient ∧
      u.exp.toInt = s.exp.toInt - ((padlen s.dcnt.toNat : Int) - s.dcnt.toNat) ∧
      u.numeric = s.numeric)

/-- Fixed points (44_orchestrator.md R197): the one-byte keys of the five special values, each decoded back to its
class and sign. -/
def Obligations.SpecialKeysAreFixedPoints : Prop :=
  ∀ s : State, BlockInv s → ∀ (sg : BitVec 1) (c : BitVec 2) (b : Byte),
    s.sign = sg → s.cls = c →
    ((c = 0#2 ∧ EncodableZero s ∧ sg = 0#1 ∧ b = 0x80#8) ∨
     (c = 0#2 ∧ EncodableZero s ∧ sg = 1#1 ∧ b = 0x40#8) ∨
     (c = 1#2 ∧ sg = 0#1 ∧ b = 0xC0#8) ∨ (c = 1#2 ∧ sg = 1#1 ∧ b = 0x00#8) ∨
     (c = 2#2 ∧ b = 0xE0#8)) →
    ∃ t u, exec .encode s = .next t ∧ t.key = [b] ∧ exec .decode t = .next u ∧ u.status = 0#3 ∧
      u.cls = c ∧ u.sign = if c = 2#2 then 0#1 else sg

/-- Re-encoding (44_orchestrator.md R196): what DECODE returns is encodable, and ENCODE of it gives the key it was
decoded from. -/
def Obligations.EncodeUndoesDecode : Prop :=
  ∀ s t : State, BlockInv s → exec .decode s = .next t → t.status = 0#3 →
    Encodable t ∧ ∃ u, exec .encode t = .next u ∧ u.status = 0#3 ∧ u.key = s.key

/-- Canonical keys (44_orchestrator.md R198): DECODE succeeds on a key of 1 to KMAX bytes if and only if ENCODE
produces it for some encodable value. -/
def Obligations.DecodeAcceptsExactlyCanonicalKeys : Prop :=
  ∀ s : State, BlockInv s → 1 ≤ s.klen.toNat → s.klen.toNat ≤ s.params.kmax →
    ((∃ t, exec .decode s = .next t ∧ t.status = 0#3) ↔
      ∃ v w, BlockInv v ∧ v.params = s.params ∧ Encodable v ∧ exec .encode v = .next w ∧
        w.status = 0#3 ∧ w.key = s.key)

/-- Order preservation (44_orchestrator.md R200): keys compare byte by byte as the values do, and two keys are equal
exactly when the values are of one kind and, when finite nonzero, numerically equal. -/
def Obligations.KeysOrderAsValues : Prop :=
  ∀ a b ta tb : State, BlockInv a → BlockInv b → Encodable a → Encodable b →
    exec .encode a = .next ta → exec .encode b = .next tb →
    (ValueLt a b ↔ ta.key < tb.key) ∧ (ta.key = tb.key ↔ ValueEq a b)

/-- The bits of a key do not depend on the parameters (70_reset_and_hazards.md R249): two instances that accept the
same value give it the same key. -/
def Obligations.KeysDoNotDependOnParameters : Prop :=
  ∀ a b ta tb : State, BlockInv a → BlockInv b → a.sign = b.sign → a.cls = b.cls → a.exp = b.exp →
    a.dcnt = b.dcnt → a.coefficient = b.coefficient →
    exec .encode a = .next ta → exec .encode b = .next tb → ta.status = 0#3 → tb.status = 0#3 →
    ta.key = tb.key
end

