-- ==== Sys2Proof/Laws/Bits.lean ====
section
/-! SUPPORT. Bit strings and stream bits: what `bitsOf`, `bitsVal`, `readBits`, `setbit` and `zeroBytes` do. -/

namespace Sys2Proof.Machine

@[simp] theorem bitsOf_length (n v : Nat) : (bitsOf n v).length = n := by
  induction n with
  | zero => rfl
  | succ n ih => simp [bitsOf, ih]

theorem bitsOf_getElem (n v i : Nat) (h : i < (bitsOf n v).length) :
    (bitsOf n v)[i] = v.testBit (n - 1 - i) := by
  induction n generalizing i with
  | zero => simp [bitsOf] at h
  | succ n ih =>
    cases i with
    | zero => simp [bitsOf]
    | succ i =>
      have : n + 1 - 1 - (i + 1) = n - 1 - i := by omega
      simp only [bitsOf, List.getElem_cons_succ, this]
      exact ih i _

/-- Only the `n` low bits matter. -/
theorem bitsOf_mod (n v : Nat) : bitsOf n (v % 2 ^ n) = bitsOf n v := by
  refine List.ext_getElem (by simp) fun i h _ => ?_
  simp only [bitsOf_length] at h
  simp only [bitsOf_getElem, Nat.testBit_mod_two_pow]
  simp; omega

theorem bitsVal_foldl (b : List Bool) (a : Nat) :
    b.foldl (fun v x => 2 * v + x.toNat) a = a * 2 ^ b.length + bitsVal b := by
  induction b generalizing a with
  | nil => simp [bitsVal]
  | cons x b ih =>
    simp only [bitsVal, List.foldl_cons, List.length_cons]
    rw [ih, ih (2 * 0 + x.toNat)]
    ring

@[simp] theorem bitsVal_nil : bitsVal [] = 0 := rfl

theorem bitsVal_cons (x : Bool) (b : List Bool) :
    bitsVal (x :: b) = x.toNat * 2 ^ b.length + bitsVal b := by
  simp only [bitsVal, List.foldl_cons]
  rw [bitsVal_foldl]
  simp [bitsVal]

theorem bitsVal_append (a b : List Bool) :
    bitsVal (a ++ b) = bitsVal a * 2 ^ b.length + bitsVal b := by
  induction a with
  | nil => simp
  | cons x a ih => simp only [List.cons_append, bitsVal_cons, ih, List.length_append]; ring

theorem bitsVal_lt (b : List Bool) : bitsVal b < 2 ^ b.length := by
  induction b with
  | nil => simp
  | cons x b ih =>
    rw [bitsVal_cons, List.length_cons, Nat.pow_succ]
    cases x <;> simp <;> omega

theorem bitsVal_bitsOf (n v : Nat) : bitsVal (bitsOf n v) = v % 2 ^ n := by
  induction n with
  | zero => simp [bitsOf, Nat.mod_one]
  | succ n ih =>
    simp only [bitsOf, bitsVal_cons, bitsOf_length, ih]
    rw [Nat.testBit_eq_decide_div_mod_eq, Nat.mod_pow_succ]
    rcases Nat.mod_two_eq_zero_or_one (v / 2 ^ n) with h | h
    · simp [h]
    · simp [h]; omega

/-- A bit string is the bits of its value. -/
theorem bitsOf_bitsVal (b : List Bool) : bitsOf b.length (bitsVal b) = b := by
  induction b with
  | nil => rfl
  | cons x b ih =>
    have hlt := bitsVal_lt b
    simp only [List.length_cons, bitsOf, bitsVal_cons, List.cons.injEq]
    constructor
    · rw [Nat.testBit_eq_decide_div_mod_eq, Nat.add_comm, Nat.add_mul_div_right _ _ (by positivity),
        Nat.div_eq_of_lt hlt]
      cases x <;> simp
    · rw [← bitsOf_mod, Nat.add_comm, Nat.add_mul_mod_self_right, bitsOf_mod, ih]

/-- Two bit strings of one length with one value are equal. -/
theorem bitsVal_injective {a b : List Bool} (hl : a.length = b.length) (h : bitsVal a = bitsVal b) :
    a = b := by
  rw [← bitsOf_bitsVal a, hl, h, bitsOf_bitsVal b]

theorem bitsVal_not (b : List Bool) : bitsVal (b.map (!·)) = 2 ^ b.length - 1 - bitsVal b := by
  induction b with
  | nil => rfl
  | cons x b ih =>
    have h1 := bitsVal_lt b
    simp only [List.map_cons, bitsVal_cons, List.length_map, List.length_cons, ih, Nat.pow_succ]
    cases x <;> simp <;> omega

/-- A number is spelled by zeros exactly when it is 0. -/
theorem bitsVal_eq_zero {b : List Bool} : bitsVal b = 0 ↔ b = List.replicate b.length false := by
  constructor
  · intro h
    refine bitsVal_injective (by simp) ?_
    rw [h]
    generalize b.length = n
    induction n with
    | zero => rfl
    | succ n ih => simp [List.replicate_succ, bitsVal_cons, ← ih]
  · intro h
    rw [h]
    generalize b.length = n
    induction n with
    | zero => rfl
    | succ n ih => simp [List.replicate_succ, bitsVal_cons, ih]

/-- `n1 + n2` bits are the `n1` high bits and then the `n2` low bits (40_cursor.md R106). -/
theorem bitsOf_split (n1 n2 v : Nat) : bitsOf (n1 + n2) v = bitsOf n1 (v / 2 ^ n2) ++ bitsOf n2 v := by
  induction n1 with
  | zero => simp [bitsOf]
  | succ n ih =>
    rw [show n + 1 + n2 = (n + n2) + 1 by omega]
    simp only [bitsOf, List.cons_append, ih, List.cons.injEq, and_true]
    rw [Nat.testBit_div_two_pow]

/-! ## Reading stream bits -/

@[simp] theorem readBits_length (k : List Byte) (off n : Nat) : (readBits k off n).length = n := by
  simp [readBits]

theorem readBits_getElem (k : List Byte) (off n i : Nat) (h : i < (readBits k off n).length) :
    (readBits k off n)[i] = getbit k (off + i) := by
  simp [readBits]

@[simp] theorem readBits_zero (k : List Byte) (off : Nat) : readBits k off 0 = [] := rfl

/-- A reading of `n` bits is `b` exactly when each bit is. -/
theorem readBits_eq_iff {k : List Byte} {off n : Nat} {b : List Bool} (hb : b.length = n) :
    readBits k off n = b ↔ ∀ i, ∀ h : i < n, getbit k (off + i) = b[i]'(by omega) := by
  constructor
  · intro h i hi
    subst h
    rw [readBits_getElem]
  · intro h
    refine List.ext_getElem (by simp [hb]) fun i h1 h2 => ?_
    rw [readBits_getElem]
    exact h i (by simpa using h1)

theorem readBits_add (k : List Byte) (off n m : Nat) :
    readBits k off (n + m) = readBits k off n ++ readBits k (off + n) m := by
  refine List.ext_getElem (by simp) fun i h1 h2 => ?_
  rw [readBits_getElem]
  by_cases h : i < n
  · rw [List.getElem_append_left (by simpa using h), readBits_getElem]
  · rw [List.getElem_append_right (by simpa using h), readBits_getElem]
    simp only [readBits_length]
    congr 1
    omega

theorem readBits_succ (k : List Byte) (off n : Nat) :
    readBits k off (n + 1) = getbit k off :: readBits k (off + 1) n := by
  rw [Nat.add_comm, readBits_add]
  rfl

/-- Two buffers that agree on the bits read give the same reading. -/
theorem readBits_congr {k k' : List Byte} {off n : Nat}
    (h : ∀ j, off ≤ j → j < off + n → getbit k j = getbit k' j) : readBits k off n = readBits k' off n := by
  refine List.ext_getElem (by simp) fun i h1 h2 => ?_
  rw [readBits_getElem, readBits_getElem]
  simp only [readBits_length] at h1
  exact h _ (by omega) (by omega)

/-- A reading of an append falls into a reading of each part. -/
theorem readBits_append_iff {k : List Byte} {off : Nat} {a b : List Bool} {n : Nat}
    (hn : n = a.length + b.length) :
    readBits k off n = a ++ b ↔
      readBits k off a.length = a ∧ readBits k (off + a.length) b.length = b := by
  subst hn
  rw [readBits_add]
  constructor
  · intro h
    exact List.append_inj h (by simp)
  · rintro ⟨h1, h2⟩
    rw [h1, h2]

/-- The number `unpack` reads spells the bits it read. -/
theorem unpack_eq_iff {k : List Byte} {off n v : Nat} (hv : v < 2 ^ n) :
    unpack k off n = v ↔ readBits k off n = bitsOf n v := by
  constructor
  · rintro rfl
    have h := bitsOf_bitsVal (readBits k off n)
    simpa [unpack] using h.symm
  · intro h
    rw [unpack, h, bitsVal_bitsOf, Nat.mod_eq_of_lt hv]

theorem unpack_lt (k : List Byte) (off n : Nat) : unpack k off n < 2 ^ n := by
  simpa [unpack] using bitsVal_lt (readBits k off n)

/-! ## Writing stream bits -/

@[simp] theorem setbit_length (k : List Byte) (s : Nat) (b : Bool) : (setbit k s b).length = k.length := by
  simp [setbit]

theorem setBitIn_getLsbD (x : Byte) (q : Nat) (b : Bool) (i : Nat) (hq : q < 8) (hi : i < 8) :
    (setBitIn x q b).getLsbD i = if i = q then b else x.getLsbD i := by
  interval_cases q <;> interval_cases i <;> cases b <;> simp [setBitIn]

/-- Bytes as their bits. -/
theorem getbit_setbit (k : List Byte) (s j : Nat) (b : Bool) (hs : s / 8 < k.length) :
    getbit (setbit k s b) j = if j = s then b else getbit k j := by
  by_cases hbyte : j / 8 = s / 8
  · have h1 : (setbit k s b).getD (j / 8) 0#8 = setBitIn (k.getD (s / 8) 0#8) (7 - s % 8) b := by
      rw [hbyte]
      simp [setbit, List.getD_eq_getElem?_getD, hs]
    rw [getbit, h1, setBitIn_getLsbD _ _ _ _ (by omega) (by omega)]
    have : (7 - j % 8 = 7 - s % 8) ↔ j = s := by omega
    simp only [this, getbit, hbyte]
  · have h1 : (setbit k s b).getD (j / 8) 0#8 = k.getD (j / 8) 0#8 := by
      simp [setbit, List.getD_eq_getElem?_getD, Ne.symm hbyte]
    rw [getbit, h1, if_neg (by rintro rfl; exact hbyte rfl), getbit]

theorem zeroBytes_spec (k : List Byte) (lo n i : Nat) :
    ((List.range' lo n).foldl (fun k j => k.set j 0#8) k).getD i 0#8 =
      if lo ≤ i ∧ i < lo + n then 0#8 else k.getD i 0#8 := by
  induction n generalizing lo k with
  | zero => simp
  | succ n ih =>
    rw [List.range'_succ, List.foldl_cons, ih]
    by_cases h : lo + 1 ≤ i ∧ i < lo + 1 + n
    · rw [if_pos h, if_pos (by omega)]
    · rw [if_neg h]
      by_cases h' : i = lo
      · subst h'
        rw [if_pos (by omega)]
        simp [List.getD_eq_getElem?_getD, List.getElem?_set]
        split <;> simp
      · rw [if_neg (by omega)]
        simp [List.getD_eq_getElem?_getD, Ne.symm h']

theorem zeroBytes_length_aux (k : List Byte) (l : List Nat) :
    (l.foldl (fun k j => k.set j 0#8) k).length = k.length := by
  induction l generalizing k with
  | nil => rfl
  | cons a l ih => rw [List.foldl_cons, ih]; simp

@[simp] theorem zeroBytes_length (k : List Byte) (lo hi : Nat) : (zeroBytes k lo hi).length = k.length :=
  zeroBytes_length_aux _ _

/-- Bytes `lo` to `hi` are 0 and every other byte is as before (20_memory.md R57). -/
theorem zeroBytes_getD (k : List Byte) (lo hi i : Nat) :
    (zeroBytes k lo hi).getD i 0#8 = if lo ≤ i ∧ i ≤ hi then 0#8 else k.getD i 0#8 := by
  rw [zeroBytes, zeroBytes_spec]
  by_cases h : lo ≤ i ∧ i ≤ hi
  · rw [if_pos h, if_pos (by omega)]
  · rw [if_neg h, if_neg (by omega)]

theorem getbit_zeroBytes (k : List Byte) (lo hi j : Nat) :
    getbit (zeroBytes k lo hi) j = if lo ≤ j / 8 ∧ j / 8 ≤ hi then false else getbit k j := by
  rw [getbit, zeroBytes_getD]
  split <;> simp [getbit]

/-- Bytes are equal when their stream bits are. -/
theorem getD_eq_of_getbit {k k' : List Byte} (i : Nat)
    (h : ∀ q, q < 8 → getbit k (8 * i + q) = getbit k' (8 * i + q)) : k.getD i 0#8 = k'.getD i 0#8 := by
  refine BitVec.eq_of_getLsbD_eq fun q hq => ?_
  have := h (7 - q) (by omega)
  simp only [getbit] at this
  rw [show (8 * i + (7 - q)) / 8 = i by omega, show 7 - (8 * i + (7 - q)) % 8 = q by omega] at this
  exact this

theorem getbit_of_getD {k k' : List Byte} {j : Nat} (h : k.getD (j / 8) 0#8 = k'.getD (j / 8) 0#8) :
    getbit k j = getbit k' j := by
  rw [getbit, h, getbit]

end Sys2Proof.Machine
end

