-- ==== Sys2Proof/Laws/Cursor.lean ====
section
/-! SUPPORT. What packing bits at a cursor can do, said once (40_cursor.md R100, R106). -/

namespace Sys2Proof.Machine

@[simp] theorem packBits_nil (st : KeyStream) : st.packBits [] = st := rfl

theorem packBits_cons (st : KeyStream) (b : Bool) (bs : List Bool) :
    st.packBits (b :: bs) = (st.packBit b).packBits bs := rfl

/-- The split law: packing `a ++ b` is packing `a` and then `b` (R106). -/
theorem packBits_append (st : KeyStream) (a b : List Bool) :
    st.packBits (a ++ b) = (st.packBits a).packBits b := by
  simp [KeyStream.packBits]

@[simp] theorem packBit_off (st : KeyStream) (b : Bool) : (st.packBit b).off = st.off + 1 := by
  simp only [KeyStream.packBit, KeyStream.allocate]
  split <;> rfl

@[simp] theorem packBit_k_length (st : KeyStream) (b : Bool) : (st.packBit b).k.length = st.k.length := by
  simp only [KeyStream.packBit, KeyStream.allocate]
  split <;> simp

theorem packBit_len (st : KeyStream) (b : Bool) : (st.packBit b).len = max st.len (st.off / 8 + 1) := by
  simp only [KeyStream.packBit, KeyStream.allocate]
  split
  · show st.off / 8 + 1 = _
    omega
  · show st.len = _
    omega

@[simp] theorem packBits_off (st : KeyStream) (bs : List Bool) :
    (st.packBits bs).off = st.off + bs.length := by
  induction bs generalizing st with
  | nil => rfl
  | cons b bs ih => rw [packBits_cons, ih, packBit_off, List.length_cons]; omega

@[simp] theorem packBits_k_length (st : KeyStream) (bs : List Bool) :
    (st.packBits bs).k.length = st.k.length := by
  induction bs generalizing st with
  | nil => rfl
  | cons b bs ih => rw [packBits_cons, ih, packBit_k_length]

/-- One turn of pack's loop. -/
theorem packBit_packedAt (st : KeyStream) (b : Bool) (h : st.off + 1 ≤ 8 * st.k.length) :
    PackedAt st.k st.len st.off [b] (st.packBit b).k (st.packBit b).len := by
  have hp : st.off / 8 < st.k.length := by omega
  have hbit : ∀ j, getbit (st.packBit b).k j =
      if j = st.off then b
      else if st.len ≤ j / 8 ∧ j / 8 ≤ st.off / 8 then false else getbit st.k j := by
    intro j
    simp only [KeyStream.packBit, KeyStream.allocate]
    split
    · rw [getbit_setbit _ _ _ _ (by simpa using hp), getbit_zeroBytes]
    · rw [getbit_setbit _ _ _ _ hp]
      have : ¬(st.len ≤ j / 8 ∧ j / 8 ≤ st.off / 8) := by omega
      simp [this]
  have hlen := packBit_len st b
  refine ⟨packBit_k_length st b, ?_, ?_, ?_, ?_, ?_⟩
  · simp [hlen]
  · simp [readBits_succ, hbit]
  · intro j hj hl
    simp only [List.length_singleton] at hj
    rw [hbit, if_neg (by omega), if_neg (by omega)]
  · intro j hj hl hl'
    simp only [List.length_singleton] at hj
    rw [hbit, if_neg (by omega), if_pos (by omega)]
  · intro i hi
    refine getD_eq_of_getbit i fun q hq => ?_
    rw [hbit, if_neg (by omega), if_neg (by omega)]

/-- Packing two bit strings, one after the other. -/
theorem PackedAt.trans {k k1 k2 : List Byte} {len len1 len2 off : Nat} {a b : List Bool}
    (h1 : PackedAt k len off a k1 len1) (h2 : PackedAt k1 len1 (off + a.length) b k2 len2) :
    PackedAt k len off (a ++ b) k2 len2 := by
  obtain ⟨s1, g1, w1, k1', f1, a1⟩ := h1
  obtain ⟨s2, g2, w2, k2', f2, a2⟩ := h2
  have hl1 : len ≤ len1 := by rw [g1]; split <;> omega
  have hl2 : len1 ≤ len2 := by rw [g2]; split <;> omega
  have ha : ∀ x : Bool, ∀ l : List Bool, a = x :: l → off + a.length ≤ 8 * len1 := by
    rintro x l rfl
    rw [g1, if_neg (by simp)]
    simp only [List.length_cons]
    omega
  have hcov : a = [] ∨ off + a.length ≤ 8 * len1 := by
    rcases a with _ | ⟨x, l⟩
    · exact .inl rfl
    · exact .inr (ha x l rfl)
  refine ⟨s2.trans s1, ?_, ?_, ?_, ?_, ?_⟩
  · rcases a with _ | ⟨x, l⟩
    · simp only [List.nil_append, List.length_nil, Nat.add_zero, if_true] at g1 g2 ⊢
      rw [g2, g1]
    · rcases b with _ | ⟨y, m⟩
      · simpa [g2] using g1
      · rw [g2, g1]
        simp only [List.cons_append, List.cons_ne_nil, if_false, List.length_cons, List.length_append]
        omega
  · rw [readBits_append_iff (by simp)]
    refine ⟨?_, w2⟩
    rw [← w1]
    simp only [readBits_length]
    refine readBits_congr fun j hj1 hj2 => ?_
    rcases hcov with rfl | hcov
    · simp at hj2; omega
    · exact k2' j (.inl hj2) (by omega)
  · intro j hj hl
    simp only [List.length_append] at hj
    rw [k2' j (by omega) (by omega), k1' j (by omega) hl]
  · intro j hj hl hl'
    simp only [List.length_append] at hj
    by_cases hj1 : j < 8 * len1
    · rw [k2' j (by omega) hj1, f1 j (by omega) hl hj1]
    · exact f2 j (by omega) (by omega) hl'
  · intro i hi
    rw [a2 i hi, a1 i (by omega)]

/-- WHAT PACK DOES (R100): within the buffer, the bits stand at the cursor and nothing else of the key has
changed. -/
theorem packBits_packedAt (st : KeyStream) (bs : List Bool) (h : st.off + bs.length ≤ 8 * st.k.length) :
    PackedAt st.k st.len st.off bs (st.packBits bs).k (st.packBits bs).len := by
  induction bs generalizing st with
  | nil =>
    exact ⟨rfl, rfl, rfl, fun _ _ _ => rfl, fun _ _ h1 h2 => absurd h2 (Nat.not_lt.mpr h1), fun _ _ => rfl⟩
  | cons b bs ih =>
    simp only [List.length_cons] at h
    have h2 := ih (st.packBit b) (by simp; omega)
    rw [packBit_off] at h2
    exact (packBit_packedAt st b (by omega)).trans h2

/-- The length of the key after packing at least one bit. -/
theorem packBits_len (st : KeyStream) (bs : List Bool) :
    (st.packBits bs).len = if bs = [] then st.len else max st.len ((st.off + bs.length - 1) / 8 + 1) := by
  induction bs generalizing st with
  | nil => rfl
  | cons b bs ih =>
    rw [packBits_cons, ih, packBit_len, packBit_off, if_neg (List.cons_ne_nil b bs)]
    rcases bs with _ | ⟨c, bs⟩
    · simp
    · simp only [List.length_cons, if_neg (List.cons_ne_nil c bs)]; omega

end Sys2Proof.Machine
end

