-- ==== Sys2Proof/Laws/Exponent.lean ====
section
/-! SUPPORT. What the exponent field is and what the exponent decoder can do, said once (41_exponent.md). -/

namespace Sys2Proof.Machine

theorem bitlen_pow_le {x : Nat} (h : x ≠ 0) : 2 ^ (bitlen x - 1) ≤ x := by
  simpa [bitlen] using Nat.log2_self_le h

theorem lt_pow_bitlen (x : Nat) : x < 2 ^ bitlen x := Nat.lt_log2_self

/-- The bit length is the one `n` with `2^(n-1) <= x < 2^n`. -/
theorem bitlen_eq {x n : Nat} (h1 : 2 ^ n ≤ x) (h2 : x < 2 ^ (n + 1)) : bitlen x = n + 1 := by
  have hx : x ≠ 0 := by have := Nat.two_pow_pos n; omega
  have := (Nat.log2_eq_iff hx).mpr ⟨h1, h2⟩
  simp [bitlen, this]

theorem expN_ge (e : Nat) : 2 ≤ expN e := by
  have := lt_pow_bitlen (e + 2)
  by_contra h
  have h1 : bitlen (e + 2) ≤ 1 := by simp only [expN] at h; omega
  have := Nat.pow_le_pow_right (show 0 < 2 by decide) h1
  omega

theorem pow_le_of_expN (e : Nat) : 2 ^ (expN e - 1) ≤ e + 2 := bitlen_pow_le (by omega)

theorem lt_pow_expN (e : Nat) : e + 2 < 2 ^ expN e := lt_pow_bitlen _

/-- A larger bit length is a larger number. -/
theorem expN_mono {a b : Nat} (h : a ≤ b) : expN a ≤ expN b := by
  have h1 := pow_le_of_expN a
  have h2 := lt_pow_expN b
  have : 2 ^ (expN a - 1) < 2 ^ expN b := by omega
  have := (Nat.pow_lt_pow_iff_right (by decide)).mp this
  omega

/-- An `E` within a bound of `M` bits has `N <= M + 1` (00_scope.md R9). -/
theorem expN_le_of_le {e m : Nat} (hm : 2 ≤ m) (h : e ≤ 2 ^ m - 1) : expN e ≤ m + 1 := by
  have h1 := pow_le_of_expN e
  have h2 : 4 ≤ 2 ^ m := by
    calc 4 = 2 ^ 2 := rfl
      _ ≤ 2 ^ m := Nat.pow_le_pow_right (by decide) hm
  have h3 : 2 ^ (expN e - 1) < 2 ^ (m + 1) := by rw [Nat.pow_succ]; omega
  have := (Nat.pow_lt_pow_iff_right (by decide)).mp h3
  omega

/-- The field with its complement spelled out: the run of T, the other bit, and the payload, each of whose
bits says whether the bit of E' is T (R120, 30_encoding.md R76). -/
theorem expfield_eq (e : Nat) (t : Bool) :
    expfield e t = List.replicate (expN e - 1) t ++
      (!t) :: (bitsOf (expN e - 1) (e + 2)).map (fun b => b == t) := by
  cases t
  · simp [expfield, List.map_replicate]
  · simp [expfield]

theorem expfield_cons (e : Nat) (t : Bool) :
    expfield e t = t :: (List.replicate (expN e - 2) t ++
      (!t) :: (bitsOf (expN e - 1) (e + 2)).map (fun b => b == t)) := by
  have := expN_ge e
  rw [expfield_eq, show expN e - 1 = (expN e - 2) + 1 by omega, List.replicate_succ]
  rfl

theorem expfield_tail (e : Nat) (t : Bool) :
    (expfield e t).tail = List.replicate (expN e - 2) t ++
      (!t) :: (bitsOf (expN e - 1) (e + 2)).map (fun b => b == t) := by
  rw [expfield_cons]; rfl

@[simp] theorem expfield_length (e : Nat) (t : Bool) : (expfield e t).length = 2 * expN e - 1 := by
  have := expN_ge e
  rw [expfield_eq]
  simp
  omega

theorem expfield_tail_length (e : Nat) (t : Bool) :
    (expfield e t).tail.length = 2 * expN e - 2 := by
  rw [List.length_tail, expfield_length]; omega

/-! ## The scan -/

/-- The run ends at a bit other than T within the room there is. -/
theorem scanRun_ok {k : List Byte} {len : Nat} {t : Bool} {room r off run : Nat} (hr : r ≤ room)
    (hrun : ∀ j, off ≤ j → j < off + r → getbit k j = t) (hend : off + r < 8 * len)
    (hterm : getbit k (off + r) = !t) :
    scanRun k len t room off run = .ok (run + r, off + r + 1) := by
  induction r generalizing room off run with
  | zero =>
    simp only [Nat.add_zero] at hend hterm ⊢
    cases room <;> simp [scanRun, hterm, Nat.not_le.mpr hend]
  | succ r ih =>
    obtain ⟨room, rfl⟩ : ∃ m, room = m + 1 := ⟨room - 1, by omega⟩
    have h0 := hrun off (by omega) (by omega)
    rw [scanRun, if_neg (by omega), if_pos h0, ih (by omega) (fun j h1 h2 => hrun j (by omega) (by omega))
      (by omega) (by rw [← hterm]; congr 1; omega)]
    congr 2 <;> omega

/-- The key ends while the run may still go on. -/
theorem scanRun_truncated {k : List Byte} {len : Nat} {t : Bool} {room off run : Nat}
    (hlen : 8 * len ≤ off + room) (hrun : ∀ j, off ≤ j → j < 8 * len → getbit k j = t) :
    scanRun k len t room off run = .error .truncated := by
  induction room generalizing off run with
  | zero => rw [scanRun, if_pos (by omega)]
  | succ room ih =>
    rw [scanRun]
    split
    · rfl
    · rw [if_pos (hrun off (by omega) (by omega)), ih (by omega) (fun j h1 h2 => hrun j (by omega) h2)]

/-- The run is longer than the room there is. -/
theorem scanRun_tooLong {k : List Byte} {len : Nat} {t : Bool} {room off run : Nat}
    (hlen : off + room < 8 * len) (hrun : ∀ j, off ≤ j → j ≤ off + room → getbit k j = t) :
    scanRun k len t room off run = .error .runTooLong := by
  induction room generalizing off run with
  | zero => rw [scanRun, if_neg (by omega), if_pos (hrun off (by omega) (by omega))]
  | succ room ih =>
    rw [scanRun, if_neg (by omega), if_pos (hrun off (by omega) (by omega)), ih (by omega)
      (fun j h1 h2 => hrun j (by omega) (by omega))]

/-- THE SCAN, said once (R123): it finds the terminator, or the key ends, or the run is too long. -/
theorem scanRun_cases (k : List Byte) (len : Nat) (t : Bool) (room off run : Nat) :
    (∃ r, r ≤ room ∧ off + r < 8 * len ∧ (∀ j, off ≤ j → j < off + r → getbit k j = t) ∧
      getbit k (off + r) = (!t) ∧ scanRun k len t room off run = .ok (run + r, off + r + 1)) ∨
    scanRun k len t room off run = .error .truncated ∨
    scanRun k len t room off run = .error .runTooLong := by
  induction room generalizing off run with
  | zero =>
    rw [scanRun]
    split
    · exact .inr (.inl rfl)
    · split
      · exact .inr (.inr rfl)
      · rename_i h1 h2
        refine .inl ⟨0, le_rfl, by omega, fun j h3 h4 => by omega, ?_, by simp⟩
        simp only [Nat.add_zero]
        cases t <;> simpa using h2
  | succ room ih =>
    rw [scanRun]
    split
    · exact .inr (.inl rfl)
    · split
      · rename_i h1 h2
        rcases ih (off + 1) (run + 1) with ⟨r, hr, hl, hrun, ht, heq⟩ | h | h
        · refine .inl ⟨r + 1, by omega, by omega, fun j h3 h4 => ?_, ?_, ?_⟩
          · rcases Nat.eq_or_lt_of_le h3 with rfl | h5
            · exact h2
            · exact hrun j (by omega) (by omega)
          · rw [← ht]; congr 1; omega
          · rw [heq]; congr 2 <;> omega
        · exact .inr (.inl h)
        · exact .inr (.inr h)
      · rename_i h1 h2
        refine .inl ⟨0, by omega, by omega, fun j h3 h4 => by omega, ?_, by simp⟩
        simp only [Nat.add_zero]
        cases t <;> simpa using h2

/-! ## The decoder -/

/-- What `expdec` does after the scan has found a run of `N - 1` bits. -/
theorem expdec_of_scan {p : Params} {k : List Byte} {len off r pay : Nat} {t : Bool}
    (h : scanRun k len t (p.m - 1) off 1 = .ok (1 + r, off + r + 1))
    (hpay : pay = if t then unpack k (off + r + 1) (r + 1)
      else (2 ^ (r + 1) - 1) - unpack k (off + r + 1) (r + 1)) :
    expdec p k len off t =
      if 8 * len < off + (2 * r + 2) then .error .truncated
      else if p.elim < 2 ^ (r + 1) + pay - 2 then .error .exponentTooLarge
      else .ok { e := 2 ^ (r + 1) + pay - 2, n := r + 2, off := off + (2 * r + 2) } := by
  rw [expdec, h, hpay]
  simp only [show 1 + r + 1 = r + 2 by omega, show r + 2 - 1 = r + 1 by omega,
    show off + r + 1 + (r + 1) = off + (2 * r + 2) by omega]

theorem payload_map (b : List Bool) (t : Bool) :
    (if t then bitsVal (b.map (fun x => x == t)) else
      2 ^ b.length - 1 - bitsVal (b.map (fun x => x == t))) = bitsVal b := by
  cases t
  · have : (fun x : Bool => x == false) = (!·) := by funext x; cases x <;> rfl
    have h := bitsVal_lt b
    simp only [this, bitsVal_not, Bool.false_eq_true, if_false]
    omega
  · simp

/-- The decoder reads a field back (R123): the bits at the cursor are a field without its first bit. -/
theorem expdec_of_field {p : Params} {k : List Byte} {len off e : Nat} {t : Bool} (hm : 1 ≤ p.m)
    (hn : expN e ≤ p.m + 1) (hlen : off + (2 * expN e - 2) ≤ 8 * len)
    (hbits : readBits k off (2 * expN e - 2) = (expfield e t).tail) :
    expdec p k len off t =
      if p.elim < e then .error .exponentTooLarge
      else .ok { e := e, n := expN e, off := off + (2 * expN e - 2) } := by
  have hN := expN_ge e
  obtain ⟨r, hr⟩ : ∃ r, expN e = r + 2 := ⟨expN e - 2, by omega⟩
  rw [expfield_tail] at hbits
  simp only [hr, show r + 2 - 2 = r by omega, show r + 2 - 1 = r + 1 by omega] at hbits hlen hn ⊢
  rw [readBits_append_iff (by simp; omega)] at hbits
  obtain ⟨h1, h2⟩ := hbits
  simp only [List.length_replicate, List.length_cons, List.length_map, bitsOf_length] at h1 h2
  rw [readBits_succ, List.cons.injEq] at h2
  obtain ⟨hterm, hpay⟩ := h2
  have hrun : ∀ j, off ≤ j → j < off + r → getbit k j = t := by
    intro j hj1 hj2
    have := (readBits_eq_iff (by simp)).mp h1 (j - off) (by omega)
    rw [show off + (j - off) = j by omega] at this
    simpa using this
  have hscan := scanRun_ok (k := k) (len := len) (room := p.m - 1) (run := 1) (by omega) hrun (by omega) hterm
  rw [expdec_of_scan hscan rfl, if_neg (by omega)]
  have hval : (if t then unpack k (off + r + 1) (r + 1)
      else 2 ^ (r + 1) - 1 - unpack k (off + r + 1) (r + 1)) = e + 2 - 2 ^ (r + 1) := by
    have := payload_map (bitsOf (r + 1) (e + 2)) t
    rw [unpack, hpay]
    simp only [bitsOf_length] at this
    rw [this, bitsVal_bitsOf]
    have h3 := pow_le_of_expN e
    have h4 := lt_pow_expN e
    rw [hr] at h3 h4
    simp only [show r + 2 - 1 = r + 1 by omega] at h3
    rw [show r + 2 = (r + 1) + 1 by omega, Nat.pow_succ] at h4
    rw [Nat.mod_eq_sub_mod h3, Nat.mod_eq_of_lt (by omega)]
  have h3 := pow_le_of_expN e
  rw [hr, show r + 2 - 1 = r + 1 by omega] at h3
  simp only [hval]
  have h5 : 2 ^ (r + 1) + (e + 2 - 2 ^ (r + 1)) - 2 = e := by omega
  rw [h5]
  simp only [show 2 * (r + 2) - 2 = 2 * r + 2 by omega]

/-- The decoder accepts nothing but fields (44_orchestrator.md R198): what it answers is the field it read. -/
theorem field_of_expdec {p : Params} {k : List Byte} {len off : Nat} {t : Bool} {f : ExpResult}
    (hm : 1 ≤ p.m) (h : expdec p k len off t = .ok f) :
    f.e ≤ p.elim ∧ f.n = expN f.e ∧ f.n ≤ p.m + 1 ∧ f.off = off + (2 * f.n - 2) ∧ f.off ≤ 8 * len ∧
      readBits k off (2 * f.n - 2) = (expfield f.e t).tail := by
  rcases scanRun_cases k len t (p.m - 1) off 1 with ⟨r, hr, hl, hrun, hterm, heq⟩ | heq | heq
  · obtain ⟨pay, hpay⟩ : ∃ pay, pay = if t then unpack k (off + r + 1) (r + 1)
        else (2 ^ (r + 1) - 1) - unpack k (off + r + 1) (r + 1) := ⟨_, rfl⟩
    rw [expdec_of_scan heq hpay] at h
    split at h
    · cases h
    rename_i hlen
    split at h
    · cases h
    rename_i helim
    injection h with h
    have hu := unpack_lt k (off + r + 1) (r + 1)
    have hpl : pay < 2 ^ (r + 1) := by
      rw [hpay]; split <;> omega
    have h2p : 2 ≤ 2 ^ (r + 1) := by
      calc 2 = 2 ^ 1 := rfl
        _ ≤ 2 ^ (r + 1) := Nat.pow_le_pow_right (by decide) (by omega)
    have he : f.e + 2 = 2 ^ (r + 1) + pay := by rw [← h]; simp only; omega
    have hN : expN f.e = r + 2 := by
      rw [expN, bitlen_eq (n := r + 1)]
      · omega
      · rw [Nat.pow_succ]; omega
    have hn : f.n = r + 2 := by rw [← h]
    have ho : f.off = off + (2 * r + 2) := by rw [← h]
    refine ⟨by rw [← h]; simp only; omega, by rw [hn, hN], by omega, by rw [ho, hn]; congr 1, by omega, ?_⟩
    rw [expfield_tail, hn, hN]
    simp only [show r + 2 - 2 = r by omega, show r + 2 - 1 = r + 1 by omega]
    rw [readBits_append_iff (by simp; omega)]
    simp only [List.length_replicate, List.length_cons, List.length_map, bitsOf_length]
    refine ⟨?_, ?_⟩
    · rw [readBits_eq_iff (by simp)]
      intro i hi
      simpa using hrun (off + i) (by omega) (by omega)
    · rw [readBits_succ, List.cons.injEq]
      refine ⟨hterm, ?_⟩
      refine bitsVal_injective (by simp) ?_
      have hmap := payload_map (bitsOf (r + 1) (2 ^ (r + 1) + pay)) t
      have hb := bitsVal_lt ((bitsOf (r + 1) (2 ^ (r + 1) + pay)).map (fun x => x == t))
      simp only [List.length_map, bitsOf_length] at hb hmap
      rw [bitsVal_bitsOf, Nat.add_mod_left, Nat.mod_eq_of_lt hpl] at hmap
      rw [he]
      rw [unpack] at hpay hu
      cases t
      · rw [if_neg (by decide)] at hmap hpay
        omega
      · rw [if_pos rfl] at hmap hpay
        omega
  · rw [expdec, heq] at h; cases h
  · rw [expdec, heq] at h; cases h

/-- The faults the exponent decoder can raise (60_exceptions.md R211). -/
theorem expdec_error {p : Params} {k : List Byte} {len off : Nat} {t : Bool} {d : Detail}
    (h : expdec p k len off t = .error d) :
    d = .truncated ∨ d = .runTooLong ∨ d = .exponentTooLarge := by
  rcases scanRun_cases k len t (p.m - 1) off 1 with ⟨r, -, -, -, -, heq⟩ | heq | heq
  · obtain ⟨pay, hpay⟩ : ∃ pay, pay = if t then unpack k (off + r + 1) (r + 1)
        else (2 ^ (r + 1) - 1) - unpack k (off + r + 1) (r + 1) := ⟨_, rfl⟩
    rw [expdec_of_scan heq hpay] at h
    split at h
    · injection h with h; exact .inl h.symm
    · split at h
      · injection h with h; exact .inr (.inr h.symm)
      · cases h
  · rw [expdec, heq] at h; injection h with h; exact .inl h.symm
  · rw [expdec, heq] at h; injection h with h; exact .inr (.inl h.symm)

/-! ## Bytes at and above the key's length are not read (10_state.md R34) -/

theorem scanRun_congr {k k' : List Byte} {len : Nat} (h : ∀ j, j < 8 * len → getbit k j = getbit k' j)
    (t : Bool) (room off run : Nat) : scanRun k len t room off run = scanRun k' len t room off run := by
  induction room generalizing off run with
  | zero =>
    simp only [scanRun]
    split
    · rfl
    · rw [h off (by omega)]
  | succ room ih =>
    simp only [scanRun]
    split
    · rfl
    · rw [h off (by omega), ih]

theorem expdec_congr {k k' : List Byte} {len : Nat} (h : ∀ j, j < 8 * len → getbit k j = getbit k' j)
    (p : Params) (off : Nat) (t : Bool) : expdec p k len off t = expdec p k' len off t := by
  rw [expdec, expdec, scanRun_congr h]
  split
  · rfl
  · rename_i run off' _
    by_cases hl : 8 * len < off' + (run + 1 - 1)
    · simp only [if_pos hl]
    · have hu : unpack k off' (run + 1 - 1) = unpack k' off' (run + 1 - 1) := by
        rw [unpack, unpack, readBits_congr fun j _ hj => h j (by omega)]
      simp only [if_neg hl, hu]

end Sys2Proof.Machine
end

