-- ==== Sys2Proof/Laws/Significand.lean ====
section
/-! SUPPORT. Ten's complement, declets, and what the significand decoder can do, said once
(42_significand.md). -/

namespace Sys2Proof.Machine

/-! ## Digit sequences -/

theorem allZero_iff {d : List Nat} : allZero d = true ↔ ∀ x ∈ d, x = 0 := by simp [allZero]

theorem allZero_eq_false {d : List Nat} : allZero d = false ↔ ∃ x ∈ d, x ≠ 0 := by
  simp [allZero]

theorem badDigits_eq_false {d : List Nat} : badDigits d = false ↔ AllDigits d := by
  simp [badDigits, AllDigits]

theorem badDigits_iff {d : List Nat} : badDigits d = true ↔ ∃ x ∈ d, 9 < x := by simp [badDigits]

@[simp] theorem AllDigits_nil : AllDigits [] := by simp [AllDigits]

@[simp] theorem AllDigits_cons {x : Nat} {d : List Nat} : AllDigits (x :: d) ↔ x ≤ 9 ∧ AllDigits d := by
  simp [AllDigits]

@[simp] theorem AllDigits_append {a b : List Nat} : AllDigits (a ++ b) ↔ AllDigits a ∧ AllDigits b := by
  simp only [AllDigits, List.mem_append, or_imp, forall_and]

theorem digitsValue_foldl (d : List Nat) (a : Nat) :
    d.foldl (fun v x => 10 * v + x) a = a * 10 ^ d.length + digitsValue d := by
  induction d generalizing a with
  | nil => simp [digitsValue]
  | cons x d ih =>
    simp only [digitsValue, List.foldl_cons, List.length_cons]
    rw [ih, ih (10 * 0 + x)]
    ring

@[simp] theorem digitsValue_nil : digitsValue [] = 0 := rfl

theorem digitsValue_cons (x : Nat) (d : List Nat) :
    digitsValue (x :: d) = x * 10 ^ d.length + digitsValue d := by
  simp only [digitsValue, List.foldl_cons]
  rw [digitsValue_foldl]
  simp [digitsValue]

theorem digitsValue_append (a b : List Nat) :
    digitsValue (a ++ b) = digitsValue a * 10 ^ b.length + digitsValue b := by
  induction a with
  | nil => simp
  | cons x a ih => simp only [List.cons_append, digitsValue_cons, ih, List.length_append]; ring

theorem digitsValue_lt {d : List Nat} (h : AllDigits d) : digitsValue d < 10 ^ d.length := by
  induction d with
  | nil => simp
  | cons x d ih =>
    rw [AllDigits_cons] at h
    have := ih h.2
    rw [digitsValue_cons, List.length_cons, Nat.pow_succ]
    nlinarith [h.1, Nat.pow_pos (n := d.length) (show 0 < 10 by decide)]

theorem digitsValue_eq_zero {d : List Nat} : digitsValue d = 0 ↔ allZero d = true := by
  induction d with
  | nil => simp [allZero]
  | cons x d ih =>
    have hp : 0 < 10 ^ d.length := Nat.pow_pos (by decide)
    rw [digitsValue_cons, Nat.add_eq_zero_iff, ih]
    simp only [allZero_iff, List.mem_cons, forall_eq_or_imp, Nat.mul_eq_zero]
    constructor
    · rintro ⟨h | h, h2⟩
      · exact ⟨h, h2⟩
      · omega
    · rintro ⟨h, h2⟩
      exact ⟨.inl h, h2⟩

@[simp] theorem digitsValue_replicate_zero (n : Nat) : digitsValue (List.replicate n 0) = 0 := by
  rw [digitsValue_eq_zero, allZero_iff]
  simp

/-- Two digit sequences of one length and one value are equal. -/
theorem digitsValue_injective {a b : List Nat} (ha : AllDigits a) (hb : AllDigits b)
    (hl : a.length = b.length) (h : digitsValue a = digitsValue b) : a = b := by
  induction a generalizing b with
  | nil => exact (List.length_eq_zero_iff.mp hl.symm).symm
  | cons x a ih =>
    rcases b with _ | ⟨y, b⟩
    · simp at hl
    · simp only [List.length_cons, Nat.add_right_cancel_iff] at hl
      rw [AllDigits_cons] at ha hb
      rw [digitsValue_cons, digitsValue_cons, hl] at h
      have h1 := digitsValue_lt ha.2
      have h2 := digitsValue_lt hb.2
      rw [hl] at h1
      have hxy : x = y := by
        rcases Nat.lt_trichotomy x y with hlt | heq | hlt
        · nlinarith
        · exact heq
        · nlinarith
      subst hxy
      rw [ih ha.2 hb.2 hl (by omega)]

/-! ## Ten's complement (R141) -/

@[simp] theorem tens_length (d : List Nat) : (tens d).length = d.length := by
  induction d with
  | nil => rfl
  | cons x d ih => rw [tens]; split <;> simp [ih]

@[simp] theorem storedDigits_length (d : List Nat) (neg : Bool) : (storedDigits d neg).length = d.length := by
  rw [storedDigits]; split <;> simp

theorem tens_digits {d : List Nat} (h : AllDigits d) (h0 : allZero d = false) : AllDigits (tens d) := by
  induction d with
  | nil => simp [allZero] at h0
  | cons x d ih =>
    rw [AllDigits_cons] at h
    rw [tens]
    split
    · rename_i hz
      rw [AllDigits_cons]
      refine ⟨?_, h.2⟩
      have : x ≠ 0 := by
        rintro rfl
        rw [allZero_eq_false] at h0
        obtain ⟨y, hy, hy0⟩ := h0
        rcases List.mem_cons.mp hy with rfl | hy
        · exact hy0 rfl
        · exact hy0 (allZero_iff.mp hz y hy)
      omega
    · rename_i hz
      rw [AllDigits_cons]
      exact ⟨by omega, ih h.2 (by simpa using hz)⟩

/-- Ten's complement by value: `10^k - C`. -/
theorem tens_value {d : List Nat} (h : AllDigits d) (h0 : allZero d = false) :
    digitsValue (tens d) + digitsValue d = 10 ^ d.length := by
  induction d with
  | nil => simp [allZero] at h0
  | cons x d ih =>
    rw [AllDigits_cons] at h
    rw [tens]
    split
    · rename_i hz
      have h1 : digitsValue d = 0 := digitsValue_eq_zero.mpr hz
      rw [digitsValue_cons, digitsValue_cons, h1, List.length_cons, Nat.pow_succ]
      have : 10 - x + x = 10 := by omega
      rw [Nat.add_zero, Nat.add_zero, ← Nat.add_mul, this, Nat.mul_comm]
    · rename_i hz
      have h1 := ih h.2 (by simpa using hz)
      rw [digitsValue_cons, digitsValue_cons, tens_length, List.length_cons, Nat.pow_succ]
      have : 9 - x + x = 9 := by omega
      nlinarith

theorem tens_not_allZero {d : List Nat} (h : AllDigits d) (h0 : allZero d = false) :
    allZero (tens d) = false := by
  rw [← Bool.not_eq_true]
  intro hz
  have h1 := tens_value h h0
  rw [digitsValue_eq_zero.mpr hz] at h1
  have := digitsValue_lt h
  omega

/-- Ten's complement is its own inverse (R141). -/
theorem tens_tens {d : List Nat} (h : AllDigits d) (h0 : allZero d = false) : tens (tens d) = d := by
  have hd := tens_digits h h0
  have hz := tens_not_allZero h h0
  refine digitsValue_injective (tens_digits hd hz) h (by simp) ?_
  have h1 := tens_value h h0
  have h2 := tens_value hd hz
  simp only [tens_length] at h2
  omega

/-- Before a nonzero rest every digit is complemented to nine. -/
theorem tens_append_of_nonzero (a : List Nat) {b : List Nat} (h : allZero b = false) :
    tens (a ++ b) = a.map (9 - ·) ++ tens b := by
  induction a with
  | nil => rfl
  | cons x a ih =>
    have : allZero (a ++ b) = false := by
      rw [allZero_eq_false] at h ⊢
      obtain ⟨y, hy, hy0⟩ := h
      exact ⟨y, List.mem_append_right a hy, hy0⟩
    rw [List.cons_append, tens, if_neg (by simp [this]), ih]
    rfl

/-- Appended zero digits stay (R141). -/
theorem tens_append_of_zero {a b : List Nat} (h : allZero b = true) (ha : allZero a = false) :
    tens (a ++ b) = tens a ++ b := by
  induction a with
  | nil => simp [allZero] at ha
  | cons x a ih =>
    have hz : allZero (a ++ b) = allZero a := by
      simp only [allZero, List.all_append] at h ⊢
      simp [h]
    rw [List.cons_append, tens, tens, hz]
    split
    · rfl
    · rename_i ha'
      rw [ih (by simpa using ha')]
      rfl

theorem storedDigits_digits {d : List Nat} {neg : Bool} (h : AllDigits d) (h0 : allZero d = false) :
    AllDigits (storedDigits d neg) := by
  rw [storedDigits]; split
  · exact tens_digits h h0
  · exact h

theorem storedDigits_not_allZero {d : List Nat} {neg : Bool} (h : AllDigits d) (h0 : allZero d = false) :
    allZero (storedDigits d neg) = false := by
  rw [storedDigits]; split
  · exact tens_not_allZero h h0
  · exact h0

theorem storedDigits_storedDigits {d : List Nat} {neg : Bool} (h : AllDigits d) (h0 : allZero d = false) :
    storedDigits (storedDigits d neg) neg = d := by
  cases neg
  · rfl
  · exact tens_tens h h0

/-! ## Declets (R142, R143) -/

theorem declet_le {d0 d1 d2 : Nat} (h0 : d0 ≤ 9) (h1 : d1 ≤ 9) (h2 : d2 ≤ 9) : declet d0 d1 d2 ≤ 999 := by
  simp only [declet]; omega

theorem decletDigits_declet {d0 d1 d2 : Nat} (h1 : d1 ≤ 9) (h2 : d2 ≤ 9) :
    decletDigits (declet d0 d1 d2) = [d0, d1, d2] := by
  simp only [decletDigits, declet, List.cons.injEq, and_true]
  omega

theorem declets_decletDigits {v : Nat} (rest : List Nat) :
    declets (decletDigits v ++ rest) = v :: declets rest := by
  simp only [decletDigits, List.cons_append, List.nil_append, declets, declet, List.cons.injEq, and_true]
  omega

theorem declets_length (d : List Nat) : (declets d).length = d.length / 3 := by
  induction d using declets.induct with
  | case1 d0 d1 d2 d ih => simp only [declets, List.length_cons, ih]; omega
  | case2 d h =>
    rcases d with _ | ⟨a, _ | ⟨b, _ | ⟨c, d⟩⟩⟩
    · rfl
    · simp [declets]
    · simp [declets]
    · exact absurd rfl (h a b c d)

theorem declets_le {d : List Nat} (h : AllDigits d) : ∀ v ∈ declets d, v ≤ 999 := by
  induction d using declets.induct with
  | case1 d0 d1 d2 d ih =>
    simp only [AllDigits_cons] at h
    simp only [declets, List.mem_cons, forall_eq_or_imp]
    exact ⟨declet_le h.1 h.2.1 h.2.2.1, ih h.2.2.2⟩
  | case2 d hd =>
    rcases d with _ | ⟨a, _ | ⟨b, _ | ⟨c, d⟩⟩⟩
    · simp [declets]
    · simp [declets]
    · simp [declets]
    · exact absurd rfl (hd a b c d)

/-- The digits of the groups of a sequence of whole groups are the sequence. -/
theorem flatMap_decletDigits_declets {d : List Nat} (h : AllDigits d) (h3 : d.length % 3 = 0) :
    (declets d).flatMap decletDigits = d := by
  induction d using declets.induct with
  | case1 d0 d1 d2 d ih =>
    simp only [AllDigits_cons] at h
    simp only [List.length_cons] at h3
    rw [declets, List.flatMap_cons, decletDigits_declet h.2.1 h.2.2.1, ih h.2.2.2 (by omega)]
    rfl
  | case2 d hd =>
    rcases d with _ | ⟨a, _ | ⟨b, _ | ⟨c, d⟩⟩⟩
    · rfl
    · simp at h3
    · simp at h3
    · exact absurd rfl (hd a b c d)

/-- The groups of the digits of some numbers are the numbers. -/
theorem declets_flatMap_decletDigits (v : List Nat) : declets (v.flatMap decletDigits) = v := by
  induction v with
  | nil => rfl
  | cons x v ih => rw [List.flatMap_cons, declets_decletDigits, ih]

theorem flatMap_decletDigits_length (v : List Nat) : (v.flatMap decletDigits).length = 3 * v.length := by
  induction v with
  | nil => rfl
  | cons x v ih => rw [List.flatMap_cons, List.length_append, ih]; simp [decletDigits]; omega

theorem flatMap_decletDigits_digits {v : List Nat} (h : ∀ x ∈ v, x ≤ 999) :
    AllDigits (v.flatMap decletDigits) := by
  intro y hy
  obtain ⟨x, hx, hy⟩ := List.mem_flatMap.mp hy
  have := h x hx
  simp only [decletDigits, List.mem_cons, List.not_mem_nil, or_false] at hy
  omega

theorem declets_append {a : List Nat} (b : List Nat) (h3 : a.length % 3 = 0) :
    declets (a ++ b) = declets a ++ declets b := by
  induction a using declets.induct with
  | case1 d0 d1 d2 d ih =>
    simp only [List.length_cons] at h3
    simp only [List.cons_append, declets, ih (by omega)]
  | case2 d hd =>
    rcases d with _ | ⟨a, _ | ⟨b, _ | ⟨c, d⟩⟩⟩
    · rfl
    · simp at h3
    · simp at h3
    · exact absurd rfl (hd a b c d)

theorem flatMap_bitsOf_length (w : Nat) (v : List Nat) : (v.flatMap (bitsOf w)).length = w * v.length := by
  induction v with
  | nil => simp
  | cons x v ih => rw [List.flatMap_cons, List.length_append, ih, bitsOf_length, List.length_cons]; ring

@[simp] theorem sigbits_length (d : List Nat) (neg : Bool) : (sigbits d neg).length = 10 * (d.length / 3) := by
  rw [sigbits, flatMap_bitsOf_length, declets_length, storedDigits_length]

/-! ## The last group -/

/-- A sequence of whole groups has a last group. -/
theorem exists_last_group {d : List Nat} (h3 : d.length % 3 = 0) (h0 : 0 < d.length) :
    ∃ a x y z, d = a ++ [x, y, z] ∧ a.length % 3 = 0 := by
  have hl : (d.drop (d.length - 3)).length = 3 := by rw [List.length_drop]; omega
  obtain ⟨x, y, z, hxyz⟩ := List.length_eq_three.mp hl
  refine ⟨d.take (d.length - 3), x, y, z, ?_, ?_⟩
  · rw [← hxyz, List.take_append_drop]
  · rw [List.length_take]; omega

theorem lastGroupZero_append (a : List Nat) (x y z : Nat) :
    lastGroupZero (a ++ [x, y, z]) = allZero [x, y, z] := by
  rw [lastGroupZero]
  have : (a ++ [x, y, z]).length - 3 = a.length := by simp
  rw [this, List.drop_left]

/-- The stored last group is 000 exactly when the coefficient's is (R145). -/
theorem lastGroupZero_tens {d : List Nat} (h : AllDigits d) (h3 : d.length % 3 = 0) (h0 : allZero d = false) :
    lastGroupZero (tens d) = lastGroupZero d := by
  have hd0 : 0 < d.length := by
    rcases d with _ | ⟨x, d⟩
    · simp [allZero] at h0
    · simp
  obtain ⟨a, x, y, z, rfl, ha3⟩ := exists_last_group h3 hd0
  rw [AllDigits_append] at h
  rw [lastGroupZero_append]
  cases hz : allZero [x, y, z]
  · have hl : (tens [x, y, z]).length = 3 := by simp
    obtain ⟨x', y', z', hxyz⟩ := List.length_eq_three.mp hl
    rw [tens_append_of_nonzero a hz, hxyz, lastGroupZero_append, ← hxyz]
    exact tens_not_allZero h.2 hz
  · have ha : allZero a = false := by
      rw [← Bool.not_eq_true]
      intro ha
      simp only [allZero, List.all_append] at h0 ha hz
      simp [ha, hz] at h0
    rw [tens_append_of_zero hz ha, lastGroupZero_append, hz]

theorem lastGroupZero_storedDigits {d : List Nat} {neg : Bool} (h : AllDigits d) (h3 : d.length % 3 = 0)
    (h0 : allZero d = false) : lastGroupZero (storedDigits d neg) = lastGroupZero d := by
  rw [storedDigits]; split
  · exact lastGroupZero_tens h h3 h0
  · rfl

/-- The last declet is 0 exactly when the last group is 000. -/
theorem declets_getLastD {d : List Nat} (h3 : d.length % 3 = 0) (h0 : 0 < d.length) :
    (declets d).getLastD 0 = 0 ↔ lastGroupZero d = true := by
  obtain ⟨a, x, y, z, rfl, ha3⟩ := exists_last_group h3 h0
  rw [declets_append _ ha3, lastGroupZero_append]
  simp [declets, declet, allZero]
  omega

theorem not_allZero_of_last {d : List Nat} (h : lastGroupZero d = false) : allZero d = false := by
  rw [lastGroupZero, allZero_eq_false] at h
  obtain ⟨x, hx, h0⟩ := h
  exact allZero_eq_false.mpr ⟨x, List.mem_of_mem_drop hx, h0⟩

/-! ## The decoder -/

theorem readDeclets_succ (k : List Byte) (off g : Nat) :
    readDeclets k off (g + 1) = unpack k off 10 :: readDeclets k (off + 10) g := by
  simp only [readDeclets, List.range_succ_eq_map, List.map_cons, List.map_map, Nat.mul_zero, Nat.add_zero,
    List.cons.injEq, true_and]
  refine List.map_congr_left fun i _ => ?_
  simp only [Function.comp, Nat.succ_eq_add_one]
  congr 1
  omega

@[simp] theorem readDeclets_length (k : List Byte) (off g : Nat) : (readDeclets k off g).length = g := by
  simp [readDeclets]

/-- The groups read are `v` exactly when the stream holds the ten bits of each. -/
theorem readDeclets_eq_iff {k : List Byte} {off : Nat} {v : List Nat} (hv : ∀ x ∈ v, x < 2 ^ 10) :
    readDeclets k off v.length = v ↔ readBits k off (10 * v.length) = v.flatMap (bitsOf 10) := by
  induction v generalizing off with
  | nil => simp [readDeclets]
  | cons x v ih =>
    simp only [List.mem_cons, forall_eq_or_imp] at hv
    rw [List.length_cons, readDeclets_succ, List.flatMap_cons,
      readBits_append_iff (by simp; ring)]
    simp only [bitsOf_length, List.cons.injEq, flatMap_bitsOf_length]
    rw [unpack_eq_iff hv.1, ih hv.2]

theorem readDeclets_lt (k : List Byte) (off g : Nat) : ∀ x ∈ readDeclets k off g, x < 2 ^ 10 := by
  intro x hx
  obtain ⟨i, -, rfl⟩ := List.mem_map.mp hx
  exact unpack_lt _ _ _

/-- What the significand decoder does once the counts are right (R145). -/
theorem sigdec_eq {p : Params} {k : List Byte} {len off g spare : Nat} {neg : Bool}
    (hlen : 8 * len = off + (10 * g + spare)) (hspare : spare ≤ 7) (hg : 1 ≤ g) (hmax : 3 * g ≤ p.dmax) :
    sigdec p k len off neg =
      if (readDeclets k off g).any (fun x => decide (999 < x)) then .error .badDeclet
      else if unpack k (off + 10 * g) spare ≠ 0 then .error .badTail
      else if (readDeclets k off g).getLastD 0 = 0 then .error .zeroLastGroup
      else if (storedDigits ((readDeclets k off g).flatMap decletDigits) neg).headD 0 = 0 then
        .error .badLeadGroup
      else .ok { digits := storedDigits ((readDeclets k off g).flatMap decletDigits) neg, off := 8 * len } := by
  have h1 : (8 * len - off) / 10 = g := by omega
  have h2 : (8 * len - off) % 10 = spare := by omega
  simp only [sigdec, h1, h2]
  rw [if_neg (by omega), if_neg (by omega), if_neg (by omega), if_neg (by omega)]

theorem Canonical.not_allZero {p : Params} {d : List Nat} (h : Canonical p d) : allZero d = false :=
  not_allZero_of_last h.last

/-- The decoder reads the declets of a canonical coefficient back (R145). -/
theorem sigdec_of_bits {p : Params} {k : List Byte} {len off tail : Nat} {neg : Bool} {d : List Nat}
    (hd : Canonical p d) (htail : tail ≤ 7) (hlen : off + (10 * (d.length / 3) + tail) = 8 * len)
    (hbits : readBits k off (10 * (d.length / 3) + tail) =
      sigbits d neg ++ List.replicate tail false) :
    sigdec p k len off neg = .ok { digits := d, off := 8 * len } := by
  obtain ⟨hdig, h3, hne, hsize, hlead, hlast⟩ := hd
  have h0 := not_allZero_of_last hlast
  have hs := storedDigits_digits (neg := neg) hdig h0
  have hvle := declets_le hs
  have hvl : (declets (storedDigits d neg)).length = d.length / 3 := by
    rw [declets_length, storedDigits_length]
  rw [readBits_append_iff (by simp)] at hbits
  simp only [sigbits_length, List.length_replicate] at hbits
  have hread : readDeclets k off (d.length / 3) = declets (storedDigits d neg) := by
    rw [← hvl, readDeclets_eq_iff (fun x hx => by have := hvle x hx; omega), hvl]
    exact hbits.1
  have htail0 : unpack k (off + 10 * (d.length / 3)) tail = 0 := by
    rw [unpack, bitsVal_eq_zero]
    simpa using hbits.2
  rw [sigdec_eq hlen.symm htail (by omega) (by omega), hread,
    flatMap_decletDigits_declets hs (by rw [storedDigits_length]; exact h3), storedDigits_storedDigits hdig h0]
  rw [if_neg, if_neg (by simp [htail0]), if_neg, if_neg hlead]
  · rw [declets_getLastD (by rw [storedDigits_length]; exact h3) (by rw [storedDigits_length]; exact hne),
      lastGroupZero_storedDigits hdig h3 h0, hlast]
    simp
  · simp only [List.any_eq_true, decide_eq_true_eq, not_exists, not_and, Nat.not_lt]
    exact hvle

/-- The decoder accepts nothing else (44_orchestrator.md R198): what it answers is canonical, and the stream holds
its declets and then fewer than eight zeros. -/
theorem bits_of_sigdec {p : Params} {k : List Byte} {len off : Nat} {neg : Bool} {c : SigResult}
    (h : sigdec p k len off neg = .ok c) :
    Canonical p c.digits ∧ c.off = 8 * len ∧ ∃ tail, tail ≤ 7 ∧
      off + (10 * (c.digits.length / 3) + tail) = 8 * len ∧
      readBits k off (10 * (c.digits.length / 3) + tail) =
        sigbits c.digits neg ++ List.replicate tail false := by
  by_cases h1 : 8 * len < off
  · simp [sigdec, h1] at h
  by_cases h2 : (8 * len - off) / 10 = 0
  · simp [sigdec, h1, h2] at h
  by_cases h3 : p.dmax < 3 * ((8 * len - off) / 10)
  · simp [sigdec, h1, h2, h3] at h
  by_cases h4 : 8 ≤ (8 * len - off) % 10
  · simp [sigdec, h1, h2, h3, h4] at h
  obtain ⟨g, hg⟩ : ∃ g, g = (8 * len - off) / 10 := ⟨_, rfl⟩
  obtain ⟨spare, hsp⟩ : ∃ spare, spare = (8 * len - off) % 10 := ⟨_, rfl⟩
  rw [← hg] at h2 h3
  rw [← hsp] at h4
  have hlen : 8 * len = off + (10 * g + spare) := by omega
  rw [sigdec_eq hlen (by omega) (by omega) (by omega)] at h
  split at h
  · cases h
  rename_i hle
  split at h
  · cases h
  rename_i htail
  split at h
  · cases h
  rename_i hlast
  split at h
  · cases h
  rename_i hlead
  injection h with h
  obtain ⟨v, hv⟩ : ∃ v, v = readDeclets k off g := ⟨_, rfl⟩
  rw [← hv] at h hle hlast hlead
  have hvl : v.length = g := by rw [hv]; simp
  have hvle : ∀ x ∈ v, x ≤ 999 := by
    simpa only [List.any_eq_true, decide_eq_true_eq, not_exists, not_and, Nat.not_lt] using hle
  have hD := flatMap_decletDigits_digits hvle
  have hDl := flatMap_decletDigits_length v
  have hDlast : lastGroupZero (v.flatMap decletDigits) = false := by
    rw [← Bool.not_eq_true, ← declets_getLastD (by omega) (by omega), declets_flatMap_decletDigits]
    exact hlast
  have hD0 := not_allZero_of_last hDlast
  have hdig : c.digits = storedDigits (v.flatMap decletDigits) neg := by rw [← h]
  have hclen : c.digits.length = 3 * g := by rw [hdig, storedDigits_length, hDl, hvl]
  refine ⟨⟨?_, ?_, ?_, ?_, ?_, ?_⟩, by rw [← h], spare, by omega, by omega, ?_⟩
  · rw [hdig]; exact storedDigits_digits hD hD0
  · omega
  · omega
  · omega
  · rw [hdig]; exact hlead
  · rw [hdig, lastGroupZero_storedDigits hD (by omega) hD0, hDlast]
  · rw [readBits_append_iff (by simp)]
    simp only [sigbits_length, List.length_replicate]
    have hg3 : c.digits.length / 3 = g := by omega
    rw [hg3]
    refine ⟨?_, ?_⟩
    · rw [sigbits, hdig, storedDigits_storedDigits hD hD0, declets_flatMap_decletDigits, ← hvl,
        ← readDeclets_eq_iff (fun x hx => by have := hvle x hx; omega), hvl, hv]
    · have : unpack k (off + 10 * g) spare = 0 := by simpa using htail
      rw [unpack, bitsVal_eq_zero] at this
      simpa using this

/-- The faults the significand decoder can raise (60_exceptions.md R211). -/
theorem sigdec_error {p : Params} {k : List Byte} {len off : Nat} {neg : Bool} {d : Detail}
    (h : sigdec p k len off neg = .error d) :
    d = .truncated ∨ d = .tooManyDigits ∨ d = .badTail ∨ d = .badDeclet ∨ d = .zeroLastGroup ∨
      d = .badLeadGroup := by
  simp only [sigdec] at h
  repeat' split at h
  all_goals first | (injection h with h; subst h; simp) | cases h

/-- Bytes at and above the key's length are not read (10_state.md R34). -/
theorem sigdec_congr {k k' : List Byte} {len : Nat} (h : ∀ j, j < 8 * len → getbit k j = getbit k' j)
    (p : Params) (off : Nat) (neg : Bool) : sigdec p k len off neg = sigdec p k' len off neg := by
  have hr : ∀ g, g ≤ (8 * len - off) / 10 → readDeclets k off g = readDeclets k' off g := by
    intro g hg
    refine List.map_congr_left fun i hi => ?_
    have := List.mem_range.mp hi
    rw [unpack, unpack, readBits_congr fun j _ hj => h j (by omega)]
  have hu : unpack k (off + 10 * ((8 * len - off) / 10)) ((8 * len - off) % 10) =
      unpack k' (off + 10 * ((8 * len - off) / 10)) ((8 * len - off) % 10) := by
    by_cases h0 : (8 * len - off) % 10 = 0
    · rw [h0]; rfl
    · rw [unpack, unpack, readBits_congr fun j _ hj => h j (by omega)]
  simp only [sigdec, hr _ (Nat.le_refl _), hu]

end Sys2Proof.Machine
end

