-- ==== Sys2Proof/Laws/State.lean ====
section
/-! SUPPORT. What each update of the state leaves in each field, true by `rfl`, so that no proof unfolds a
record update. -/

namespace Sys2Proof.Machine

/-! ## Fault entry (60_exceptions.md R218) -/

@[simp] theorem enterFault_params (d : Detail) (s : State) : (enterFault d s).params = s.params := rfl
@[simp] theorem enterFault_status (d : Detail) (s : State) : (enterFault d s).status = d.status.code := rfl
@[simp] theorem enterFault_detail (d : Detail) (s : State) : (enterFault d s).detail = d.code := rfl
@[simp] theorem enterFault_sign (d : Detail) (s : State) : (enterFault d s).sign = s.sign := rfl
@[simp] theorem enterFault_cls (d : Detail) (s : State) : (enterFault d s).cls = s.cls := rfl
@[simp] theorem enterFault_exp (d : Detail) (s : State) : (enterFault d s).exp = s.exp := rfl
@[simp] theorem enterFault_dcnt (d : Detail) (s : State) : (enterFault d s).dcnt = s.dcnt := rfl
@[simp] theorem enterFault_klen (d : Detail) (s : State) : (enterFault d s).klen = s.klen := rfl
@[simp] theorem enterFault_cur (d : Detail) (s : State) : (enterFault d s).cur = s.cur := rfl
@[simp] theorem enterFault_emag (d : Detail) (s : State) : (enterFault d s).emag = s.emag := rfl
@[simp] theorem enterFault_tbit (d : Detail) (s : State) : (enterFault d s).tbit = s.tbit := rfl
@[simp] theorem enterFault_nbits (d : Detail) (s : State) : (enterFault d s).nbits = s.nbits := rfl
@[simp] theorem enterFault_val (d : Detail) (s : State) : (enterFault d s).val = s.val := rfl
@[simp] theorem enterFault_kind (d : Detail) (s : State) : (enterFault d s).kind = s.kind := rfl
@[simp] theorem enterFault_dig (d : Detail) (s : State) : (enterFault d s).dig = s.dig := rfl
@[simp] theorem enterFault_kbuf (d : Detail) (s : State) : (enterFault d s).kbuf = s.kbuf := rfl
@[simp] theorem enterFault_scr (d : Detail) (s : State) : (enterFault d s).scr = s.scr := rfl
@[simp] theorem enterFault_resp (d : Detail) (s : State) : (enterFault d s).resp = .done := rfl
@[simp] theorem enterFault_pending (d : Detail) (s : State) : (enterFault d s).pending = s.pending := rfl
@[simp] theorem enterFault_resets (d : Detail) (s : State) : (enterFault d s).resets = s.resets := rfl

/-! ## Success -/

@[simp] theorem succeed_params (s : State) : (succeed s).params = s.params := rfl
@[simp] theorem succeed_status (s : State) : (succeed s).status = 0#3 := rfl
@[simp] theorem succeed_detail (s : State) : (succeed s).detail = 0#5 := rfl
@[simp] theorem succeed_sign (s : State) : (succeed s).sign = s.sign := rfl
@[simp] theorem succeed_cls (s : State) : (succeed s).cls = s.cls := rfl
@[simp] theorem succeed_exp (s : State) : (succeed s).exp = s.exp := rfl
@[simp] theorem succeed_dcnt (s : State) : (succeed s).dcnt = s.dcnt := rfl
@[simp] theorem succeed_klen (s : State) : (succeed s).klen = s.klen := rfl
@[simp] theorem succeed_cur (s : State) : (succeed s).cur = s.cur := rfl
@[simp] theorem succeed_emag (s : State) : (succeed s).emag = s.emag := rfl
@[simp] theorem succeed_tbit (s : State) : (succeed s).tbit = s.tbit := rfl
@[simp] theorem succeed_nbits (s : State) : (succeed s).nbits = s.nbits := rfl
@[simp] theorem succeed_val (s : State) : (succeed s).val = s.val := rfl
@[simp] theorem succeed_kind (s : State) : (succeed s).kind = s.kind := rfl
@[simp] theorem succeed_dig (s : State) : (succeed s).dig = s.dig := rfl
@[simp] theorem succeed_kbuf (s : State) : (succeed s).kbuf = s.kbuf := rfl
@[simp] theorem succeed_scr (s : State) : (succeed s).scr = s.scr := rfl
@[simp] theorem succeed_resp (s : State) : (succeed s).resp = .done := rfl
@[simp] theorem succeed_pending (s : State) : (succeed s).pending = s.pending := rfl
@[simp] theorem succeed_resets (s : State) : (succeed s).resets = s.resets := rfl

/-! ## A report -/

@[simp] theorem reported_params (s : State) (a : BitVec 3) (b : BitVec 5) :
    (s.reported a b).params = s.params := rfl
@[simp] theorem reported_status (s : State) (a : BitVec 3) (b : BitVec 5) : (s.reported a b).status = a := rfl
@[simp] theorem reported_detail (s : State) (a : BitVec 3) (b : BitVec 5) : (s.reported a b).detail = b := rfl
@[simp] theorem reported_sign (s : State) (a : BitVec 3) (b : BitVec 5) :
    (s.reported a b).sign = s.sign := rfl
@[simp] theorem reported_cls (s : State) (a : BitVec 3) (b : BitVec 5) : (s.reported a b).cls = s.cls := rfl
@[simp] theorem reported_exp (s : State) (a : BitVec 3) (b : BitVec 5) : (s.reported a b).exp = s.exp := rfl
@[simp] theorem reported_dcnt (s : State) (a : BitVec 3) (b : BitVec 5) :
    (s.reported a b).dcnt = s.dcnt := rfl
@[simp] theorem reported_klen (s : State) (a : BitVec 3) (b : BitVec 5) :
    (s.reported a b).klen = s.klen := rfl
@[simp] theorem reported_cur (s : State) (a : BitVec 3) (b : BitVec 5) : (s.reported a b).cur = s.cur := rfl
@[simp] theorem reported_emag (s : State) (a : BitVec 3) (b : BitVec 5) :
    (s.reported a b).emag = s.emag := rfl
@[simp] theorem reported_tbit (s : State) (a : BitVec 3) (b : BitVec 5) :
    (s.reported a b).tbit = s.tbit := rfl
@[simp] theorem reported_nbits (s : State) (a : BitVec 3) (b : BitVec 5) :
    (s.reported a b).nbits = s.nbits := rfl
@[simp] theorem reported_val (s : State) (a : BitVec 3) (b : BitVec 5) : (s.reported a b).val = s.val := rfl
@[simp] theorem reported_kind (s : State) (a : BitVec 3) (b : BitVec 5) :
    (s.reported a b).kind = s.kind := rfl
@[simp] theorem reported_dig (s : State) (a : BitVec 3) (b : BitVec 5) : (s.reported a b).dig = s.dig := rfl
@[simp] theorem reported_kbuf (s : State) (a : BitVec 3) (b : BitVec 5) :
    (s.reported a b).kbuf = s.kbuf := rfl
@[simp] theorem reported_scr (s : State) (a : BitVec 3) (b : BitVec 5) : (s.reported a b).scr = s.scr := rfl
@[simp] theorem reported_resp (s : State) (a : BitVec 3) (b : BitVec 5) : (s.reported a b).resp = .done := rfl
@[simp] theorem reported_pending (s : State) (a : BitVec 3) (b : BitVec 5) :
    (s.reported a b).pending = s.pending := rfl
@[simp] theorem reported_resets (s : State) (a : BitVec 3) (b : BitVec 5) :
    (s.reported a b).resets = s.resets := rfl

/-! ## The stream written back -/

@[simp] theorem setStream_params (s : State) (st : KeyStream) : (s.setStream st).params = s.params := rfl
@[simp] theorem setStream_status (s : State) (st : KeyStream) : (s.setStream st).status = s.status := rfl
@[simp] theorem setStream_detail (s : State) (st : KeyStream) : (s.setStream st).detail = s.detail := rfl
@[simp] theorem setStream_sign (s : State) (st : KeyStream) : (s.setStream st).sign = s.sign := rfl
@[simp] theorem setStream_cls (s : State) (st : KeyStream) : (s.setStream st).cls = s.cls := rfl
@[simp] theorem setStream_exp (s : State) (st : KeyStream) : (s.setStream st).exp = s.exp := rfl
@[simp] theorem setStream_dcnt (s : State) (st : KeyStream) : (s.setStream st).dcnt = s.dcnt := rfl
@[simp] theorem setStream_klen (s : State) (st : KeyStream) :
    (s.setStream st).klen = BitVec.ofNat 32 st.len := rfl
@[simp] theorem setStream_cur (s : State) (st : KeyStream) :
    (s.setStream st).cur = BitVec.ofNat 32 st.off := rfl
@[simp] theorem setStream_emag (s : State) (st : KeyStream) : (s.setStream st).emag = s.emag := rfl
@[simp] theorem setStream_tbit (s : State) (st : KeyStream) : (s.setStream st).tbit = s.tbit := rfl
@[simp] theorem setStream_nbits (s : State) (st : KeyStream) : (s.setStream st).nbits = s.nbits := rfl
@[simp] theorem setStream_val (s : State) (st : KeyStream) : (s.setStream st).val = s.val := rfl
@[simp] theorem setStream_kind (s : State) (st : KeyStream) : (s.setStream st).kind = s.kind := rfl
@[simp] theorem setStream_dig (s : State) (st : KeyStream) : (s.setStream st).dig = s.dig := rfl
@[simp] theorem setStream_kbuf (s : State) (st : KeyStream) : (s.setStream st).kbuf = st.k := rfl
@[simp] theorem setStream_scr (s : State) (st : KeyStream) : (s.setStream st).scr = s.scr := rfl
@[simp] theorem setStream_resp (s : State) (st : KeyStream) : (s.setStream st).resp = s.resp := rfl
@[simp] theorem setStream_pending (s : State) (st : KeyStream) : (s.setStream st).pending = s.pending := rfl
@[simp] theorem setStream_resets (s : State) (st : KeyStream) : (s.setStream st).resets = s.resets := rfl

/-! ## A decoded coefficient -/

@[simp] theorem setCoefficient_params (s : State) (d : List Nat) :
    (s.setCoefficient d).params = s.params := rfl
@[simp] theorem setCoefficient_status (s : State) (d : List Nat) :
    (s.setCoefficient d).status = s.status := rfl
@[simp] theorem setCoefficient_detail (s : State) (d : List Nat) :
    (s.setCoefficient d).detail = s.detail := rfl
@[simp] theorem setCoefficient_sign (s : State) (d : List Nat) : (s.setCoefficient d).sign = s.sign := rfl
@[simp] theorem setCoefficient_cls (s : State) (d : List Nat) : (s.setCoefficient d).cls = s.cls := rfl
@[simp] theorem setCoefficient_exp (s : State) (d : List Nat) : (s.setCoefficient d).exp = s.exp := rfl
@[simp] theorem setCoefficient_dcnt (s : State) (d : List Nat) :
    (s.setCoefficient d).dcnt = BitVec.ofNat 32 d.length := rfl
@[simp] theorem setCoefficient_klen (s : State) (d : List Nat) : (s.setCoefficient d).klen = s.klen := rfl
@[simp] theorem setCoefficient_cur (s : State) (d : List Nat) : (s.setCoefficient d).cur = s.cur := rfl
@[simp] theorem setCoefficient_emag (s : State) (d : List Nat) : (s.setCoefficient d).emag = s.emag := rfl
@[simp] theorem setCoefficient_tbit (s : State) (d : List Nat) : (s.setCoefficient d).tbit = s.tbit := rfl
@[simp] theorem setCoefficient_nbits (s : State) (d : List Nat) : (s.setCoefficient d).nbits = s.nbits := rfl
@[simp] theorem setCoefficient_val (s : State) (d : List Nat) : (s.setCoefficient d).val = s.val := rfl
@[simp] theorem setCoefficient_kind (s : State) (d : List Nat) : (s.setCoefficient d).kind = s.kind := rfl
@[simp] theorem setCoefficient_dig (s : State) (d : List Nat) :
    (s.setCoefficient d).dig = overlay (toCells d) s.dig := rfl
@[simp] theorem setCoefficient_kbuf (s : State) (d : List Nat) : (s.setCoefficient d).kbuf = s.kbuf := rfl
@[simp] theorem setCoefficient_scr (s : State) (d : List Nat) :
    (s.setCoefficient d).scr = overlay (toCells d) s.scr := rfl
@[simp] theorem setCoefficient_resp (s : State) (d : List Nat) : (s.setCoefficient d).resp = s.resp := rfl
@[simp] theorem setCoefficient_pending (s : State) (d : List Nat) :
    (s.setCoefficient d).pending = s.pending := rfl
@[simp] theorem setCoefficient_resets (s : State) (d : List Nat) :
    (s.setCoefficient d).resets = s.resets := rfl

/-! ## A one-byte key -/

@[simp] theorem encodeSpecial_params (b : Byte) (s : State) : (encodeSpecial b s).params = s.params := rfl
@[simp] theorem encodeSpecial_status (b : Byte) (s : State) : (encodeSpecial b s).status = s.status := rfl
@[simp] theorem encodeSpecial_detail (b : Byte) (s : State) : (encodeSpecial b s).detail = s.detail := rfl
@[simp] theorem encodeSpecial_sign (b : Byte) (s : State) : (encodeSpecial b s).sign = s.sign := rfl
@[simp] theorem encodeSpecial_cls (b : Byte) (s : State) : (encodeSpecial b s).cls = s.cls := rfl
@[simp] theorem encodeSpecial_exp (b : Byte) (s : State) : (encodeSpecial b s).exp = s.exp := rfl
@[simp] theorem encodeSpecial_dcnt (b : Byte) (s : State) : (encodeSpecial b s).dcnt = s.dcnt := rfl
@[simp] theorem encodeSpecial_klen (b : Byte) (s : State) : (encodeSpecial b s).klen = 1#32 := rfl
@[simp] theorem encodeSpecial_cur (b : Byte) (s : State) : (encodeSpecial b s).cur = 8#32 := rfl
@[simp] theorem encodeSpecial_emag (b : Byte) (s : State) : (encodeSpecial b s).emag = s.emag := rfl
@[simp] theorem encodeSpecial_tbit (b : Byte) (s : State) : (encodeSpecial b s).tbit = s.tbit := rfl
@[simp] theorem encodeSpecial_nbits (b : Byte) (s : State) : (encodeSpecial b s).nbits = s.nbits := rfl
@[simp] theorem encodeSpecial_val (b : Byte) (s : State) : (encodeSpecial b s).val = s.val := rfl
@[simp] theorem encodeSpecial_kind (b : Byte) (s : State) : (encodeSpecial b s).kind = s.kind := rfl
@[simp] theorem encodeSpecial_dig (b : Byte) (s : State) : (encodeSpecial b s).dig = s.dig := rfl
@[simp] theorem encodeSpecial_kbuf (b : Byte) (s : State) : (encodeSpecial b s).kbuf = s.kbuf.set 0 b := rfl
@[simp] theorem encodeSpecial_scr (b : Byte) (s : State) : (encodeSpecial b s).scr = s.scr := rfl
@[simp] theorem encodeSpecial_resp (b : Byte) (s : State) : (encodeSpecial b s).resp = s.resp := rfl
@[simp] theorem encodeSpecial_pending (b : Byte) (s : State) : (encodeSpecial b s).pending = s.pending := rfl
@[simp] theorem encodeSpecial_resets (b : Byte) (s : State) : (encodeSpecial b s).resets = s.resets := rfl

/-! ## A transaction issued -/

@[simp] theorem issue_params (s : State) (ev : HostEvent) : (s.issue ev).params = s.params := rfl
@[simp] theorem issue_status (s : State) (ev : HostEvent) : (s.issue ev).status = s.status := rfl
@[simp] theorem issue_detail (s : State) (ev : HostEvent) : (s.issue ev).detail = s.detail := rfl
@[simp] theorem issue_sign (s : State) (ev : HostEvent) : (s.issue ev).sign = s.sign := rfl
@[simp] theorem issue_cls (s : State) (ev : HostEvent) : (s.issue ev).cls = s.cls := rfl
@[simp] theorem issue_exp (s : State) (ev : HostEvent) : (s.issue ev).exp = s.exp := rfl
@[simp] theorem issue_dcnt (s : State) (ev : HostEvent) : (s.issue ev).dcnt = s.dcnt := rfl
@[simp] theorem issue_klen (s : State) (ev : HostEvent) : (s.issue ev).klen = s.klen := rfl
@[simp] theorem issue_cur (s : State) (ev : HostEvent) : (s.issue ev).cur = s.cur := rfl
@[simp] theorem issue_emag (s : State) (ev : HostEvent) : (s.issue ev).emag = s.emag := rfl
@[simp] theorem issue_tbit (s : State) (ev : HostEvent) : (s.issue ev).tbit = s.tbit := rfl
@[simp] theorem issue_nbits (s : State) (ev : HostEvent) : (s.issue ev).nbits = s.nbits := rfl
@[simp] theorem issue_val (s : State) (ev : HostEvent) : (s.issue ev).val = s.val := rfl
@[simp] theorem issue_kind (s : State) (ev : HostEvent) : (s.issue ev).kind = s.kind := rfl
@[simp] theorem issue_dig (s : State) (ev : HostEvent) : (s.issue ev).dig = s.dig := rfl
@[simp] theorem issue_kbuf (s : State) (ev : HostEvent) : (s.issue ev).kbuf = s.kbuf := rfl
@[simp] theorem issue_scr (s : State) (ev : HostEvent) : (s.issue ev).scr = s.scr := rfl
@[simp] theorem issue_resp (s : State) (ev : HostEvent) : (s.issue ev).resp = s.resp := rfl
@[simp] theorem issue_pending (s : State) (ev : HostEvent) : (s.issue ev).pending = ev :: s.pending := rfl
@[simp] theorem issue_resets (s : State) (ev : HostEvent) : (s.issue ev).resets = s.resets := rfl

/-! ## A special value written (43_special.md R168): the fields it never writes -/

@[simp] theorem writeSpecial_params (k : Kind) (s : State) : (writeSpecial k s).params = s.params := by
  cases k <;> rfl
@[simp] theorem writeSpecial_status (k : Kind) (s : State) : (writeSpecial k s).status = s.status := by
  cases k <;> rfl
@[simp] theorem writeSpecial_detail (k : Kind) (s : State) : (writeSpecial k s).detail = s.detail := by
  cases k <;> rfl
@[simp] theorem writeSpecial_klen (k : Kind) (s : State) : (writeSpecial k s).klen = s.klen := by
  cases k <;> rfl
@[simp] theorem writeSpecial_cur (k : Kind) (s : State) : (writeSpecial k s).cur = s.cur := by
  cases k <;> rfl
@[simp] theorem writeSpecial_emag (k : Kind) (s : State) : (writeSpecial k s).emag = s.emag := by
  cases k <;> rfl
@[simp] theorem writeSpecial_tbit (k : Kind) (s : State) : (writeSpecial k s).tbit = s.tbit := by
  cases k <;> rfl
@[simp] theorem writeSpecial_nbits (k : Kind) (s : State) : (writeSpecial k s).nbits = s.nbits := by
  cases k <;> rfl
@[simp] theorem writeSpecial_val (k : Kind) (s : State) : (writeSpecial k s).val = s.val := by
  cases k <;> rfl
@[simp] theorem writeSpecial_kind (k : Kind) (s : State) : (writeSpecial k s).kind = s.kind := by
  cases k <;> rfl
@[simp] theorem writeSpecial_kbuf (k : Kind) (s : State) : (writeSpecial k s).kbuf = s.kbuf := by
  cases k <;> rfl
@[simp] theorem writeSpecial_scr (k : Kind) (s : State) : (writeSpecial k s).scr = s.scr := by
  cases k <;> rfl
@[simp] theorem writeSpecial_resp (k : Kind) (s : State) : (writeSpecial k s).resp = s.resp := by
  cases k <;> rfl
@[simp] theorem writeSpecial_pending (k : Kind) (s : State) : (writeSpecial k s).pending = s.pending := by
  cases k <;> rfl
@[simp] theorem writeSpecial_resets (k : Kind) (s : State) : (writeSpecial k s).resets = s.resets := by
  cases k <;> rfl

@[simp] theorem decodeSpecial_params (k : Kind) (s : State) : (decodeSpecial k s).params = s.params := by
  cases k <;> rfl
@[simp] theorem decodeSpecial_status (k : Kind) (s : State) : (decodeSpecial k s).status = s.status := by
  cases k <;> rfl
@[simp] theorem decodeSpecial_detail (k : Kind) (s : State) : (decodeSpecial k s).detail = s.detail := by
  cases k <;> rfl
@[simp] theorem decodeSpecial_klen (k : Kind) (s : State) : (decodeSpecial k s).klen = s.klen := by
  cases k <;> rfl
@[simp] theorem decodeSpecial_cur (k : Kind) (s : State) : (decodeSpecial k s).cur = 8#32 := rfl
@[simp] theorem decodeSpecial_emag (k : Kind) (s : State) : (decodeSpecial k s).emag = s.emag := by
  cases k <;> rfl
@[simp] theorem decodeSpecial_tbit (k : Kind) (s : State) : (decodeSpecial k s).tbit = s.tbit := by
  cases k <;> rfl
@[simp] theorem decodeSpecial_nbits (k : Kind) (s : State) : (decodeSpecial k s).nbits = s.nbits := by
  cases k <;> rfl
@[simp] theorem decodeSpecial_val (k : Kind) (s : State) : (decodeSpecial k s).val = s.val := by
  cases k <;> rfl
@[simp] theorem decodeSpecial_kind (k : Kind) (s : State) : (decodeSpecial k s).kind = s.kind := by
  cases k <;> rfl
@[simp] theorem decodeSpecial_kbuf (k : Kind) (s : State) : (decodeSpecial k s).kbuf = s.kbuf := by
  cases k <;> rfl
@[simp] theorem decodeSpecial_scr (k : Kind) (s : State) : (decodeSpecial k s).scr = s.scr := by
  cases k <;> rfl
@[simp] theorem decodeSpecial_resp (k : Kind) (s : State) : (decodeSpecial k s).resp = s.resp := by
  cases k <;> rfl
@[simp] theorem decodeSpecial_pending (k : Kind) (s : State) : (decodeSpecial k s).pending = s.pending := by
  cases k <;> rfl
@[simp] theorem decodeSpecial_resets (k : Kind) (s : State) : (decodeSpecial k s).resets = s.resets := by
  cases k <;> rfl

@[simp] theorem writeSpecial_dig_length (k : Kind) (s : State) :
    (writeSpecial k s).dig.length = s.dig.length := by
  cases k <;> simp [writeSpecial]

@[simp] theorem decodeSpecial_dig_length (k : Kind) (s : State) :
    (decodeSpecial k s).dig.length = s.dig.length := writeSpecial_dig_length k s

/-! ## The named updates are reports -/

theorem enterFault_eq_reported (d : Detail) (s : State) :
    enterFault d s = s.reported d.status.code d.code := rfl

theorem succeed_eq_reported (s : State) : succeed s = s.reported 0#3 0#5 := rfl

@[simp] theorem reported_reported (s : State) (a a' : BitVec 3) (b b' : BitVec 5) :
    (s.reported a b).reported a' b' = s.reported a' b' := rfl

@[simp] theorem finish_ok (s t : State) : finish s (.ok t) = t.reported 0#3 0#5 := rfl

@[simp] theorem finish_error (s : State) (d : Detail) :
    finish s (.error d) = s.reported d.status.code d.code := rfl

/-- HOW AN OPERATION ENDS, said once (60_exceptions.md R218, R219): with its result reported OK, or with the state
as it was and the detail code it raised. -/
theorem finish_cases (s : State) (r : Except Detail State) :
    (∃ t, r = .ok t ∧ finish s r = t.reported 0#3 0#5) ∨
    (∃ d, r = .error d ∧ finish s r = s.reported d.status.code d.code) := by
  cases r with
  | ok t => exact .inl ⟨t, rfl, rfl⟩
  | error d => exact .inr ⟨d, rfl, rfl⟩

/-- No fault's status is OK (60_exceptions.md R210, R211). -/
theorem status_code_ne_ok (d : Detail) : d.status.code ≠ 0#3 := by cases d <;> decide

/-- An operation that ends with STATUS OK has done its work. -/
theorem finish_ok_of_status {s : State} {r : Except Detail State} (h : (finish s r).status = 0#3) :
    ∃ t, r = .ok t ∧ finish s r = t.reported 0#3 0#5 := by
  rcases finish_cases s r with ⟨t, h1, h2⟩ | ⟨d, -, h2⟩
  · exact ⟨t, h1, h2⟩
  · rw [h2] at h
    exact absurd h (status_code_ne_ok d)

end Sys2Proof.Machine
end

