-- ==== Sys2Proof/Laws/Ops.lean ====
section
/-! SUPPORT. The shared operations, each said once: overlays, the parameters' bounds, the buffers' one form
(Memory.wf), the classifiers, the register map, the command decoder. -/

namespace Sys2Proof.Machine

/-! ## Parameters (00_scope.md R8 to R10) -/

theorem valid_iff {p : Params} : p.valid = true ↔
    0 < p.dmax ∧ p.dmax % 3 = 0 ∧ p.dmax ≤ 4096 ∧ 5 ≤ p.m ∧ p.m ≤ 31 ∧ p.elim ≤ 2 ^ p.m - 1 ∧
      p.elim + p.dmax ≤ 2 ^ 31 - 1 := by
  simp [Params.valid, and_assoc]

/-- KBUF holds the longest key (R10). -/
theorem bits_le_kmax (p : Params) : 2 * p.m + 4 + 10 * (p.dmax / 3) ≤ 8 * p.kmax := by
  simp only [Params.kmax]; omega

theorem kmax_le {p : Params} (h : p.valid = true) : p.kmax ≤ 1715 := by
  obtain ⟨-, -, h1, -, h2, -⟩ := valid_iff.mp h
  simp only [Params.kmax]; omega

theorem kmax_ge {p : Params} (h : p.valid = true) : 3 ≤ p.kmax := by
  obtain ⟨h1, h2, -, h3, -⟩ := valid_iff.mp h
  simp only [Params.kmax]; omega

/-! ## Overlays and cells -/

theorem overlay_length {α : Type} {new old : List α} (h : new.length ≤ old.length) :
    (overlay new old).length = old.length := by
  simp [overlay, h]

theorem overlay_getD_lt {α : Type} {new old : List α} {i : Nat} (x : α) (h : i < new.length) :
    (overlay new old).getD i x = new.getD i x := by
  simp [overlay, List.getD_eq_getElem?_getD, List.getElem?_append_left h]

theorem overlay_getD_ge {α : Type} {new old : List α} {i : Nat} (x : α) (h : new.length ≤ i) :
    (overlay new old).getD i x = old.getD i x := by
  simp [overlay, List.getD_eq_getElem?_getD, List.getElem?_append_right h, Nat.add_sub_cancel' h]

theorem overlay_take {α : Type} (new old : List α) : (overlay new old).take new.length = new := by
  simp [overlay]

@[simp] theorem toCells_length (d : List Nat) : (toCells d).length = d.length := by simp [toCells]

theorem map_toNat_toCells {d : List Nat} (h : AllDigits d) : (toCells d).map (·.toNat) = d := by
  induction d with
  | nil => rfl
  | cons x d ih =>
    rw [AllDigits_cons] at h
    simp only [toCells, List.map_cons, List.map_map] at ih ⊢
    rw [ih h.2, BitVec.toNat_ofNat, Nat.mod_eq_of_lt (by omega)]

theorem toCells_getD {d : List Nat} (h : AllDigits d) (i : Nat) :
    ((toCells d).getD i 0#4).toNat = d.getD i 0 := by
  conv_rhs => rw [← map_toNat_toCells h]
  rw [List.getD_eq_getElem?_getD, List.getD_eq_getElem?_getD, List.getElem?_map]
  cases (toCells d)[i]? <;> rfl

/-- Cell by cell, an overlay of digits holds the digits and then what was there. -/
theorem overlay_toCells_lt {d : List Nat} (h : AllDigits d) {old : List Cell4} {i : Nat}
    (hi : i < d.length) : ((overlay (toCells d) old).getD i 0#4).toNat = d.getD i 0 := by
  rw [overlay_getD_lt _ (by simpa using hi), toCells_getD h]

theorem overlay_toCells_ge {d : List Nat} {old : List Cell4} {i : Nat} (hi : d.length ≤ i) :
    (overlay (toCells d) old).getD i 0#4 = old.getD i 0#4 :=
  overlay_getD_ge _ (by simpa using hi)

/-- The digits read back from an overlay are the digits written. -/
theorem digits_overlay {d : List Nat} (h : AllDigits d) (old : List Cell4) :
    ((overlay (toCells d) old).take d.length).map (·.toNat) = d := by
  have := overlay_take (toCells d) old
  rw [toCells_length] at this
  rw [this, map_toNat_toCells h]

theorem digits_length {s : State} {n : Nat} (h : n ≤ s.dig.length) : (s.digits n).length = n := by
  simp [State.digits, h]

theorem digits_getD {s : State} {n i : Nat} (h : i < n) :
    (s.digits n).getD i 0 = (s.dig.getD i 0#4).toNat := by
  simp only [State.digits, List.getD_eq_getElem?_getD, List.getElem?_map, List.getElem?_take, if_pos h]
  cases s.dig[i]? <;> rfl

/-! ## The stream of an instance: KBUF, KLEN and CUR -/

@[simp] theorem stream_k (s : State) : s.stream.k = s.kbuf := rfl
@[simp] theorem stream_len (s : State) : s.stream.len = s.klen.toNat := rfl
@[simp] theorem stream_off (s : State) : s.stream.off = s.cur.toNat := rfl

/-- A stream whose length and cursor fit their registers is read back as it was written. -/
theorem stream_setStream (s : State) {st : KeyStream} (h1 : st.len < 2 ^ 32) (h2 : st.off < 2 ^ 32) :
    (s.setStream st).stream = st := by
  simp only [State.stream, setStream_kbuf, setStream_klen, setStream_cur, BitVec.toNat_ofNat,
    Nat.mod_eq_of_lt h1, Nat.mod_eq_of_lt h2]

/-- Packing within KBUF leaves a key within KBUF. -/
theorem packBits_len_le {s : State} {bs : List Bool} (h1 : s.klen.toNat ≤ s.params.kmax)
    (h2 : s.cur.toNat + bs.length ≤ 8 * s.params.kmax) :
    (s.stream.packBits bs).len ≤ s.params.kmax := by
  rw [packBits_len, stream_len, stream_off]
  split
  · exact h1
  · rename_i h
    have : bs.length ≠ 0 := by simpa using h
    omega

/-! ## The buffers' one form (10_state.md R26, R38) -/

theorem wf_iff {s : State} : Memory.wf s = true ↔
    s.dig.length = s.params.dmax ∧ s.kbuf.length = s.params.kmax ∧ s.scr.length = s.params.dmax := by
  simp [Memory.wf, and_assoc]

/-- An update that keeps the parameters and the sizes keeps the form. -/
theorem wf_of_sizes {s t : State} (h : Memory.wf s = true) (hp : t.params = s.params)
    (hd : t.dig.length = s.dig.length) (hk : t.kbuf.length = s.kbuf.length)
    (hs : t.scr.length = s.scr.length) : Memory.wf t = true := by
  rw [wf_iff] at h ⊢
  rw [hp, hd, hk, hs]
  exact h

theorem wf_reported {s : State} (a : BitVec 3) (b : BitVec 5) (h : Memory.wf s = true) :
    Memory.wf (s.reported a b) = true := wf_of_sizes h rfl rfl rfl rfl

theorem wf_setStream {s : State} (bs : List Bool) (h : Memory.wf s = true) :
    Memory.wf (s.setStream (s.stream.packBits bs)) = true :=
  wf_of_sizes h rfl rfl (packBits_k_length s.stream bs) rfl

theorem wf_setCoefficient {s : State} {d : List Nat} (hd : d.length ≤ s.params.dmax)
    (h : Memory.wf s = true) : Memory.wf (s.setCoefficient d) = true := by
  obtain ⟨h1, -, h3⟩ := wf_iff.mp h
  exact wf_of_sizes h rfl (overlay_length (by simpa [h1] using hd)) rfl
    (overlay_length (by simpa [h3] using hd))

theorem wf_encodeSpecial {s : State} (b : Byte) (h : Memory.wf s = true) :
    Memory.wf (encodeSpecial b s) = true := wf_of_sizes h rfl rfl (by simp) rfl

theorem wf_decodeSpecial {s : State} (k : Kind) (h : Memory.wf s = true) :
    Memory.wf (decodeSpecial k s) = true :=
  wf_of_sizes h (by simp) (by simp) (by simp) (by simp)

theorem wf_resetBlock (s : State) : Memory.wf (resetBlock s) = true :=
  wf_iff.mpr ⟨by simp [resetBlock, State.afterReset], by simp [resetBlock, State.afterReset],
    by simp [resetBlock, State.afterReset]⟩

theorem wf_reset : Memory.wf State.reset = true := by decide

theorem wf_writeRegister {s t : State} {r : Nat} {v : Word} (h : Memory.wf s = true)
    (hw : writeRegister s r v = some t) : Memory.wf t = true := by
  unfold writeRegister at hw
  split at hw
  all_goals first
    | cases hw; exact wf_of_sizes h rfl rfl rfl rfl
    | (split at hw
       · cases hw; exact wf_of_sizes h rfl (by simp) rfl rfl
       · split at hw
         · cases hw; exact wf_of_sizes h rfl rfl (by simp) rfl
         · cases hw)
    | cases hw

/-! ## The classifiers (43_special.md R165, R167) -/

/-- KINDV, said once: the kind with what it says of the registers, or the fault. -/
theorem kindv_cases (s : State) :
    (s.cls = 3#2 ∧ kindv s = .error .badClass) ∨
    (s.cls = 2#2 ∧ kindv s = .ok .nan) ∨
    (s.cls = 1#2 ∧ kindv s = .ok (if s.negative then .negInf else .posInf)) ∨
    (s.cls = 0#2 ∧ (s.dcnt.toNat = 0 ∨ s.params.dmax < s.dcnt.toNat) ∧ kindv s = .error .badDigitCount) ∨
    (s.cls = 0#2 ∧ 1 ≤ s.dcnt.toNat ∧ s.dcnt.toNat ≤ s.params.dmax ∧ (∃ x ∈ s.coefficient, 9 < x) ∧
      kindv s = .error .badDigit) ∨
    (s.cls = 0#2 ∧ 1 ≤ s.dcnt.toNat ∧ s.dcnt.toNat ≤ s.params.dmax ∧ (∀ x ∈ s.coefficient, x = 0) ∧
      kindv s = .ok (if s.negative then .negZero else .posZero)) ∨
    (s.cls = 0#2 ∧ 1 ≤ s.dcnt.toNat ∧ s.dcnt.toNat ≤ s.params.dmax ∧ AllDigits s.coefficient ∧
      (∃ x ∈ s.coefficient, x ≠ 0) ∧ kindv s = .ok (if s.negative then .negFinite else .posFinite)) := by
  have hc : s.cls = 0#2 ∨ s.cls = 1#2 ∨ s.cls = 2#2 ∨ s.cls = 3#2 := by
    generalize s.cls = c
    revert c
    decide
  rcases hc with hc | hc | hc | hc
  · by_cases hn : s.dcnt.toNat = 0 ∨ s.params.dmax < s.dcnt.toNat
    · exact .inr (.inr (.inr (.inl ⟨hc, hn, by simp [kindv, hc, hn]⟩)))
    · have h1 : 1 ≤ s.dcnt.toNat := by omega
      have h2 : s.dcnt.toNat ≤ s.params.dmax := by omega
      cases hb : badDigits s.coefficient
      · have hd := badDigits_eq_false.mp hb
        cases hz : allZero s.coefficient
        · refine .inr (.inr (.inr (.inr (.inr (.inr
            ⟨hc, h1, h2, hd, allZero_eq_false.mp hz, ?_⟩)))))
          simp only [kindv, hc, if_neg hn, hb, hz]; rfl
        · refine .inr (.inr (.inr (.inr (.inr (.inl ⟨hc, h1, h2, allZero_iff.mp hz, ?_⟩)))))
          simp only [kindv, hc, if_neg hn, hb, hz]; rfl
      · refine .inr (.inr (.inr (.inr (.inl ⟨hc, h1, h2, badDigits_iff.mp hb, ?_⟩))))
        simp only [kindv, hc, if_neg hn, hb]; rfl
  · exact .inr (.inr (.inl ⟨hc, by simp [kindv, hc]⟩))
  · exact .inr (.inl ⟨hc, by simp [kindv, hc]⟩)
  · exact .inl ⟨hc, by simp [kindv, hc]⟩

/-- The faults of KINDV are UnsupportedValue. -/
theorem kindv_error {s : State} {d : Detail} (h : kindv s = .error d) :
    d = .badClass ∨ d = .badDigitCount ∨ d = .badDigit := by
  rcases kindv_cases s with ⟨-, e⟩ | ⟨-, e⟩ | ⟨-, e⟩ | ⟨-, -, e⟩ | ⟨-, -, -, -, e⟩ | ⟨-, -, -, -, e⟩ |
    ⟨-, -, -, -, -, e⟩ <;> rw [h] at e <;> cases e <;> simp

/-- The kind of a finite nonzero value. -/
theorem kindv_finite {s : State} (hc : s.cls = 0#2) (h1 : 1 ≤ s.dcnt.toNat)
    (h2 : s.dcnt.toNat ≤ s.params.dmax) (hd : AllDigits s.coefficient)
    (hz : ∃ x ∈ s.coefficient, x ≠ 0) :
    kindv s = .ok (if s.negative then .negFinite else .posFinite) := by
  have hb := badDigits_eq_false.mpr hd
  have hz' := allZero_eq_false.mpr hz
  have hn : ¬(s.dcnt.toNat = 0 ∨ s.params.dmax < s.dcnt.toNat) := by omega
  simp only [kindv, hc, if_neg hn, hb, hz']; rfl

/-- A kind without a one-byte key is a finite nonzero value's. -/
theorem finite_of_kindv {s : State} {k : Kind} (h : kindv s = .ok k) (hb : k.keyByte = none) :
    s.cls = 0#2 ∧ 1 ≤ s.dcnt.toNat ∧ s.dcnt.toNat ≤ s.params.dmax ∧ AllDigits s.coefficient ∧
      ∃ x ∈ s.coefficient, x ≠ 0 := by
  rcases kindv_cases s with ⟨-, e⟩ | ⟨-, e⟩ | ⟨-, e⟩ | ⟨-, -, e⟩ | ⟨-, -, -, -, e⟩ | ⟨-, -, -, -, e⟩ |
    ⟨h0, h1, h2, h3, h4, -⟩
  on_goal 7 => exact ⟨h0, h1, h2, h3, h4⟩
  all_goals
    rw [h] at e
    cases e <;> revert hb <;> cases s.negative <;> simp [Kind.keyByte]

/-- A kind with a one-byte key is an infinity's, a NaN's or a zero's. -/
theorem special_of_kindv {s : State} {k : Kind} {b : Byte} (h : kindv s = .ok k)
    (hb : k.keyByte = some b) :
    (s.cls = 2#2 ∧ k = .nan) ∨ (s.cls = 1#2 ∧ k = if s.negative then .negInf else .posInf) ∨
    (s.cls = 0#2 ∧ 1 ≤ s.dcnt.toNat ∧ s.dcnt.toNat ≤ s.params.dmax ∧ (∀ x ∈ s.coefficient, x = 0) ∧
      k = if s.negative then .negZero else .posZero) := by
  rcases kindv_cases s with ⟨-, e⟩ | ⟨h0, e⟩ | ⟨h0, e⟩ | ⟨-, -, e⟩ | ⟨-, -, -, -, e⟩ |
    ⟨h0, h1, h2, h3, e⟩ | ⟨-, -, -, -, -, e⟩ <;> rw [h] at e <;> cases e
  · exact .inl ⟨h0, rfl⟩
  · exact .inr (.inl ⟨h0, rfl⟩)
  · exact .inr (.inr ⟨h0, h1, h2, h3, rfl⟩)
  · revert hb
    cases s.negative <;> simp [Kind.keyByte]

/-- The kind of a zero. -/
theorem kindv_zero {s : State} (hc : s.cls = 0#2) (h1 : 1 ≤ s.dcnt.toNat)
    (h2 : s.dcnt.toNat ≤ s.params.dmax) (hz : ∀ x ∈ s.coefficient, x = 0) :
    kindv s = .ok (if s.negative then .negZero else .posZero) := by
  have hb := badDigits_eq_false.mpr (fun x hx => by rw [hz x hx]; decide : AllDigits s.coefficient)
  have hz' := allZero_iff.mpr hz
  have hn : ¬(s.dcnt.toNat = 0 ∨ s.params.dmax < s.dcnt.toNat) := by omega
  simp only [kindv, hc, if_neg hn, hb, hz']; rfl

/-- The one-byte lookup, said once (30_encoding.md R71). -/
theorem kindOfByte_cases (b : Byte) :
    (b = 0x00#8 ∧ kindOfByte b = .ok .negInf) ∨ (b = 0x40#8 ∧ kindOfByte b = .ok .negZero) ∨
    (b = 0x80#8 ∧ kindOfByte b = .ok .posZero) ∨ (b = 0xC0#8 ∧ kindOfByte b = .ok .posInf) ∨
    (b = 0xE0#8 ∧ kindOfByte b = .ok .nan) ∨
    (b ≠ 0x00#8 ∧ b ≠ 0x40#8 ∧ b ≠ 0x80#8 ∧ b ≠ 0xC0#8 ∧ b ≠ 0xE0#8 ∧
      kindOfByte b = .error .unknownSpecial) := by
  revert b; decide

/-- The header tests, said once, by the first byte as a number (43_special.md R167, 44_orchestrator.md R188). -/
theorem kindOfLead_cases (b : Byte) :
    ((0x40 ≤ b.toNat ∧ b.toNat < 0x80 ∨ 0xC0 ≤ b.toNat) ∧ kindOfLead b = .error .badSign) ∨
    ((0x20 ≤ b.toNat ∧ b.toNat < 0x40 ∨ 0xA0 ≤ b.toNat ∧ b.toNat < 0xC0) ∧
      kindOfLead b = .error .badPad) ∨
    ((0x10 ≤ b.toNat ∧ b.toNat ≤ 0x13 ∨ 0x8C ≤ b.toNat ∧ b.toNat ≤ 0x8F) ∧
      kindOfLead b = .error .negZeroExponent) ∨
    ((b.toNat ≤ 0x0F ∨ 0x14 ≤ b.toNat ∧ b.toNat ≤ 0x1F) ∧ kindOfLead b = .ok .negFinite) ∨
    ((0x80 ≤ b.toNat ∧ b.toNat ≤ 0x8B ∨ 0x90 ≤ b.toNat ∧ b.toNat ≤ 0x9F) ∧
      kindOfLead b = .ok .posFinite) := by
  revert b; decide

/-- KINDK, said once: the fault of the length, or the lookup the length chooses. -/
theorem kindk_cases (s : State) :
    (s.klen.toNat = 0 ∧ kindk s = .error .emptyKey) ∨
    (s.klen.toNat ≠ 0 ∧ s.params.kmax < s.klen.toNat ∧ kindk s = .error .keyTooLong) ∨
    (s.klen.toNat = 1 ∧ 1 ≤ s.params.kmax ∧ kindk s = kindOfByte s.lead) ∨
    (2 ≤ s.klen.toNat ∧ s.klen.toNat ≤ s.params.kmax ∧ kindk s = kindOfLead s.lead) := by
  by_cases h0 : s.klen.toNat = 0
  · exact .inl ⟨h0, by simp [kindk, h0]⟩
  by_cases h1 : s.params.kmax < s.klen.toNat
  · exact .inr (.inl ⟨h0, h1, by simp [kindk, h0, h1]⟩)
  by_cases h2 : s.klen.toNat = 1
  · refine .inr (.inr (.inl ⟨h2, by omega, ?_⟩))
    rw [kindk, if_neg h0, if_neg h1, if_pos h2]
  · refine .inr (.inr (.inr ⟨by omega, by omega, ?_⟩))
    rw [kindk, if_neg h0, if_neg h1, if_neg h2]

/-- The faults of KINDK are InvalidEncoding. -/
theorem kindk_error {s : State} {d : Detail} (h : kindk s = .error d) :
    d = .emptyKey ∨ d = .keyTooLong ∨ d = .unknownSpecial ∨ d = .badSign ∨ d = .badPad ∨
      d = .negZeroExponent := by
  rcases kindk_cases s with ⟨-, e⟩ | ⟨-, -, e⟩ | ⟨-, -, e⟩ | ⟨-, -, e⟩
  · rw [h] at e; cases e; simp
  · rw [h] at e; cases e; simp
  · rw [h] at e
    rcases kindOfByte_cases s.lead with ⟨-, f⟩ | ⟨-, f⟩ | ⟨-, f⟩ | ⟨-, f⟩ | ⟨-, f⟩ | ⟨-, -, -, -, -, f⟩ <;>
      (rw [← e] at f; cases f; try simp)
  · rw [h] at e
    rcases kindOfLead_cases s.lead with ⟨-, f⟩ | ⟨-, f⟩ | ⟨-, f⟩ | ⟨-, f⟩ | ⟨-, f⟩ <;>
      rw [← e] at f <;> cases f <;> simp

/-- The one-byte keys and their kinds are one table, read both ways (30_encoding.md R71). -/
theorem keyByte_kindOfByte (k : Kind) (b : Byte) : k.keyByte = some b ↔ kindOfByte b = .ok k := by
  constructor
  · intro h
    cases k <;> cases h <;> rfl
  · intro h
    rcases kindOfByte_cases b with ⟨rfl, f⟩ | ⟨rfl, f⟩ | ⟨rfl, f⟩ | ⟨rfl, f⟩ | ⟨rfl, f⟩ |
      ⟨-, -, -, -, -, f⟩ <;> rw [h] at f <;> cases f <;> rfl

/-! ## The register map (10_state.md R26) -/

/-- A number above the scalars names a DIG cell, a KBUF byte or nothing (R26, 40_cursor.md R104). -/
theorem readRegister_high {s : State} {r : Nat} (h : 0x0D < r) :
    readRegister s r =
      if digBase ≤ r ∧ r < digBase + s.params.dmax then
        some ((s.dig.getD (r - digBase) 0#4).setWidth 32)
      else if kbufBase ≤ r ∧ r < kbufBase + s.params.kmax then
        some ((s.kbuf.getD (r - kbufBase) 0#8).setWidth 32)
      else none := by
  unfold readRegister
  split
  all_goals first | exact absurd h (by decide) | rfl

theorem writeRegister_high {s : State} {r : Nat} {v : Word} (h : 0x0D < r) :
    writeRegister s r v =
      if digBase ≤ r ∧ r < digBase + s.params.dmax then
        some { s with dig := s.dig.set (r - digBase) (v.setWidth 4) }
      else if kbufBase ≤ r ∧ r < kbufBase + s.params.kmax then
        some { s with kbuf := s.kbuf.set (r - kbufBase) (v.setWidth 8) }
      else none := by
  unfold writeRegister
  split
  all_goals first | exact absurd h (by decide) | rfl

/-- RD, said once (40_cursor.md R104). -/
theorem exec_rd (s : State) (r : Nat) :
    exec (.rd r) s = .next { s with
      resp := match readRegister s r with | some v => .value v | none => .busError } := by
  show execRd r s = _
  unfold execRd
  cases readRegister s r <;> rfl

/-- WR of a register that takes it, said once (40_cursor.md R105). -/
theorem exec_wr_some {s t : State} {r : Nat} {v : Word} (h0 : r ≠ 0)
    (h : writeRegister s r v = some t) : exec (.wr r v) s = .next { t with resp := .done } := by
  show execWr r v s = _
  rw [execWr, if_neg (show r ≠ cmdNumber from h0), h]

/-- WR of a read-only register or of no register (40_cursor.md R105). -/
theorem exec_wr_none {s : State} {r : Nat} {v : Word} (h0 : r ≠ 0)
    (h : writeRegister s r v = none) : exec (.wr r v) s = .next { s with resp := .busError } := by
  show execWr r v s = _
  rw [execWr, if_neg (show r ≠ cmdNumber from h0), h]

/-- WR of CMD is the command it starts (40_cursor.md R105). -/
theorem exec_wr_cmd (s : State) (v : Word) : exec (.wr 0 v) s = writeCommand (v.setWidth 16) s := rfl

/-- A WR changes no parameter, no report, no KIND and no NBITS (40_cursor.md R105). -/
theorem writeRegister_frame {s t : State} {r : Nat} {v : Word} (h : writeRegister s r v = some t) :
    t.params = s.params ∧ t.status = s.status ∧ t.detail = s.detail ∧ t.kind = s.kind ∧
      t.nbits = s.nbits ∧ t.val = s.val ∧ t.scr = s.scr ∧ t.pending = s.pending ∧
      t.resets = s.resets := by
  unfold writeRegister at h
  split at h
  all_goals first
    | cases h; exact ⟨rfl, rfl, rfl, rfl, rfl, rfl, rfl, rfl, rfl⟩
    | (split at h
       · cases h; exact ⟨rfl, rfl, rfl, rfl, rfl, rfl, rfl, rfl, rfl⟩
       · split at h
         · cases h; exact ⟨rfl, rfl, rfl, rfl, rfl, rfl, rfl, rfl, rfl⟩
         · cases h)
    | cases h

/-! ## The command decoder (30_encoding.md R83, R84) -/

theorem plainCommand_ok {w : CommandWord} {i j : Instr} (h : plainCommand w i = .ok j) : j = i := by
  rw [plainCommand] at h
  split at h
  · injection h with h; exact h.symm
  · cases h

/-- A command word stands for a command. -/
theorem isCommand_of_decodeCommand {w : CommandWord} {i : Instr} (h : decodeCommand w = .ok i) :
    i.isCommand = true := by
  unfold decodeCommand at h
  split at h
  all_goals first
    | (injection h with h; subst h; rfl)
    | (have := plainCommand_ok h; subst this; rfl)
    | (split at h
       · injection h with h; subst h; rfl
       · split at h <;> cases h)

/-- A command word the decoder rejects is an illegal one: BadWidth or ReservedField (R84). -/
theorem decodeCommand_error {w : CommandWord} {e : Reject} (h : decodeCommand w = .error e) :
    e = .badWidth ∨ e = .reservedField := by
  have hp : ∀ i, plainCommand w i = .error e → e = .badWidth ∨ e = .reservedField := by
    intro i h
    rw [plainCommand] at h
    split at h
    · cases h
    · injection h with h; exact .inr h.symm
  unfold decodeCommand at h
  split at h
  all_goals first
    | exact hp _ h
    | cases h
    | (split at h
       · cases h
       · split at h
         · injection h with h; exact .inl h.symm
         · injection h with h; exact .inr h.symm)

end Sys2Proof.Machine
end

