-- ==== Sys2Proof/Laws/Operations.lean ====
section
/-! SUPPORT. Each operation of the block, said once: what it does where it succeeds, and which detail codes it
raises. Callers cite these and never unfold an operation. -/

namespace Sys2Proof.Machine

/-! ## The Bit-Stream Cursor (40_cursor.md R102, R103) -/

theorem badFieldWidth_iff {n : BitVec 4} : badFieldWidth n = true ↔ n.toNat = 0 ∨ 8 < n.toNat := by
  simp [badFieldWidth]

/-- PACK, said once. -/
theorem packOp_cases (n : BitVec 4) (bits : Byte) (s : State) :
    ((n.toNat = 0 ∨ 8 < n.toNat) ∧ packOp n bits s = .error .badWidth) ∨
    (1 ≤ n.toNat ∧ n.toNat ≤ 8 ∧
      (s.params.kmax < s.klen.toNat ∨ 8 * s.params.kmax < s.cur.toNat + n.toNat) ∧
      packOp n bits s = .error .capacity) ∨
    (1 ≤ n.toNat ∧ n.toNat ≤ 8 ∧ s.klen.toNat ≤ s.params.kmax ∧
      s.cur.toNat + n.toNat ≤ 8 * s.params.kmax ∧
      packOp n bits s = .ok (s.setStream (s.stream.pack bits.toNat n.toNat))) := by
  by_cases hn : n.toNat = 0 ∨ 8 < n.toNat
  · exact .inl ⟨hn, by rw [packOp, if_pos (badFieldWidth_iff.mpr hn)]⟩
  have hn' : ¬badFieldWidth n = true := fun h => hn (badFieldWidth_iff.mp h)
  by_cases h1 : s.params.kmax < s.klen.toNat
  · exact .inr (.inl ⟨by omega, by omega, .inl h1, by rw [packOp, if_neg hn', if_pos h1]⟩)
  by_cases h2 : 8 * s.params.kmax < s.cur.toNat + n.toNat
  · exact .inr (.inl ⟨by omega, by omega, .inr h2, by rw [packOp, if_neg hn', if_neg h1, if_pos h2]⟩)
  · exact .inr (.inr ⟨by omega, by omega, by omega, by omega,
      by rw [packOp, if_neg hn', if_neg h1, if_neg h2]⟩)

/-- UNPACK, said once. -/
theorem unpackOp_cases (n : BitVec 4) (s : State) :
    ((n.toNat = 0 ∨ 8 < n.toNat) ∧ unpackOp n s = .error .badWidth) ∨
    (1 ≤ n.toNat ∧ n.toNat ≤ 8 ∧ s.params.kmax < s.klen.toNat ∧ unpackOp n s = .error .keyTooLong) ∨
    (1 ≤ n.toNat ∧ n.toNat ≤ 8 ∧ s.klen.toNat ≤ s.params.kmax ∧
      8 * s.klen.toNat < s.cur.toNat + n.toNat ∧ unpackOp n s = .error .truncated) ∨
    (1 ≤ n.toNat ∧ n.toNat ≤ 8 ∧ s.klen.toNat ≤ s.params.kmax ∧
      s.cur.toNat + n.toNat ≤ 8 * s.klen.toNat ∧
      unpackOp n s = .ok { s with
        val := BitVec.ofNat 8 (unpack s.kbuf s.cur.toNat n.toNat)
        cur := BitVec.ofNat 32 (s.cur.toNat + n.toNat) }) := by
  by_cases hn : n.toNat = 0 ∨ 8 < n.toNat
  · exact .inl ⟨hn, by rw [unpackOp, if_pos (badFieldWidth_iff.mpr hn)]⟩
  have hn' : ¬badFieldWidth n = true := fun h => hn (badFieldWidth_iff.mp h)
  by_cases h1 : s.params.kmax < s.klen.toNat
  · exact .inr (.inl ⟨by omega, by omega, h1, by rw [unpackOp, if_neg hn', if_pos h1]⟩)
  by_cases h2 : 8 * s.klen.toNat < s.cur.toNat + n.toNat
  · exact .inr (.inr (.inl ⟨by omega, by omega, by omega, h2,
      by rw [unpackOp, if_neg hn', if_neg h1, if_pos h2]⟩))
  · exact .inr (.inr (.inr ⟨by omega, by omega, by omega, by omega,
      by rw [unpackOp, if_neg hn', if_neg h1, if_neg h2]⟩))

/-! ## The Exponent Codec (41_exponent.md R122, R124) -/

/-- EXPENC, said once. -/
theorem expencOp_cases (s : State) :
    (s.params.elim < s.emag.toNat ∧ expencOp s = .error .exponentOutOfRange) ∨
    (s.emag.toNat ≤ s.params.elim ∧
      (s.params.kmax < s.klen.toNat ∨
        8 * s.params.kmax < s.cur.toNat + (2 * expN s.emag.toNat - 2)) ∧
      expencOp s = .error .capacity) ∨
    (s.emag.toNat ≤ s.params.elim ∧ s.klen.toNat ≤ s.params.kmax ∧
      s.cur.toNat + (2 * expN s.emag.toNat - 2) ≤ 8 * s.params.kmax ∧
      expencOp s = .ok { s.setStream (s.stream.packBits (expfield s.emag.toNat s.tIndicator).tail) with
        nbits := BitVec.ofNat 6 (expN s.emag.toNat) }) := by
  by_cases h0 : s.params.elim < s.emag.toNat
  · exact .inl ⟨h0, by simp only [expencOp, if_pos h0]⟩
  by_cases h1 : s.params.kmax < s.klen.toNat
  · exact .inr (.inl ⟨by omega, .inl h1, by simp only [expencOp, if_neg h0, if_pos h1]⟩)
  by_cases h2 : 8 * s.params.kmax < s.cur.toNat + (2 * expN s.emag.toNat - 2)
  · exact .inr (.inl ⟨by omega, .inr h2, by simp only [expencOp, if_neg h0, if_neg h1, if_pos h2]⟩)
  · exact .inr (.inr ⟨by omega, by omega, by omega,
      by simp only [expencOp, if_neg h0, if_neg h1, if_neg h2]⟩)

/-- EXPDEC, said once. -/
theorem expdecOp_cases (s : State) :
    (s.params.kmax < s.klen.toNat ∧ expdecOp s = .error .keyTooLong) ∨
    (∃ d, s.klen.toNat ≤ s.params.kmax ∧
      expdec s.params s.kbuf s.klen.toNat s.cur.toNat s.tIndicator = .error d ∧
      expdecOp s = .error d) ∨
    (∃ f, s.klen.toNat ≤ s.params.kmax ∧
      expdec s.params s.kbuf s.klen.toNat s.cur.toNat s.tIndicator = .ok f ∧
      expdecOp s = .ok { s with
        emag := BitVec.ofNat 32 f.e
        nbits := BitVec.ofNat 6 f.n
        cur := BitVec.ofNat 32 f.off }) := by
  by_cases h1 : s.params.kmax < s.klen.toNat
  · exact .inl ⟨h1, by rw [expdecOp, if_pos h1]⟩
  · cases h : expdec s.params s.kbuf s.klen.toNat s.cur.toNat s.tIndicator with
    | error d => exact .inr (.inl ⟨d, by omega, rfl, by rw [expdecOp, if_neg h1, h]⟩)
    | ok f => exact .inr (.inr ⟨f, by omega, rfl, by rw [expdecOp, if_neg h1, h]⟩)

/-! ## The Significand Codec (42_significand.md R144, R146) -/

/-- SIGENC, said once. -/
theorem sigencOp_cases (s : State) :
    ((s.dcnt.toNat = 0 ∨ s.params.dmax < s.dcnt.toNat ∨ s.dcnt.toNat % 3 ≠ 0) ∧
      sigencOp s = .error .badDigitCount) ∨
    (1 ≤ s.dcnt.toNat ∧ s.dcnt.toNat ≤ s.params.dmax ∧ s.dcnt.toNat % 3 = 0 ∧
      (((∃ x ∈ s.coefficient, 9 < x) ∧ sigencOp s = .error .badDigit) ∨
       (AllDigits s.coefficient ∧ s.negative = true ∧ (∀ x ∈ s.coefficient, x = 0) ∧
          sigencOp s = .error .zeroCoefficient) ∨
       (AllDigits s.coefficient ∧ (s.negative = true → ∃ x ∈ s.coefficient, x ≠ 0) ∧
          (s.params.kmax < s.klen.toNat ∨
            8 * s.params.kmax < s.cur.toNat + 10 * (s.dcnt.toNat / 3)) ∧
          sigencOp s = .error .capacity) ∨
       (AllDigits s.coefficient ∧ (s.negative = true → ∃ x ∈ s.coefficient, x ≠ 0) ∧
          s.klen.toNat ≤ s.params.kmax ∧
          s.cur.toNat + 10 * (s.dcnt.toNat / 3) ≤ 8 * s.params.kmax ∧
          sigencOp s = .ok { s.setStream (s.stream.packBits (sigbits s.coefficient s.negative)) with
            scr := overlay (toCells (storedDigits s.coefficient s.negative)) s.scr }))) := by
  by_cases h0 : s.dcnt.toNat = 0 ∨ s.params.dmax < s.dcnt.toNat ∨ s.dcnt.toNat % 3 ≠ 0
  · exact .inl ⟨h0, by simp only [sigencOp, if_pos h0]⟩
  refine .inr ⟨by omega, by omega, by omega, ?_⟩
  cases hb : badDigits s.coefficient
  · have hd := badDigits_eq_false.mp hb
    by_cases hz : s.negative = true ∧ allZero s.coefficient = true
    · refine .inr (.inl ⟨hd, hz.1, allZero_iff.mp hz.2, ?_⟩)
      simp only [sigencOp, if_neg h0, hb, if_pos hz]; rfl
    have hnz : s.negative = true → ∃ x ∈ s.coefficient, x ≠ 0 := fun hn =>
      allZero_eq_false.mp (by simpa [hn] using hz)
    by_cases h1 : s.params.kmax < s.klen.toNat
    · refine .inr (.inr (.inl ⟨hd, hnz, .inl h1, ?_⟩))
      simp only [sigencOp, if_neg h0, hb, if_neg hz, if_pos h1]; rfl
    by_cases h2 : 8 * s.params.kmax < s.cur.toNat + 10 * (s.dcnt.toNat / 3)
    · refine .inr (.inr (.inl ⟨hd, hnz, .inr h2, ?_⟩))
      simp only [sigencOp, if_neg h0, hb, if_neg hz, if_neg h1, if_pos h2]; rfl
    · refine .inr (.inr (.inr ⟨hd, hnz, by omega, by omega, ?_⟩))
      simp only [sigencOp, if_neg h0, hb, if_neg hz, if_neg h1, if_neg h2]; rfl
  · refine .inl ⟨badDigits_iff.mp hb, ?_⟩
    simp only [sigencOp, if_neg h0, hb]; rfl

/-- SIGDEC, said once. -/
theorem sigdecOp_cases (s : State) :
    (s.params.kmax < s.klen.toNat ∧ sigdecOp s = .error .keyTooLong) ∨
    (∃ d, s.klen.toNat ≤ s.params.kmax ∧
      sigdec s.params s.kbuf s.klen.toNat s.cur.toNat s.negative = .error d ∧
      sigdecOp s = .error d) ∨
    (∃ c, s.klen.toNat ≤ s.params.kmax ∧
      sigdec s.params s.kbuf s.klen.toNat s.cur.toNat s.negative = .ok c ∧
      sigdecOp s = .ok { s.setCoefficient c.digits with cur := BitVec.ofNat 32 c.off }) := by
  by_cases h1 : s.params.kmax < s.klen.toNat
  · exact .inl ⟨h1, by rw [sigdecOp, if_pos h1]⟩
  · cases h : sigdec s.params s.kbuf s.klen.toNat s.cur.toNat s.negative with
    | error d => exact .inr (.inl ⟨d, by omega, rfl, by rw [sigdecOp, if_neg h1, h]⟩)
    | ok f => exact .inr (.inr ⟨f, by omega, rfl, by rw [sigdecOp, if_neg h1, h]⟩)

/-! ## The classifier and the Special-Value Codec (43_special.md R161 to R164) -/

theorem classvOp_cases (s : State) :
    (∃ d, kindv s = .error d ∧ classvOp s = .error d) ∨
    (∃ k, kindv s = .ok k ∧ classvOp s = .ok { s with kind := k.code }) := by
  cases h : kindv s with
  | error d => exact .inl ⟨d, rfl, by rw [classvOp, h]⟩
  | ok k => exact .inr ⟨k, rfl, by rw [classvOp, h]⟩

theorem classkOp_cases (s : State) :
    (∃ d, kindk s = .error d ∧ classkOp s = .error d) ∨
    (∃ k, kindk s = .ok k ∧ classkOp s = .ok { s with kind := k.code }) := by
  cases h : kindk s with
  | error d => exact .inl ⟨d, rfl, by rw [classkOp, h]⟩
  | ok k => exact .inr ⟨k, rfl, by rw [classkOp, h]⟩

theorem spencOp_cases (s : State) :
    (∃ d, kindv s = .error d ∧ spencOp s = .error d) ∨
    (∃ k, kindv s = .ok k ∧ k.keyByte = none ∧ spencOp s = .error .notSpecial) ∨
    (∃ k b, kindv s = .ok k ∧ k.keyByte = some b ∧ spencOp s = .ok (encodeSpecial b s)) := by
  cases h : kindv s with
  | error d => exact .inl ⟨d, rfl, by rw [spencOp, h]⟩
  | ok k =>
    cases hb : k.keyByte with
    | none => exact .inr (.inl ⟨k, rfl, hb, by simp only [spencOp, h, hb]⟩)
    | some b => exact .inr (.inr ⟨k, b, rfl, hb, by simp only [spencOp, h, hb]⟩)

theorem spdecOp_cases (s : State) :
    (s.klen.toNat = 0 ∧ spdecOp s = .error .emptyKey) ∨
    (s.params.kmax < s.klen.toNat ∧ s.klen.toNat ≠ 0 ∧ spdecOp s = .error .keyTooLong) ∨
    (2 ≤ s.klen.toNat ∧ s.klen.toNat ≤ s.params.kmax ∧ spdecOp s = .error .unknownSpecial) ∨
    (s.klen.toNat = 1 ∧ 1 ≤ s.params.kmax ∧ ∃ d, kindOfByte s.lead = .error d ∧ spdecOp s = .error d) ∨
    (s.klen.toNat = 1 ∧ 1 ≤ s.params.kmax ∧
      ∃ k, kindOfByte s.lead = .ok k ∧ spdecOp s = .ok (decodeSpecial k s)) := by
  by_cases h0 : s.klen.toNat = 0
  · exact .inl ⟨h0, by rw [spdecOp, if_pos h0]⟩
  by_cases h1 : s.params.kmax < s.klen.toNat
  · exact .inr (.inl ⟨h1, h0, by rw [spdecOp, if_neg h0, if_pos h1]⟩)
  by_cases h2 : s.klen.toNat = 1
  · have hk : kindk s = kindOfByte s.lead := by rw [kindk, if_neg h0, if_neg h1, if_pos h2]
    have h2' : ¬(s.klen.toNat ≠ 1) := by omega
    cases h : kindOfByte s.lead with
    | error d =>
      exact .inr (.inr (.inr (.inl ⟨h2, by omega, d, rfl, by
        rw [spdecOp, if_neg h0, if_neg h1, if_neg h2', hk, h]⟩)))
    | ok k =>
      exact .inr (.inr (.inr (.inr ⟨h2, by omega, k, rfl, by
        rw [spdecOp, if_neg h0, if_neg h1, if_neg h2', hk, h]⟩)))
  · exact .inr (.inr (.inl ⟨by omega, by omega, by
      rw [spdecOp, if_neg h0, if_neg h1, if_pos h2]⟩))

/-! ## The Orchestrator (44_orchestrator.md R180, R186) -/

theorem encodeOp_cases (s : State) :
    (∃ d, kindv s = .error d ∧ encodeOp s = .error d) ∨
    (∃ k b, kindv s = .ok k ∧ k.keyByte = some b ∧ encodeOp s = .ok (encodeSpecial b s)) ∨
    (∃ k, kindv s = .ok k ∧ k.keyByte = none ∧ encodeOp s = encodeFinite s) := by
  cases h : kindv s with
  | error d => exact .inl ⟨d, rfl, by rw [encodeOp, h]⟩
  | ok k =>
    cases hb : k.keyByte with
    | none => exact .inr (.inr ⟨k, rfl, hb, by simp only [encodeOp, h, hb]⟩)
    | some b => exact .inr (.inl ⟨k, b, rfl, hb, by simp only [encodeOp, h, hb]⟩)

/-- What ENCODE leaves on its finite path (R180). -/
def encodedFinite (s : State) (st : KeyStream) : State :=
  { s with
    kbuf := overlay (st.k.take st.len) s.kbuf
    klen := BitVec.ofNat 32 st.len
    cur := BitVec.ofNat 32 st.off
    emag := BitVec.ofNat 32 s.adjExp.natAbs
    tbit := BitVec.ofBool (signIndicator s.negative s.adjExp)
    nbits := BitVec.ofNat 6 (expN s.adjExp.natAbs)
    scr := overlay (toCells (storedDigits (pad s.coefficient) s.negative)) s.scr }

/-- ENCODE's finite path, said once. -/
theorem encodeFinite_cases (s : State) :
    (s.coefficient.headD 0 = 0 ∧ encodeFinite s = .error .leadingZero) ∨
    (s.coefficient.headD 0 ≠ 0 ∧ s.params.elim < s.adjExp.natAbs ∧
      encodeFinite s = .error .exponentOutOfRange) ∨
    (s.coefficient.headD 0 ≠ 0 ∧ s.adjExp.natAbs ≤ s.params.elim ∧
      lastGroupZero (pad s.coefficient) = true ∧ encodeFinite s = .error .trailingZeroGroup) ∨
    (s.coefficient.headD 0 ≠ 0 ∧ s.adjExp.natAbs ≤ s.params.elim ∧
      lastGroupZero (pad s.coefficient) = false ∧
      encodeFinite s = .ok (encodedFinite s
        (keyfinite s.params s.negative (pad s.coefficient) s.adjExp))) := by
  by_cases h0 : s.coefficient.headD 0 = 0
  · exact .inl ⟨h0, by simp only [encodeFinite, if_pos h0]⟩
  by_cases h1 : s.params.elim < s.adjExp.natAbs
  · exact .inr (.inl ⟨h0, h1, by simp only [encodeFinite, if_neg h0, if_pos h1]⟩)
  cases h2 : lastGroupZero (pad s.coefficient)
  · refine .inr (.inr (.inr ⟨h0, by omega, rfl, ?_⟩))
    simp only [encodeFinite, if_neg h0, if_neg h1, h2]; rfl
  · refine .inr (.inr (.inl ⟨h0, by omega, rfl, ?_⟩))
    simp only [encodeFinite, if_neg h0, if_neg h1, h2]; rfl

/-- What DECODE leaves on its finite path (R186). -/
def decodedFinite (s : State) (neg t : Bool) (f : ExpResult) (c : SigResult) : State :=
  { s.setCoefficient c.digits with
    sign := BitVec.ofBool neg
    cls := 0#2
    exp := BitVec.ofInt 32 (adjExpOf neg t f.e - c.digits.length + 1)
    emag := BitVec.ofNat 32 f.e
    tbit := BitVec.ofBool t
    nbits := BitVec.ofNat 6 f.n
    cur := BitVec.ofNat 32 c.off }

/-- DECODE's finite path, said once. -/
theorem decodeFinite_cases (neg : Bool) (k : List Byte) (s : State) :
    (∃ d, expdec s.params k s.klen.toNat 4 (getbit k 3) = .error d ∧
      decodeFinite neg k s = .error d) ∨
    (∃ f d, expdec s.params k s.klen.toNat 4 (getbit k 3) = .ok f ∧
      sigdec s.params k s.klen.toNat f.off neg = .error d ∧ decodeFinite neg k s = .error d) ∨
    (∃ f c, expdec s.params k s.klen.toNat 4 (getbit k 3) = .ok f ∧
      sigdec s.params k s.klen.toNat f.off neg = .ok c ∧
      decodeFinite neg k s = .ok (decodedFinite s neg (getbit k 3) f c)) := by
  cases h : expdec s.params k s.klen.toNat 4 (getbit k 3) with
  | error d => exact .inl ⟨d, rfl, by simp only [decodeFinite, h]⟩
  | ok f =>
    cases h' : sigdec s.params k s.klen.toNat f.off neg with
    | error d => exact .inr (.inl ⟨f, d, rfl, h', by simp only [decodeFinite, h, h']⟩)
    | ok c => exact .inr (.inr ⟨f, c, rfl, h', by simp only [decodeFinite, h, h']; rfl⟩)

theorem decodeOp_cases (s : State) :
    (∃ d, kindk s = .error d ∧ decodeOp s = .error d) ∨
    (∃ k b, kindk s = .ok k ∧ k.keyByte = some b ∧ decodeOp s = .ok (decodeSpecial k s)) ∨
    (kindk s = .ok .negFinite ∧ decodeOp s = decodeFinite true s.kbuf s) ∨
    (kindk s = .ok .posFinite ∧ decodeOp s = decodeFinite false s.kbuf s) := by
  cases h : kindk s with
  | error d => exact .inl ⟨d, rfl, by rw [decodeOp, h]⟩
  | ok k =>
    cases k
    case negFinite => exact .inr (.inr (.inl ⟨rfl, by rw [decodeOp, h]⟩))
    case posFinite => exact .inr (.inr (.inr ⟨rfl, by rw [decodeOp, h]⟩))
    all_goals exact .inr (.inl ⟨_, _, rfl, rfl, by rw [decodeOp, h]⟩)

/-! ## Each operation is exec of its instruction -/

/-- What a write to CMD runs, by its operation. -/
def commandResult (i : Instr) (s : State) : Except Detail State :=
  match i with
  | .encode => encodeOp s
  | .decode => decodeOp s
  | .pack n bits => packOp n bits s
  | .unpack n => unpackOp n s
  | .expenc => expencOp s
  | .expdec => expdecOp s
  | .sigenc => sigencOp s
  | .sigdec => sigdecOp s
  | .classv => classvOp s
  | .classk => classkOp s
  | .spenc => spencOp s
  | .spdec => spdecOp s
  | _ => .error .reservedOp

/-- Every command ends as `finish` has it (60_exceptions.md R218). -/
theorem exec_command {i : Instr} (h : i.isCommand = true) (s : State) :
    exec i s = .next (finish s (commandResult i s)) := by
  cases i <;> first | rfl | cases h

theorem runCommand_eq_exec {i : Instr} (h : i.isCommand = true) (s : State) :
    runCommand i s = exec i s := by
  cases i <;> first | rfl | cases h

end Sys2Proof.Machine
end

