-- ==== Sys2Proof/Laws/Keys.lean ====
section
/-! SUPPORT. The key of a finite nonzero value: its bits, its bytes, its first byte (44_orchestrator.md R180 to R189,
30_encoding.md R72). -/

namespace Sys2Proof.Machine

/-! ## Padding (42_significand.md R140) -/

theorem pad_length (d : List Nat) : (pad d).length = padlen d.length := by
  simp only [pad, List.length_append, List.length_replicate, padlen]; omega

theorem pad_length_mod (d : List Nat) : (pad d).length % 3 = 0 := by
  rw [pad_length, padlen]; omega

theorem length_le_pad (d : List Nat) : d.length ≤ (pad d).length := by
  rw [pad_length, padlen]; omega

theorem pad_digits {d : List Nat} (h : AllDigits d) : AllDigits (pad d) := by
  rw [pad, AllDigits_append]
  refine ⟨h, fun x hx => ?_⟩
  rw [List.eq_of_mem_replicate hx]
  omega

theorem pad_headD {d : List Nat} (h : 0 < d.length) : (pad d).headD 0 = d.headD 0 := by
  rcases d with _ | ⟨x, d⟩
  · simp at h
  · rfl

/-- A coefficient of whole groups is its own padding. -/
theorem pad_eq_self {d : List Nat} (h : d.length % 3 = 0) : pad d = d := by
  simp only [pad, padlen, show 3 * ((d.length + 2) / 3) - d.length = 0 by omega, List.replicate_zero,
    List.append_nil]

/-- Padding multiplies the coefficient by a power of ten. -/
theorem digitsValue_pad (d : List Nat) :
    digitsValue (pad d) = digitsValue d * 10 ^ (padlen d.length - d.length) := by
  rw [pad, digitsValue_append, digitsValue_replicate_zero, List.length_replicate, Nat.add_zero]

/-- The padded coefficient of an encodable finite value is canonical (10_state.md R22). -/
theorem canonical_pad {p : Params} {d : List Nat} (hp : p.valid = true) (h1 : 1 ≤ d.length)
    (h2 : d.length ≤ p.dmax) (hd : AllDigits d) (h0 : d.headD 0 ≠ 0)
    (hl : lastGroupZero (pad d) = false) : Canonical p (pad d) := by
  obtain ⟨-, h3, -⟩ := valid_iff.mp hp
  refine ⟨pad_digits hd, pad_length_mod d, ?_, ?_, ?_, hl⟩
  · have := length_le_pad d; omega
  · rw [pad_length, padlen]; omega
  · rwa [pad_headD (by omega)]

/-! ## The bits of a key (30_encoding.md R72) -/

theorem keyBits_eq (neg : Bool) (d : List Nat) (adj : Int) :
    keyBits neg d adj = [!neg, false, false] ++ (expfield adj.natAbs (signIndicator neg adj) ++
      sigbits d neg) := by
  rw [keyBits, expfield_cons]
  cases neg <;> simp

@[simp] theorem keyBits_length (neg : Bool) (d : List Nat) (adj : Int) :
    (keyBits neg d adj).length = 2 * expN adj.natAbs + 2 + 10 * (d.length / 3) := by
  have := expN_ge adj.natAbs
  simp only [keyBits_eq, List.length_append, List.length_cons, List.length_nil, expfield_length,
    sigbits_length]
  omega

/-- The longest key fits KBUF (00_scope.md R10). -/
theorem keyBits_le_kmax {p : Params} (hp : p.valid = true) {neg : Bool} {d : List Nat} {adj : Int}
    (hd : d.length ≤ p.dmax) (ha : adj.natAbs ≤ p.elim) : (keyBits neg d adj).length ≤ 8 * p.kmax := by
  obtain ⟨-, -, -, h1, -, h2, -⟩ := valid_iff.mp hp
  have h3 := expN_le_of_le (show 2 ≤ p.m by omega) (Nat.le_trans ha h2)
  have h4 := bits_le_kmax p
  have h5 : d.length / 3 ≤ p.dmax / 3 := Nat.div_le_div_right hd
  rw [keyBits_length]
  omega

theorem adjExpOf_signIndicator (neg : Bool) (adj : Int) :
    adjExpOf neg (signIndicator neg adj) adj.natAbs = adj := by
  cases neg
  · by_cases h : 0 ≤ adj
    · simp only [adjExpOf, signIndicator, decide_eq_true h, Bool.false_eq_true, if_false, if_true]; omega
    · simp only [adjExpOf, signIndicator, decide_eq_false h, Bool.false_eq_true, if_false]; omega
  · by_cases h : adj < 0
    · simp only [adjExpOf, signIndicator, decide_eq_true h, if_true]; omega
    · simp only [adjExpOf, signIndicator, decide_eq_false h, Bool.false_eq_true, if_false, if_true]; omega

/-- T says the adjusted exponent's sign, but for the degenerate headers (44_orchestrator.md R188, R189). -/
theorem signIndicator_adjExpOf {neg t : Bool} {e : Nat} (h : ¬(e = 0 ∧ t = neg)) :
    signIndicator neg (adjExpOf neg t e) = t := by
  cases neg <;> cases t <;> (simp_all [signIndicator, adjExpOf]; try omega)

@[simp] theorem adjExpOf_natAbs (neg t : Bool) (e : Nat) : (adjExpOf neg t e).natAbs = e := by
  cases neg <;> cases t <;> simp [adjExpOf]

/-! ## The bytes of a key -/

/-- WHAT A KEY IS (R183): the bits of R72 and fewer than eight zeros. -/
theorem keyfinite_spec {p : Params} {neg : Bool} {d : List Nat} {adj : Int}
    (hfit : (keyBits neg d adj).length ≤ 8 * p.kmax) :
    (keyfinite p neg d adj).k.length = p.kmax ∧
    (keyfinite p neg d adj).off = (keyBits neg d adj).length ∧
    (keyfinite p neg d adj).len = ((keyBits neg d adj).length + 7) / 8 ∧
    (keyfinite p neg d adj).len ≤ p.kmax ∧
    readBits (keyfinite p neg d adj).k 0 (8 * (keyfinite p neg d adj).len) =
      keyBits neg d adj ++
        List.replicate (8 * (keyfinite p neg d adj).len - (keyBits neg d adj).length) false := by
  obtain ⟨bs, hbs⟩ : ∃ bs, bs = keyBits neg d adj := ⟨_, rfl⟩
  have hne : bs ≠ [] := by
    intro h
    have := congrArg List.length (hbs.symm.trans h)
    simp at this
  have hlen0 : bs.length ≠ 0 := by simpa using hne
  obtain ⟨st, hst⟩ : ∃ st, st = keyfinite p neg d adj := ⟨_, rfl⟩
  rw [← hst, ← hbs]
  rw [← hbs] at hfit
  rw [keyfinite, ← hbs] at hst
  have hpk := packBits_packedAt { k := List.replicate p.kmax 0#8, len := 0, off := 0 } bs (by simpa using hfit)
  rw [← hst] at hpk
  obtain ⟨h1, h2, h3, -, h5, -⟩ := hpk
  rw [if_neg hne] at h2
  simp only [List.length_replicate, Nat.zero_add] at h1 h2 h3 h5
  have hoff : st.off = bs.length := by rw [hst, packBits_off]; simp
  have hl : st.len = (bs.length + 7) / 8 := by rw [h2]; omega
  refine ⟨h1, hoff, hl, by omega, ?_⟩
  rw [readBits_append_iff (by simp; omega)]
  refine ⟨by simpa using h3, ?_⟩
  simp only [List.length_replicate]
  rw [readBits_eq_iff (by simp)]
  intro i hi
  rw [List.getElem_replicate]
  exact h5 _ (by omega) (by omega) (by omega)

/-- A key has at least two bytes (30_encoding.md R70). -/
theorem two_le_keyfinite_len {p : Params} {neg : Bool} {d : List Nat} {adj : Int}
    (hfit : (keyBits neg d adj).length ≤ 8 * p.kmax) (h3 : 3 ≤ d.length) :
    2 ≤ (keyfinite p neg d adj).len := by
  rw [(keyfinite_spec hfit).2.2.1, keyBits_length]
  have := expN_ge adj.natAbs
  omega

theorem getbit_take {k : List Byte} {n j : Nat} (h : j < 8 * n) : getbit (k.take n) j = getbit k j := by
  refine getbit_of_getD ?_
  simp [List.getD_eq_getElem?_getD, show j / 8 < n by omega]

theorem readBits_take {k : List Byte} {n : Nat} : readBits (k.take n) 0 (8 * n) = readBits k 0 (8 * n) :=
  readBits_congr fun j _ h => getbit_take (by omega)

theorem readBits_overlay {new old : List Byte} :
    readBits (overlay new old) 0 (8 * new.length) = readBits new 0 (8 * new.length) :=
  readBits_congr fun _ _ h => getbit_of_getD (overlay_getD_lt _ (by omega))

/-- Bytes are told by their bits. -/
theorem bytes_eq_of_readBits {a b : List Byte} (hl : a.length = b.length)
    (h : readBits a 0 (8 * a.length) = readBits b 0 (8 * a.length)) : a = b := by
  refine List.ext_getElem hl fun i h1 h2 => ?_
  have hq : ∀ q, q < 8 → getbit a (8 * i + q) = getbit b (8 * i + q) := by
    intro q hq
    have := (readBits_eq_iff (by simp)).mp h (8 * i + q) (by omega)
    rw [readBits_getElem] at this
    simpa using this
  have := getD_eq_of_getbit i hq
  simpa [List.getD_eq_getElem?_getD, h1, h2] using this

/-! ## The first byte (30_encoding.md R73, 43_special.md R167) -/

/-- The first eight bits are the first byte. -/
theorem lead_of_readBits {k : List Byte} {b : List Bool}
    (h : readBits k 0 8 = b) : (k.getD 0 0#8).toNat = bitsVal b := by
  have h1 : readBits k 0 8 = bitsOf 8 (k.getD 0 0#8).toNat := by
    rw [readBits_eq_iff (by simp)]
    intro i hi
    rw [bitsOf_getElem]
    simp only [getbit, Nat.zero_add, show i / 8 = 0 by omega, show 7 - i % 8 = 8 - 1 - i by omega]
    rfl
  rw [← h, h1, bitsVal_bitsOf, Nat.mod_eq_of_lt (k.getD 0 0#8).isLt]

/-- A field of E = 0 is three bits, and every longer field's second or third bit tells it from that one. -/
theorem expfield_zero (t : Bool) : expfield 0 t = [t, !t, !t] := by cases t <;> rfl

theorem expfield_prefix_three {e : Nat} {t : Bool} (he : e ≠ 0) (rest : List Bool) :
    (expfield e t ++ rest).take 3 ≠ [t, !t, !t] := by
  have h2 := expN_ge e
  rcases Nat.eq_or_lt_of_le h2 with h | h
  · have he1 : e = 1 := by
      have h3 := lt_pow_expN e
      rw [← h] at h3
      omega
    subst he1
    cases t <;> simp [expfield, expN, bitlen, show Nat.log2 3 = 1 by decide, bitsOf]
  · obtain ⟨r, hr⟩ : ∃ r, expN e - 1 = r + 2 := ⟨expN e - 3, by omega⟩
    rw [expfield_eq, hr, List.replicate_succ, List.replicate_succ]
    cases t <;> simp

/-- The row the decoder reads from a first byte and the header tests agree (30_encoding.md R79, 43_special.md R167). -/
theorem decodeLeadByte_cases : ∀ b : Byte,
    (decodeLeadByte b = .keyInvalidSign01 (b.extractLsb' 0 6) ∧ kindOfLead b = .error .badSign) ∨
    (decodeLeadByte b = .keyInvalidSign11 (b.extractLsb' 0 6) ∧ kindOfLead b = .error .badSign) ∨
    (decodeLeadByte b = .keyInvalidPadNeg (b.extractLsb' 0 5) ∧ kindOfLead b = .error .badPad) ∨
    (decodeLeadByte b = .keyInvalidPadPos (b.extractLsb' 0 5) ∧ kindOfLead b = .error .badPad) ∨
    (decodeLeadByte b = .keyInvalidNeg (b.extractLsb' 0 2) ∧ kindOfLead b = .error .negZeroExponent) ∨
    (decodeLeadByte b = .keyInvalidPos (b.extractLsb' 0 2) ∧ kindOfLead b = .error .negZeroExponent) ∨
    (decodeLeadByte b = .keyNegFinite (b.extractLsb' 4 1) (b.extractLsb' 0 4) ∧
      kindOfLead b = .ok .negFinite ∧ 0b000#3 ++ b.extractLsb' 4 1 ++ b.extractLsb' 0 4 = b) ∨
    (decodeLeadByte b = .keyPosFinite (b.extractLsb' 4 1) (b.extractLsb' 0 4) ∧
      kindOfLead b = .ok .posFinite ∧ 0b100#3 ++ b.extractLsb' 4 1 ++ b.extractLsb' 0 4 = b) := by decide

/-- The header tests on a byte with a finite sign and pad, by its bits (44_orchestrator.md R188). -/
theorem kindOfLead_bits : ∀ neg x3 x4 x5 x6 x7 : Bool,
    kindOfLead (BitVec.ofNat 8 (bitsVal [!neg, false, false, x3, x4, x5, x6, x7])) =
      if [x3, x4, x5] = [neg, !neg, !neg] then .error .negZeroExponent
      else .ok (if neg then .negFinite else .posFinite) := by decide

/-- The first byte of a finite key is no invalid one (44_orchestrator.md R188). -/
theorem kindOfLead_of_keyBits {k : List Byte} {n : Nat} {neg : Bool} {d : List Nat} {adj : Int}
    {rest : List Bool} (hn : 8 ≤ n)
    (h : readBits k 0 n = keyBits neg d adj ++ rest) :
    kindOfLead (k.getD 0 0#8) = .ok (if neg then .negFinite else .posFinite) := by
  have h8 : readBits k 0 8 = (keyBits neg d adj ++ rest).take 8 := by
    rw [← h, show n = 8 + (n - 8) by omega, readBits_add, List.take_left' (by simp)]
  obtain ⟨f, hf⟩ : ∃ f, f = expfield adj.natAbs (signIndicator neg adj) ++ (sigbits d neg ++ rest) :=
    ⟨_, rfl⟩
  have h8' : readBits k 0 8 = [!neg, false, false] ++ f.take 5 := by
    rw [h8, keyBits_eq, hf]
    simp
  have hfl : (f.take 5).length = 5 := by
    have := congrArg List.length h8'
    simp only [readBits_length, List.length_append, List.length_cons, List.length_nil] at this
    omega
  rcases hf5 : f.take 5 with _ | ⟨x3, _ | ⟨x4, _ | ⟨x5, _ | ⟨x6, _ | ⟨x7, _ | ⟨y, l⟩⟩⟩⟩⟩⟩
  on_goal 6 =>
    rw [hf5] at h8'
    have hl := lead_of_readBits h8'
    have hb : k.getD 0 0#8 = BitVec.ofNat 8 (bitsVal [!neg, false, false, x3, x4, x5, x6, x7]) := by
      apply BitVec.eq_of_toNat_eq
      have hlt := bitsVal_lt [!neg, false, false, x3, x4, x5, x6, x7]
      rw [hl, BitVec.toNat_ofNat, Nat.mod_eq_of_lt (by simpa using hlt)]
      rfl
    rw [hb, kindOfLead_bits, if_neg]
    intro heq
    have hf3 : f.take 3 = [neg, !neg, !neg] := by
      have : f.take 3 = (f.take 5).take 3 := by rw [List.take_take]; rfl
      rw [this, hf5, ← heq]
      rfl
    rw [hf] at hf3
    by_cases he : adj.natAbs = 0
    · have ha : adj = 0 := by omega
      subst ha
      revert hf3
      rw [Int.natAbs_zero, expfield_zero]
      cases neg <;> simp [signIndicator]
    · have ht : signIndicator neg adj = neg := by
        have := congrArg (·.head?) hf3
        rw [expfield_cons] at this
        simpa using this
      rw [ht] at hf3
      exact expfield_prefix_three he _ hf3
  all_goals
    rw [hf5] at hfl
    simp at hfl

/-- KINDK of a finite key (43_special.md R167). -/
theorem kindk_of_keyBits {s : State} {neg : Bool} {d : List Nat} {adj : Int} {rest : List Bool}
    (h2 : 2 ≤ s.klen.toNat) (hk : s.klen.toNat ≤ s.params.kmax)
    (h : readBits s.kbuf 0 (8 * s.klen.toNat) = keyBits neg d adj ++ rest) :
    kindk s = .ok (if neg then .negFinite else .posFinite) := by
  rw [kindk, if_neg (by omega), if_neg (by omega), if_neg (by omega)]
  exact kindOfLead_of_keyBits (by omega) h

/-- Both component decoders read a finite key back (44_orchestrator.md R186). -/
theorem decodeFinite_of_keyBits {s : State} {k : List Byte} {neg : Bool} {d : List Nat} {adj : Int}
    {tail : Nat} (hp : s.params.valid = true) (hd : Canonical s.params d)
    (ha : adj.natAbs ≤ s.params.elim) (ht : tail ≤ 7)
    (hl : (keyBits neg d adj).length + tail = 8 * s.klen.toNat)
    (h : readBits k 0 (8 * s.klen.toNat) = keyBits neg d adj ++ List.replicate tail false) :
    decodeFinite neg k s = .ok (decodedFinite s neg (signIndicator neg adj)
      { e := adj.natAbs, n := expN adj.natAbs, off := 4 + (2 * expN adj.natAbs - 2) }
      { digits := d, off := 8 * s.klen.toNat }) := by
  obtain ⟨-, -, -, hm, -, he, -⟩ := valid_iff.mp hp
  have hN := expN_ge adj.natAbs
  rw [keyBits_length] at hl
  rw [keyBits_eq, List.append_assoc, List.append_assoc, expfield_cons, ← expfield_tail] at h
  rw [readBits_append_iff (by simp; omega)] at h
  simp only [List.length_cons, List.length_nil, Nat.zero_add] at h
  obtain ⟨-, h⟩ := h
  rw [List.length_append, List.length_append, List.length_cons, expfield_tail_length, sigbits_length,
    List.length_replicate, List.cons_append,
    show 2 * expN adj.natAbs - 2 + 1 + (10 * (d.length / 3) + tail) =
      (2 * expN adj.natAbs - 2 + (10 * (d.length / 3) + tail)) + 1 by omega,
    readBits_succ, List.cons.injEq] at h
  obtain ⟨ht3, h⟩ := h
  rw [readBits_append_iff (by simp; omega)] at h
  rw [expfield_tail_length, List.length_append, sigbits_length, List.length_replicate] at h
  have hf := expdec_of_field (p := s.params) (k := k) (len := s.klen.toNat) (off := 4)
    (t := signIndicator neg adj) (by omega) (expN_le_of_le (by omega) (Nat.le_trans ha he)) (by omega) h.1
  rw [if_neg (by omega)] at hf
  have hs := sigdec_of_bits (p := s.params) (k := k) (len := s.klen.toNat)
    (off := 4 + (2 * expN adj.natAbs - 2)) hd ht (by omega) h.2
  simp only [decodeFinite, ht3, hf, hs]
  rfl

/-- What a valid first byte says bit by bit (44_orchestrator.md R187, R188). -/
theorem lead_bits_of_kindOfLead : ∀ (neg : Bool) (b : Byte),
    kindOfLead b = .ok (if neg then .negFinite else .posFinite) →
      b.getLsbD 7 = !neg ∧ b.getLsbD 6 = false ∧ b.getLsbD 5 = false ∧
        ¬(b.getLsbD 4 = neg ∧ b.getLsbD 3 = !neg ∧ b.getLsbD 2 = !neg) := by decide

/-- The component decoders accept nothing but finite keys (44_orchestrator.md R198). -/
theorem keyBits_of_decodeFinite {s t : State} {k : List Byte} {neg : Bool} (hp : s.params.valid = true)
    (hk : kindOfLead (k.getD 0 0#8) = .ok (if neg then .negFinite else .posFinite))
    (h : decodeFinite neg k s = .ok t) :
    ∃ d adj tail, Canonical s.params d ∧ adj.natAbs ≤ s.params.elim ∧ tail ≤ 7 ∧
      (keyBits neg d adj).length + tail = 8 * s.klen.toNat ∧
      readBits k 0 (8 * s.klen.toNat) = keyBits neg d adj ++ List.replicate tail false ∧
      t = decodedFinite s neg (signIndicator neg adj)
        { e := adj.natAbs, n := expN adj.natAbs, off := 4 + (2 * expN adj.natAbs - 2) }
        { digits := d, off := 8 * s.klen.toNat } := by
  obtain ⟨-, -, -, hm, -⟩ := valid_iff.mp hp
  rcases decodeFinite_cases neg k s with ⟨d, -, e⟩ | ⟨f, d, -, -, e⟩ | ⟨f, c, h1, h2, e⟩
  · rw [e] at h; cases h
  · rw [e] at h; cases h
  rw [e] at h
  injection h with h
  obtain ⟨he, hn, -, hoff, hoff', hbits⟩ := field_of_expdec (by omega) h1
  obtain ⟨hc, hco, tail, ht, htl, hcb⟩ := bits_of_sigdec h2
  have hN := expN_ge f.e
  obtain ⟨h7, h6, h5, hdeg⟩ := lead_bits_of_kindOfLead _ _ hk
  have h03 : readBits k 0 3 = [!neg, false, false] := by
    simp only [readBits_succ, readBits_zero, getbit]
    simp only [Nat.zero_add, Nat.reduceAdd, Nat.reduceDiv, Nat.reduceMod, Nat.reduceSub, h7, h6, h5]
  have hT : signIndicator neg (adjExpOf neg (getbit k 3) f.e) = getbit k 3 := by
    refine signIndicator_adjExpOf ?_
    rintro ⟨he0, ht3⟩
    rw [hn, he0] at hbits
    have hb2 : readBits k 4 2 = [!getbit k 3, !getbit k 3] := by
      rw [expfield_zero] at hbits
      exact hbits
    simp only [readBits_succ, readBits_zero, List.cons.injEq, and_true] at hb2
    rw [ht3] at hb2
    exact hdeg ⟨ht3, hb2⟩
  refine ⟨c.digits, adjExpOf neg (getbit k 3) f.e, tail, hc, by simpa using he, ht, ?_, ?_, ?_⟩
  · rw [keyBits_length, adjExpOf_natAbs]
    omega
  · rw [keyBits_eq, adjExpOf_natAbs, hT, List.append_assoc, List.append_assoc, expfield_cons, ← expfield_tail,
      readBits_append_iff (by simp; omega)]
    refine ⟨h03, ?_⟩
    show readBits k 3 _ = _
    rw [List.length_append, List.length_append, List.length_cons, expfield_tail_length, sigbits_length,
      List.length_replicate, List.cons_append,
      show 2 * expN f.e - 2 + 1 + (10 * (c.digits.length / 3) + tail) =
        (2 * expN f.e - 2 + (10 * (c.digits.length / 3) + tail)) + 1 by omega,
      readBits_succ, List.cons.injEq]
    refine ⟨rfl, ?_⟩
    rw [readBits_append_iff (by simp; omega)]
    rw [expfield_tail_length, List.length_append, sigbits_length, List.length_replicate, ← hn]
    refine ⟨hbits, ?_⟩
    rw [← hcb, hoff]
  · rw [← h, hT, adjExpOf_natAbs]
    rcases f with ⟨fe, fn, fo⟩
    rcases c with ⟨cd, co⟩
    simp only at hn hoff hco
    subst hn hoff hco
    rfl

end Sys2Proof.Machine
end

