-- ==== Sys2Proof/Laws/Order.lean ====
section
/-! SUPPORT. Bit strings and keys in lexicographic order (44_orchestrator.md R200, 41_exponent.md R121). -/

namespace Sys2Proof.Machine

/-- `p` and `q` agree up to a place where `p` has 0 and `q` has 1. -/
def Below (p q : List Bool) : Prop := ∃ c u v, p = c ++ false :: u ∧ q = c ++ true :: v

theorem Below.append {p q : List Bool} (h : Below p q) (x y : List Bool) : Below (p ++ x) (q ++ y) := by
  obtain ⟨c, u, v, rfl, rfl⟩ := h
  exact ⟨c, u ++ x, v ++ y, by simp, by simp⟩

theorem Below.prefix {p q : List Bool} (c : List Bool) (h : Below p q) : Below (c ++ p) (c ++ q) := by
  obtain ⟨c', u, v, rfl, rfl⟩ := h
  exact ⟨c ++ c', u, v, by simp, by simp⟩

theorem Below.lt {p q : List Bool} (h : Below p q) : p < q := by
  obtain ⟨c, u, v, rfl, rfl⟩ := h
  induction c with
  | nil => exact List.cons_lt_cons_iff.mpr (.inl (by decide))
  | cons x c ih => exact List.cons_lt_cons_iff.mpr (.inr ⟨rfl, ih⟩)

theorem Below.not_prefix {p q : List Bool} (h : Below p q) : ¬p <+: q ∧ ¬q <+: p := by
  obtain ⟨c, u, v, rfl, rfl⟩ := h
  constructor <;> rintro ⟨t, ht⟩ <;> simp at ht

/-- Complementing turns the order round. -/
theorem Below.not {p q : List Bool} (h : Below p q) : Below (q.map (!·)) (p.map (!·)) := by
  obtain ⟨c, u, v, rfl, rfl⟩ := h
  exact ⟨c.map (!·), v.map (!·), u.map (!·), by simp, by simp⟩

/-- Bit strings of one length are ordered as the numbers they spell. -/
theorem below_of_bitsVal_lt {p q : List Bool} (hl : p.length = q.length) (h : bitsVal p < bitsVal q) :
    Below p q := by
  induction p generalizing q with
  | nil =>
    rw [List.length_eq_zero_iff.mp hl.symm] at h
    simp at h
  | cons x p ih =>
    rcases q with _ | ⟨y, q⟩
    · simp at hl
    · simp only [List.length_cons, Nat.add_right_cancel_iff] at hl
      have hp := bitsVal_lt p
      have hq := bitsVal_lt q
      rw [bitsVal_cons, bitsVal_cons, hl] at h
      rw [hl] at hp
      cases x <;> cases y
      · exact (ih hl (by simpa using h)).prefix [false]
      · exact ⟨[], p, q, rfl, rfl⟩
      · simp at h; omega
      · exact (ih hl (by simpa using h)).prefix [true]

theorem below_bitsOf {n a b : Nat} (h : a < b) (hb : b < 2 ^ n) : Below (bitsOf n a) (bitsOf n b) :=
  below_of_bitsVal_lt (by simp) (by
    rw [bitsVal_bitsOf, bitsVal_bitsOf, Nat.mod_eq_of_lt hb, Nat.mod_eq_of_lt (by omega)]
    exact h)

/-! ## The exponent field (41_exponent.md R121) -/

/-- For T = 1 the fields rise with E. -/
theorem expfield_below_true {a b : Nat} (h : a < b) : Below (expfield a true) (expfield b true) := by
  have hn := expN_mono (Nat.le_of_lt h)
  have ha := expN_ge a
  rcases Nat.eq_or_lt_of_le hn with hn | hn
  · have h1 := pow_le_of_expN a
    have h2 := lt_pow_expN b
    obtain ⟨n, hnn⟩ : ∃ n, expN b = n + 1 := ⟨expN b - 1, by omega⟩
    rw [hn, hnn, Nat.add_sub_cancel] at h1
    rw [hnn, Nat.pow_succ] at h2
    simp only [expfield, hn, hnn, Nat.add_sub_cancel, if_true]
    refine Below.prefix _ (Below.prefix [false] ?_)
    rw [← bitsOf_mod n (a + 2), ← bitsOf_mod n (b + 2)]
    refine below_bitsOf ?_ (Nat.mod_lt _ (by positivity))
    have e1 : (a + 2) % 2 ^ n = a + 2 - 2 ^ n := by
      rw [Nat.mod_eq_sub_mod h1, Nat.mod_eq_of_lt (by omega)]
    have e2 : (b + 2) % 2 ^ n = b + 2 - 2 ^ n := by
      rw [Nat.mod_eq_sub_mod (by omega), Nat.mod_eq_of_lt (by omega)]
    rw [e1, e2]
    omega
  · obtain ⟨r, hr⟩ : ∃ r, expN b - 1 = (expN a - 1) + (r + 1) := ⟨expN b - expN a - 1, by omega⟩
    simp only [expfield, if_true, hr]
    rw [List.replicate_add, List.append_assoc, List.replicate_succ]
    exact Below.prefix _ ⟨[], _, _, rfl, rfl⟩

theorem expfield_false (e : Nat) : expfield e false = (expfield e true).map (!·) := rfl

/-- For T = 0 the fields fall with E. -/
theorem expfield_below_false {a b : Nat} (h : a < b) : Below (expfield b false) (expfield a false) := by
  rw [expfield_false, expfield_false]
  exact (expfield_below_true h).not

/-- Every field with T = 0 is below every field with T = 1. -/
theorem expfield_below_of_t (a b : Nat) : Below (expfield a false) (expfield b true) := by
  rw [expfield_cons, expfield_cons]
  exact ⟨[], _, _, rfl, rfl⟩

/-! ## The declets -/

/-- The groups of digit sequences of one length are ordered as the numbers the sequences spell. -/
theorem below_declets {a b : List Nat} (ha : AllDigits a) (hb : AllDigits b) (hl : a.length = b.length)
    (h3 : a.length % 3 = 0) (h : digitsValue a < digitsValue b) :
    Below ((declets a).flatMap (bitsOf 10)) ((declets b).flatMap (bitsOf 10)) := by
  induction a using declets.induct generalizing b with
  | case1 x y z a ih =>
    rcases b with _ | ⟨x', _ | ⟨y', _ | ⟨z', b⟩⟩⟩
    · simp at hl
    · simp at hl
    · simp at hl
    · simp only [List.length_cons, Nat.add_right_cancel_iff] at hl
      simp only [AllDigits_cons] at ha hb
      simp only [declets, List.flatMap_cons]
      have e : ∀ x y z (a : List Nat),
          digitsValue (x :: y :: z :: a) = declet x y z * 10 ^ a.length + digitsValue a := by
        intro x y z a
        simp only [digitsValue_cons, List.length_cons, declet]
        ring
      rw [e, e, hl] at h
      have h1 := digitsValue_lt ha.2.2.2
      have h2 := digitsValue_lt hb.2.2.2
      rw [hl] at h1
      have h4 := declet_le hb.1 hb.2.1 hb.2.2.1
      rcases Nat.lt_trichotomy (declet x y z) (declet x' y' z') with hlt | heq | hlt
      · exact (below_bitsOf hlt (by omega)).append _ _
      · rw [heq] at h ⊢
        refine Below.prefix _ (ih ha.2.2.2 hb.2.2.2 hl ?_ (by omega))
        simp only [List.length_cons] at h3
        omega
      · exfalso
        have : (declet x' y' z' + 1) * 10 ^ b.length ≤ declet x y z * 10 ^ b.length :=
          Nat.mul_le_mul_right _ hlt
        rw [Nat.add_mul] at this
        omega
  | case2 d hd =>
    rcases d with _ | ⟨p, _ | ⟨q, _ | ⟨r, d⟩⟩⟩
    · rw [List.length_eq_zero_iff.mp hl.symm] at h
      exact absurd h (Nat.lt_irrefl _)
    · simp at h3
    · simp at h3
    · exact absurd rfl (hd p q r d)

/-- Zero groups after a coefficient are zero bits after its declets (42_significand.md R141). -/
theorem sigbits_append_zeros {d : List Nat} (neg : Bool) (h3 : d.length % 3 = 0) (h0 : allZero d = false)
    (g : Nat) :
    sigbits (d ++ List.replicate (3 * g) 0) neg = sigbits d neg ++ List.replicate (10 * g) false := by
  have hz : ∀ g, (declets (List.replicate (3 * g) 0)).flatMap (bitsOf 10) = List.replicate (10 * g) false := by
    intro g
    induction g with
    | zero => rfl
    | succ g ih =>
      rw [show 3 * (g + 1) = 3 * g + 1 + 1 + 1 by omega]
      simp only [List.replicate_succ, declets, List.flatMap_cons, ih]
      rw [show 10 * (g + 1) = 10 + 10 * g by omega, List.replicate_add]
      rfl
  have hs : storedDigits (d ++ List.replicate (3 * g) 0) neg =
      storedDigits d neg ++ List.replicate (3 * g) 0 := by
    rw [storedDigits, storedDigits]
    split
    · exact tens_append_of_zero (by simp [allZero]) h0
    · rfl
  rw [sigbits, hs, declets_append _ (by rw [storedDigits_length]; exact h3), List.flatMap_append, hz, sigbits]

/-! ## Bytes -/

/-- The bits of a byte sequence in stream order. -/
theorem readBits_bytes_succ (x : Byte) (k : List Byte) (n : Nat) :
    readBits (x :: k) 0 (8 * (n + 1)) = bitsOf 8 x.toNat ++ readBits k 0 (8 * n) := by
  rw [readBits_append_iff (by simp; omega)]
  simp only [bitsOf_length, readBits_length]
  constructor
  · rw [readBits_eq_iff (by simp)]
    intro i hi
    rw [bitsOf_getElem]
    simp only [getbit, Nat.zero_add, show i / 8 = 0 by omega, List.getD_cons_zero,
      show 7 - i % 8 = 8 - 1 - i by omega]
    rfl
  · rw [readBits_eq_iff (by simp)]
    intro i hi
    rw [readBits_getElem]
    simp only [getbit, Nat.zero_add, show (8 + i) / 8 = i / 8 + 1 by omega, List.getD_cons_succ,
      show (8 + i) % 8 = i % 8 by omega]

/-- Byte sequences are ordered as their bits. -/
theorem bytes_lt_of_below {a b : List Byte} (hl : a.length = b.length)
    (h : Below (readBits a 0 (8 * a.length)) (readBits b 0 (8 * b.length))) : a < b := by
  induction a generalizing b with
  | nil =>
    obtain ⟨c, u, v, h1, -⟩ := h
    simp at h1
  | cons x a ih =>
    rcases b with _ | ⟨y, b⟩
    · simp at hl
    · simp only [List.length_cons, Nat.add_right_cancel_iff] at hl
      simp only [List.length_cons, readBits_bytes_succ] at h
      rw [List.cons_lt_cons_iff]
      rcases Nat.lt_trichotomy x.toNat y.toNat with hlt | heq | hlt
      · exact .inl hlt
      · refine .inr ⟨BitVec.eq_of_toNat_eq heq, ih hl ?_⟩
        rw [heq] at h
        obtain ⟨c, u, v, h1, h2⟩ := h
        have hc : 8 ≤ c.length := by
          by_contra hc
          have e1 := congrArg (·[c.length]?) h1
          have e2 := congrArg (·[c.length]?) h2
          simp only [List.getElem?_append_left (show c.length < (bitsOf 8 y.toNat).length by simp; omega)]
            at e1 e2
          rw [e1] at e2
          simp at e2
        have e1 : c.take 8 = bitsOf 8 y.toNat := by
          have := congrArg (List.take 8) h1
          rw [List.take_append_of_le_length (by simp), List.take_append_of_le_length hc] at this
          rw [← this, List.take_of_length_le (by simp)]
        refine ⟨c.drop 8, u, v, ?_, ?_⟩
        · have := congrArg (List.drop 8) h1
          rwa [List.drop_append_of_le_length hc, List.drop_left' (by simp)] at this
        · have := congrArg (List.drop 8) h2
          rwa [List.drop_append_of_le_length hc, List.drop_left' (by simp)] at this
      · exfalso
        have hb := below_bitsOf (n := 8) hlt (by simpa using x.isLt)
        have h' := (hb.append (readBits b 0 (8 * b.length)) (readBits a 0 (8 * a.length))).lt
        exact absurd (List.lt_trans h.lt h') (List.lt_irrefl _)

/-- Zeros after the shorter sequence do not change which comes first. -/
theorem lt_of_extended_lt {a b : List Byte} {p q : Nat} (hl : a.length + p = b.length + q)
    (h : a ++ List.replicate p 0#8 < b ++ List.replicate q 0#8) : a < b := by
  induction a generalizing b with
  | nil =>
    rcases b with _ | ⟨y, b⟩
    · simp at hl
      subst hl
      exact absurd h (List.lt_irrefl _)
    · exact List.nil_lt_cons _ _
  | cons x a ih =>
    rcases b with _ | ⟨y, b⟩
    · exfalso
      have : ∀ (l : List Byte) n, ¬l < List.replicate n 0#8 ∨ l.length < n := by
        intro l
        induction l with
        | nil =>
          intro n
          cases n with
          | zero => exact .inl (List.lt_irrefl _)
          | succ n => exact .inr (by simp)
        | cons z l ih =>
          intro n
          cases n with
          | zero => exact .inl (List.not_lt_nil _)
          | succ n =>
            rw [List.replicate_succ, List.cons_lt_cons_iff]
            rcases ih n with h1 | h1
            · refine .inl ?_
              rintro (h2 | ⟨-, h2⟩)
              · exact absurd h2 (by simp)
              · exact h1 h2
            · exact .inr (by simpa using h1)
      rcases this (x :: a ++ List.replicate p 0#8) q with h1 | h1
      · exact h1 (by simpa using h)
      · simp at h1 hl
        omega
    · rw [List.cons_append, List.cons_append, List.cons_lt_cons_iff] at h
      rw [List.cons_lt_cons_iff]
      rcases h with h | ⟨h1, h2⟩
      · exact .inl h
      · exact .inr ⟨h1, ih (by simp at hl; omega) h2⟩

end Sys2Proof.Machine
end

