-- ==== Sys2Proof/Tests/Slice0.lean ====
section
/-! SUPPORT. Tests: the well-formedness smoke test, the decoding of hand-written words, the spec's own
examples (the rule or the vector of 95_test_vectors.md is named at each), and for every statement of
Certificates/Slice0/Obligations.lean with hypotheses a state and operands that meet them. -/

namespace Sys2Proof.Tests

open Sys2Proof Sys2Proof.Machine

/-! ## Helpers -/

/-- A state with the key bytes `k` in KBUF, a length and a cursor (test configuration, R11). -/
def keyState (k : List Byte) (len cur : Nat) : State :=
  { State.reset with
    kbuf := overlay k State.reset.kbuf
    klen := BitVec.ofNat 32 len
    cur := BitVec.ofNat 32 cur }

/-- A state with a Decimal Value in the registers. -/
def valueState (sign : BitVec 1) (cls : BitVec 2) (d : List Nat) (exp : Int) : State :=
  { State.reset with
    sign := sign
    cls := cls
    exp := BitVec.ofInt 32 exp
    dcnt := BitVec.ofNat 32 d.length
    dig := overlay (toCells d) State.reset.dig }

/-- Does `exec` give a next state that passes `p`? -/
def gives (i : Instr) (s : State) (p : State → Bool) : Bool :=
  match exec i s with
  | .next t => p t
  | .fault _ => false
  | .refused _ => false

/-- STATUS and DETAIL. -/
def reports (a : BitVec 3) (b : BitVec 5) (t : State) : Bool := t.status == a && t.detail == b

/-- The Decimal Value in the registers. -/
def holds (sign : BitVec 1) (cls : BitVec 2) (d : List Nat) (exp : Int) (t : State) : Bool :=
  t.sign == sign && t.cls == cls && t.coefficient == d && t.exp == BitVec.ofInt 32 exp

/-- A check that is enough for the invariant of a state that has reported no fault. -/
def invCheck (s : State) : Bool :=
  s.params.valid && Memory.wf s && s.status == 0#3 && s.detail == 0#5 && s.kind != 7#3 && s.nbits == 0#6

theorem inv_of_check {s : State} (h : invCheck s = true) : BlockInv s := by
  simp only [invCheck, Bool.and_eq_true, beq_iff_eq, bne_iff_ne] at h
  obtain ⟨⟨⟨⟨⟨h1, h2⟩, h3⟩, h4⟩, h5⟩, h6⟩ := h
  exact ⟨h1, h2, .inl ⟨h3, h4⟩, h5, .inl h6⟩

/-! ## Well-formedness smoke: one ill-formed term for each check -/

theorem smoke_pack_width_0 : (Instr.pack 0#4 1#8).wf = false := by decide
theorem smoke_pack_width_9 : (Instr.pack 9#4 1#8).wf = false := by decide
theorem smoke_unpack_width_0 : (Instr.unpack 0#4).wf = false := by decide
theorem smoke_unpack_width_9 : (Instr.unpack 9#4).wf = false := by decide
theorem smoke_wr_cmd : (Instr.wr 0 1#32).wf = false := by decide
theorem smoke_key_neg_finite : (Instr.keyNegFinite 1#1 3#4).wf = false := by decide
theorem smoke_key_pos_finite : (Instr.keyPosFinite 0#1 12#4).wf = false := by decide

/-! ## Decoding: words written out bit by bit from 30_encoding.md R71, R79, R83 -/

theorem decode_encode : decodeTableWord 16 0b00000000_0000_0001 = some .encode := by decide
theorem decode_decode : decodeTableWord 16 0b00000000_0000_0010 = some .decode := by decide
theorem decode_pack : decodeTableWord 16 0b11111111_1000_0011 = some (.pack 8#4 0xFF#8) := by decide
theorem decode_unpack : decodeTableWord 16 0b00000000_0111_0100 = some (.unpack 7#4) := by decide
theorem decode_expenc : decodeTableWord 16 0b00000000_0000_0101 = some .expenc := by decide
theorem decode_expdec : decodeTableWord 16 0b00000000_0000_0110 = some .expdec := by decide
theorem decode_sigenc : decodeTableWord 16 0b00000000_0000_0111 = some .sigenc := by decide
theorem decode_sigdec : decodeTableWord 16 0b00000000_0000_1000 = some .sigdec := by decide
theorem decode_classv : decodeTableWord 16 0b00000000_0000_1001 = some .classv := by decide
theorem decode_classk : decodeTableWord 16 0b00000000_0000_1010 = some .classk := by decide
theorem decode_spenc : decodeTableWord 16 0b00000000_0000_1011 = some .spenc := by decide
theorem decode_spdec : decodeTableWord 16 0b00000000_0000_1100 = some .spdec := by decide
theorem decode_reserved_0 :
    decodeTableWord 16 0b10100000_0001_0000 = some (.reservedOp0 0b101000000001#12) := by decide
theorem decode_reserved_d :
    decodeTableWord 16 0b00000000_0011_1101 = some (.reservedOpD 3#12) := by decide
theorem decode_reserved_e :
    decodeTableWord 16 0b00000001_0000_1110 = some (.reservedOpE 16#12) := by decide
theorem decode_reserved_f :
    decodeTableWord 16 0b11111111_1111_1111 = some (.reservedOpF 0xFFF#12) := by decide
theorem decode_rd : decode (.rd 0x2016) = .ok (.rd 0x2016) := by decide
theorem decode_wr : decode (.wr 0x05 0xFFFFFFFF#32) = .ok (.wr 0x05 0xFFFFFFFF#32) := by decide
theorem decode_key_neg_inf : decodeTableWord 8 0b00000000 = some .keyNegInf := by decide
theorem decode_key_neg_zero : decodeTableWord 8 0b01000000 = some .keyNegZero := by decide
theorem decode_key_pos_zero : decodeTableWord 8 0b10000000 = some .keyPosZero := by decide
theorem decode_key_pos_inf : decodeTableWord 8 0b11000000 = some .keyPosInf := by decide
theorem decode_key_nan : decodeTableWord 8 0b11100000 = some .keyNan := by decide
theorem decode_key_neg_finite :
    decodeTableWord 8 0b000_0_0111 = some (.keyNegFinite 0#1 7#4) := by decide
theorem decode_key_neg_finite_t :
    decodeTableWord 8 0b000_1_0100 = some (.keyNegFinite 1#1 4#4) := by decide
theorem decode_key_pos_finite :
    decodeTableWord 8 0b100_1_0000 = some (.keyPosFinite 1#1 0#4) := by decide
theorem decode_key_pos_finite_t :
    decodeTableWord 8 0b100_0_1011 = some (.keyPosFinite 0#1 11#4) := by decide
theorem decode_key_invalid_neg : decodeTableWord 8 0b000100_11 = some (.keyInvalidNeg 3#2) := by decide
theorem decode_key_invalid_pos : decodeTableWord 8 0b100011_01 = some (.keyInvalidPos 1#2) := by decide
theorem decode_key_invalid_sign01 :
    decodeTableWord 8 0b01_000001 = some (.keyInvalidSign01 1#6) := by decide
theorem decode_key_invalid_sign11 :
    decodeTableWord 8 0b11_111111 = some (.keyInvalidSign11 63#6) := by decide
theorem decode_key_invalid_pad_neg :
    decodeTableWord 8 0b001_00000 = some (.keyInvalidPadNeg 0#5) := by decide
theorem decode_key_invalid_pad_pos :
    decodeTableWord 8 0b101_10000 = some (.keyInvalidPadPos 16#5) := by decide

/-- A key longer than two bytes has the row of its first byte (R70). -/
theorem decode_long_key : decode (.key 23 0x40#8) = .ok (.keyInvalidSign01 0#6) := by decide

/-- The words the decoder rejects (R84; 43_special.md R167). -/
theorem decode_rejects :
    decode (.wr 0 0x0101#32) = .error .reservedField ∧ decode (.wr 0 0x001C#32) = .error .reservedField ∧
    decode (.wr 0 0x0194#32) = .error .badWidth ∧ decode (.wr 0 0x0184#32) = .error .reservedField ∧
    decode (.key 0 0x00#8) = .error .emptyKey ∧ decode (.key 1 0x90#8) = .error .unknownSpecial := by
  decide

/-! ## The spec's examples -/

/-- R102, first example. -/
theorem test_pack : gives (.pack 2#4 0b10#8) State.reset (fun t =>
    reports 0 0 t && t.key == [0x80#8] && t.klen == 1 && t.cur == 2) = true := by decide

/-- R102, second example: bits over a byte boundary. -/
theorem test_pack_straddles : gives (.pack 8#4 0xFF#8) (keyState [0x90#8] 1 6) (fun t =>
    reports 0 0 t && t.key == [0x93#8, 0xFC#8] && t.cur == 14) = true := by decide

/-- R103, example. -/
theorem test_unpack : gives (.unpack 8#4) (keyState [0x90#8, 0xBE#8] 2 6) (fun t =>
    reports 0 0 t && t.val == 0x2F && t.cur == 14 && t.klen == 2) = true := by decide

/-- 95_test_vectors.md section 2: a read past the end. -/
theorem test_unpack_past_end : gives (.unpack 8#4) (keyState [0x90#8, 0xBE#8] 2 9) (fun t =>
    reports 1 6 t && t.val == 0 && t.cur == 9) = true := by decide

/-- R122, first example. -/
theorem test_expenc : gives .expenc { keyState [0x90#8] 1 4 with tbit := 1#1 } (fun t =>
    reports 0 0 t && t.key == [0x90#8] && t.cur == 6 && t.nbits == 2) = true := by decide

/-- 95_test_vectors.md section 3: a field over byte boundaries. -/
theorem test_expenc_straddles : gives .expenc
    { keyState [0x90#8] 1 4 with emag := 126#32, tbit := 1#1 } (fun t =>
    reports 0 0 t && t.key == [0x9F#8, 0xC0#8, 0x00#8] && t.cur == 18 && t.nbits == 8) = true := by decide

/-- R124, second example. -/
theorem test_expdec : gives .expdec (keyState [0x07#8, 0xC8#8, 0x0C#8, 0x80#8] 4 4) (fun t =>
    reports 0 0 t && t.emag == 2 && t.nbits == 3 && t.cur == 8) = true := by decide

/-- 95_test_vectors.md section 3: a run that passes M. -/
theorem test_expdec_run : gives .expdec
    { keyState [0x9F#8, 0xFF#8, 0xFF#8, 0xFF#8, 0xFF#8] 5 4 with tbit := 1#1 } (reports 1 7) = true := by
  decide

/-- R144, first example. -/
theorem test_sigenc : gives .sigenc
    { valueState 0 0 [1, 9, 0] 0 with kbuf := (keyState [0x90#8] 1 6).kbuf, klen := 1, cur := 6 } (fun t =>
    reports 0 0 t && t.key == [0x90#8, 0xBE#8] && t.cur == 16) = true := by decide

/-- R144, second example: the complement is applied. -/
theorem test_sigenc_negative : gives .sigenc
    { valueState 1 0 [1, 9, 9, 8, 0, 0] 0 with kbuf := (keyState [0x07#8] 1 8).kbuf, klen := 1, cur := 8 }
    (fun t => reports 0 0 t && t.key == [0x07#8, 0xC8#8, 0x0C#8, 0x80#8] && t.cur == 28 &&
      t.coefficient == [1, 9, 9, 8, 0, 0]) = true := by decide

/-- R146, first example. -/
theorem test_sigdec : gives .sigdec (keyState [0x90#8, 0xBE#8] 2 6) (fun t =>
    reports 0 0 t && t.coefficient == [1, 9, 0] && t.cur == 16) = true := by decide

/-- R146, second example. -/
theorem test_sigdec_negative : gives .sigdec
    { keyState [0x07#8, 0xC8#8, 0x0C#8, 0x80#8] 4 8 with sign := 1#1 } (fun t =>
    reports 0 0 t && t.coefficient == [1, 9, 9, 8, 0, 0] && t.cur == 32) = true := by decide

/-- R161, the two examples. -/
theorem test_classv :
    gives .classv (valueState 1 0 [1, 9, 9, 8] 0) (fun t => reports 0 0 t && t.kind == 1) = true ∧
    gives .classv (valueState 0 0 [0, 0] 0) (fun t => reports 0 0 t && t.kind == 3) = true := by decide

/-- R162, the three examples. -/
theorem test_classk :
    gives .classk (keyState [0x90#8] 2 0) (fun t => reports 0 0 t && t.kind == 4) = true ∧
    gives .classk (keyState [0x90#8] 1 0) (reports 1 2) = true ∧
    gives .classk (keyState [0x8C#8] 2 0) (reports 1 5) = true := by decide

/-- R163, the two examples. -/
theorem test_spenc :
    gives .spenc (valueState 1 1 [] 0) (fun t => reports 0 0 t && t.key == [0x00#8]) = true ∧
    gives .spenc (valueState 1 2 [] 0) (fun t => reports 0 0 t && t.key == [0xE0#8]) = true := by decide

/-- R164, the example. -/
theorem test_spdec : gives .spdec (keyState [0x40#8] 1 0) (fun t =>
    reports 0 0 t && holds 1 0 [0] 0 t && t.cur == 8) = true := by decide

/-- R180, the example (vector V1): 1.9. -/
theorem test_encode : gives .encode (valueState 0 0 [1, 9] (-1)) (fun t =>
    reports 0 0 t && t.key == [0x90#8, 0xBE#8] && t.cur == 16 && t.emag == 0 && t.tbit == 1 &&
    t.nbits == 2 && holds 0 0 [1, 9] (-1) t) = true := by decide

/-- Vector V2: -199.8. -/
theorem test_encode_negative : gives .encode (valueState 1 0 [1, 9, 9, 8] (-1)) (fun t =>
    reports 0 0 t && t.key == [0x07#8, 0xC8#8, 0x0C#8, 0x80#8] && t.cur == 28 && t.emag == 2 &&
    t.tbit == 0 && t.nbits == 3) = true := by decide

/-- R186, the example (vector V2 read backwards). -/
theorem test_decode : gives .decode (keyState [0x07#8, 0xC8#8, 0x0C#8, 0x80#8] 4 0) (fun t =>
    reports 0 0 t && holds 1 0 [1, 9, 9, 8, 0, 0] (-3) t && t.emag == 2 && t.tbit == 0 && t.nbits == 3 &&
    t.cur == 32) = true := by decide

/-- Vector V5: declet 1000. -/
theorem test_decode_bad_declet : gives .decode (keyState [0x93#8, 0xE8#8] 2 0) (reports 1 11) = true := by
  decide

/-- Vector V4 and V9: the rows of invalid first bytes. -/
theorem test_invalid_rows :
    gives (.keyInvalidNeg 3#2) (keyState [0x13#8, 0xFF#8] 2 0) (reports 1 5) = true ∧
    gives (.keyInvalidPos 0#2) (keyState [0x8C#8, 0x00#8] 2 0) (reports 1 5) = true ∧
    gives (.keyInvalidSign01 63#6) (keyState [0x7F#8, 0xFF#8] 2 0) (reports 1 3) = true ∧
    gives (.keyInvalidSign11 32#6) (keyState [0xE0#8, 0x00#8] 2 0) (reports 1 3) = true ∧
    gives (.keyInvalidPadNeg 0#5) State.reset (reports 1 4) = true ∧
    gives (.keyInvalidPadPos 0#5) State.reset (reports 1 4) = true := by decide

/-- Vector V3: the rows of one-byte keys. -/
theorem test_special_rows :
    gives .keyNegInf State.reset (holds 1 1 [] 0) = true ∧
    gives .keyNegZero State.reset (holds 1 0 [0] 0) = true ∧
    gives .keyPosZero State.reset (holds 0 0 [0] 0) = true ∧
    gives .keyPosInf State.reset (holds 0 1 [] 0) = true ∧
    gives .keyNan State.reset (holds 0 2 [] 0) = true := by decide

/-- Vectors V1 and V2: the finite rows, the row giving the first byte. -/
theorem test_finite_rows :
    gives (.keyPosFinite 1#1 0#4) (keyState [0#8, 0xBE#8] 2 0) (holds 0 0 [1, 9, 0] (-2)) = true ∧
    gives (.keyNegFinite 0#1 7#4) (keyState [0#8, 0xC8#8, 0x0C#8, 0x80#8] 4 0)
      (holds 1 0 [1, 9, 9, 8, 0, 0] (-3)) = true := by decide

/-- The reserved op codes (R84). -/
theorem test_reserved :
    gives (.reservedOp0 1#12) State.reset (reports 4 28) = true ∧
    gives (.reservedOpD 0#12) State.reset (reports 4 28) = true ∧
    gives (.reservedOpE 0#12) State.reset (reports 4 28) = true ∧
    gives (.reservedOpF 0#12) State.reset (reports 4 28) = true := by decide

/-- R104, the example's read of KBUF[0]; a bus error for an unassigned number. -/
theorem test_rd :
    gives (.rd 0x2000) (keyState [0x90#8, 0xBE#8] 2 16) (fun t => t.resp == .value 0x90#32) = true ∧
    gives (.rd 0x2017) State.reset (fun t => t.resp == .busError) = true := by decide

/-- R105, the example; a read-only register; a command word by the host. -/
theorem test_wr :
    gives (.wr 0x2001 0xBE#32) State.reset (fun t => t.resp == .done && getbit t.kbuf 8 &&
      t.kbuf.getD 1 0 == 0xBE#8) = true ∧
    gives (.wr 0x01 3#32) State.reset (fun t => t.resp == .busError && t.status == 0) = true ∧
    gives (.wr 0x00 0xFFFF0223#32) State.reset (fun t => t.key == [0x80#8]) = true := by decide

/-- One step performs the oldest transaction; the word placed by `withFetchWord` is the next to run. -/
theorem test_step : step (State.reset.withFetchWord 16 0x0003) =
    .next (State.reset.reported 4#3 29#5) := rfl

/-- A step on a placed key byte decodes the key. -/
theorem test_step_key : (match step (State.reset.withFetchWord 8 0x40) with
    | .next t => holds 1 0 [0] 0 t && t.klen == 1
    | .fault _ => false
    | .refused _ => false) = true := by decide

/-! ## Witnesses: the hypotheses of each statement can be met, clause by clause, at boundary values

A case of a witness is a state that meets the invariant and a check that holds of it. -/

/-- Cases of a witness. -/
abbrev Cases := List (State × (State → Bool))

/-- Every case is a state of the invariant that passes its check. -/
def Met (l : Cases) : Prop := ∀ c ∈ l, BlockInv c.1 ∧ c.2 c.1 = true

theorem met {l : Cases} (h : (l.all fun c => invCheck c.1 && c.2 c.1) = true) : Met l := by
  intro c hc
  have := List.all_eq_true.mp h c hc
  rw [Bool.and_eq_true] at this
  exact ⟨inv_of_check this.1, this.2⟩

/-- The number in KBUF[0]. -/
def leadNumber (s : State) : Nat := (s.kbuf.getD 0 0#8).toNat

/-- A check that is enough for a canonical padded coefficient. -/
def canonicalCheck (p : Params) (d : List Nat) : Bool :=
  d.all (fun x => decide (x ≤ 9)) && decide (d.length % 3 = 0) && decide (0 < d.length) &&
  decide (d.length ≤ p.dmax) && decide (d.headD 0 ≠ 0) && !lastGroupZero d

theorem canonical_of_check {p : Params} {d : List Nat} (h : canonicalCheck p d = true) :
    Canonical p d := by
  simp only [canonicalCheck, Bool.and_eq_true, decide_eq_true_eq, List.all_eq_true,
    Bool.not_eq_true'] at h
  obtain ⟨⟨⟨⟨⟨h1, h2⟩, h3⟩, h4⟩, h5⟩, h6⟩ := h
  exact ⟨h1, h2, h3, h4, h5, h6⟩

/-- The padded coefficients the witnesses use are canonical. -/
theorem canonical_examples :
    Canonical Config.testParams [1, 9, 0] ∧ Canonical Config.testParams [1, 9, 9, 8, 0, 0] ∧
    Canonical Config.testParams [1, 0, 0] :=
  ⟨canonical_of_check (by decide), canonical_of_check (by decide), canonical_of_check (by decide)⟩

theorem witness_DecodeReadsBackEveryEncoding :
    (Instr.pack 1#4 0#8).wf = true ∧ (Instr.pack 8#4 0xFF#8).wf = true ∧ (Instr.unpack 1#4).wf = true ∧
    (Instr.unpack 8#4).wf = true ∧ (Instr.wr 1 0#32).wf = true ∧ (Instr.keyNegFinite 1#1 4#4).wf = true ∧
    (Instr.keyNegFinite 0#1 0#4).wf = true ∧ (Instr.keyPosFinite 0#1 11#4).wf = true ∧
    (Instr.keyPosFinite 1#1 15#4).wf = true := by decide

/-- The fields `op`, `n`, `bits` of the words 0x0000, 0x000D, 0x000F; 0x0003, 0x0093, 0x00F4; 0x0114, 0xFF84;
0x0011, 0x010C; and two words that differ above bit `n - 1` of `bits`. -/
theorem witness_IllegalCommandWordsFault :
    let f := fun v : Word => (v.toNat % 16, v.toNat / 16 % 16, v.toNat / 256 % 256)
    f 0x0000#32 = (0, 0, 0) ∧ f 0x000D#32 = (13, 0, 0) ∧ f 0xFFF0F00F#32 = (15, 0, 240) ∧
    f 0x0003#32 = (3, 0, 0) ∧ f 0x0093#32 = (3, 9, 0) ∧ f 0x00F4#32 = (4, 15, 0) ∧
    f 0x0114#32 = (4, 1, 1) ∧ f 0xFF84#32 = (4, 8, 255) ∧ f 0x0011#32 = (1, 1, 0) ∧
    f 0x010C#32 = (12, 0, 1) ∧
    f 0xFF13#32 = (3, 1, 255) ∧ f 0x0113#32 = (3, 1, 1) ∧ 255 % 2 ^ 1 = 1 % 2 ^ 1 ∧
    f 0xFF83#32 = (3, 8, 255) ∧ f 0x1234FF83#32 = (3, 8, 255) := by decide

theorem witness_ResetLeavesScalarsZero :
    Config.testParams.valid = true ∧ 35 < Config.testParams.dmax ∧ 22 < Config.testParams.kmax ∧
    ({ dmax := 4095, m := 31, elim := 2147479552 } : Params).valid = true ∧
    ({ dmax := 3, m := 5, elim := 0 } : Params).valid = true := by decide

theorem witness_ResetEventGivesResetState :
    (State.reset.issue .reset).params.valid = true ∧
    (State.reset.issue .reset).pending = .reset :: [] := by decide

theorem witness_IdleBlockStays : State.reset.params.valid = true ∧ State.reset.pending = [] := by decide

theorem witness_StepRunsTheDecodedInstruction :
    State.reset.params.valid = true ∧
    ((State.reset.issue (.rd 0x2016)).pending = .rd 0x2016 :: [] ∧ decode (.rd 0x2016) = .ok (.rd 0x2016)) ∧
    ((State.reset.issue (.wr 0 1#32)).pending = .wr 0 1#32 :: [] ∧ decode (.wr 0 1#32) = .ok .encode) ∧
    ((State.reset.issue (.wr 0 0x194#32)).pending = .wr 0 0x194#32 :: [] ∧
      decode (.wr 0 0x194#32) = .error .badWidth) ∧
    ((State.reset.issue (.wr 0 0x11#32)).pending = .wr 0 0x11#32 :: [] ∧
      decode (.wr 0 0x11#32) = .error .reservedField) := by decide

theorem witness_CommandWriteRunsItsOperation :
    (Instr.pack 8#4 0xFF#8).isCommand = true ∧ (Instr.pack 8#4 0xFF#8).wf = true ∧
    encode (.pack 8#4 0xFF#8) = .wr 0 0xFF83#32 ∧
    (0x1234FF83#32).setWidth 16 = (0xFF83#32).setWidth 16 := by decide

theorem witness_ReadGivesStoredBits :
    State.reset.params.valid = true ∧ 35 < State.reset.params.dmax ∧ 22 < State.reset.params.kmax ∧
    (∀ r ∈ [0x0E, 0x0FFF, 0x1024, 0x1FFF, 0x2017],
      0x0D < r ∧ (r < 0x1000 ∨ 0x1000 + State.reset.params.dmax ≤ r) ∧
        (r < 0x2000 ∨ 0x2000 + State.reset.params.kmax ≤ r)) := by decide

theorem witness_WriteStoresLowBits :
    State.reset.params.valid = true ∧ 35 < State.reset.params.dmax ∧ 22 < State.reset.params.kmax ∧
    decode (.wr 0 0xFFFF0002#32) = .ok .decode ∧ decode (.wr 0 0x194#32) = .error .badWidth ∧
    decode (.wr 0 0x184#32) = .error .reservedField ∧
    (0xFFFF0002#32).setWidth 16 = (2#32).setWidth 16 ∧
    (∀ r ∈ [0x0E, 0x0FFF, 0x1024, 0x1FFF, 0x2017],
      0x0D < r ∧ (r < 0x1000 ∨ 0x1000 + State.reset.params.dmax ≤ r) ∧
        (r < 0x2000 ∨ 0x2000 + State.reset.params.kmax ≤ r)) := by decide

/-- The last bit and the last byte of KBUF; a length and cursors one too large. -/
theorem witness_PackWritesItsBits : Met
    [(keyState [] 22 183, fun s => decide (s.klen.toNat ≤ s.params.kmax ∧
        s.cur.toNat + (1#4).toNat ≤ 8 * s.params.kmax)),
     (keyState [] 23 176, fun s => decide (s.klen.toNat ≤ s.params.kmax ∧
        s.cur.toNat + (8#4).toNat ≤ 8 * s.params.kmax)),
     (State.reset, fun _ => decide ((0#4).toNat = 0 ∧ 9 ≤ (9#4).toNat ∧ 9 ≤ (15#4).toNat)),
     (keyState [] 24 0, fun s => decide (s.params.kmax < s.klen.toNat)),
     (keyState [] 23 184, fun s => decide (8 * s.params.kmax < s.cur.toNat + (1#4).toNat)),
     (keyState [] 23 177, fun s => decide (8 * s.params.kmax < s.cur.toNat + (8#4).toNat))] :=
  met (by decide)

theorem witness_UnpackReadsItsBits : Met
    [(keyState [0x90#8, 0xBE#8] 2 8, fun s => decide (s.klen.toNat ≤ s.params.kmax ∧
        s.cur.toNat + (8#4).toNat ≤ 8 * s.klen.toNat)),
     (keyState [] 23 183, fun s => decide (s.klen.toNat ≤ s.params.kmax ∧
        s.cur.toNat + (1#4).toNat ≤ 8 * s.klen.toNat)),
     (State.reset, fun _ => decide ((0#4).toNat = 0 ∧ 9 ≤ (9#4).toNat ∧ 1#8 ≠ 0#8)),
     (keyState [] 24 0, fun s => decide (s.params.kmax < s.klen.toNat)),
     (keyState [0x90#8, 0xBE#8] 2 9, fun s => decide (s.klen.toNat ≤ s.params.kmax ∧
        8 * s.klen.toNat < s.cur.toNat + (8#4).toNat)),
     (keyState [] 0 0, fun s => decide (8 * s.klen.toNat < s.cur.toNat + (1#4).toNat))] :=
  met (by decide)

/-- One bit and seven bits make eight, at the last byte of KBUF. -/
theorem witness_PackSplitsAnywhere :
    Met [(keyState [] 22 176, fun s => decide ((8#4).toNat = (1#4).toNat + (7#4).toNat ∧
      s.klen.toNat ≤ s.params.kmax ∧ s.cur.toNat + (8#4).toNat ≤ 8 * s.params.kmax))] ∧
    ∃ t, exec (.pack 1#4 (0xA5#8 >>> 7)) (keyState [] 22 176) = .next t := ⟨met (by decide), _, rfl⟩

theorem witness_UnpackReadsBackPack :
    BlockInv (keyState [0x90#8] 1 6) ∧
    ∃ t, exec (.pack 8#4 0xA5#8) (keyState [0x90#8] 1 6) = .next t ∧ t.status = 0#3 :=
  ⟨inv_of_check (by decide), _, rfl, rfl⟩

theorem witness_ExponentFieldProperties :
    (2 ≤ 2 ∧ (expfield 1 true).length = 2 * 2 - 1 ∧ 2 ^ (2 - 1) - 2 ≤ 1 ∧ 1 ≤ 2 ^ 2 - 3) ∧
    ((expfield 2 true).length = 2 * 3 - 1 ∧ 2 ^ (3 - 1) - 2 ≤ 2 ∧ 2 ≤ 2 ^ 3 - 3) ∧
    (expfield 5 false <+: expfield 5 false) ∧ 5 < 6 := by decide

/-- The largest exponent in the last bits of KBUF; one more; a buffer too small by one bit; a bad length. -/
theorem witness_ExpencWritesTheField : Met
    [({ keyState [] 16 126 with emag := 999999999#32 }, fun s => decide (s.emag.toNat ≤ s.params.elim ∧
        s.klen.toNat ≤ s.params.kmax ∧
        s.cur.toNat + (2 * bitlen (s.emag.toNat + 2) - 2) ≤ 8 * s.params.kmax)),
     ({ State.reset with emag := 1000000000#32 }, fun s => decide (s.params.elim < s.emag.toNat)),
     ({ keyState [] 16 127 with emag := 999999999#32 }, fun s => decide (s.emag.toNat ≤ s.params.elim ∧
        8 * s.params.kmax < s.cur.toNat + (2 * bitlen (s.emag.toNat + 2) - 2))),
     (keyState [] 24 0, fun s => decide (s.emag.toNat ≤ s.params.elim ∧
        s.params.kmax < s.klen.toNat))] := met (by decide)

/-- In order: a field; a bad length; a run that ends with the key one bit before it would pass M; a run that
passes M in the key's last bit; payloads cut short after the longest and the shortest run; an exponent one too large. -/
theorem witness_ExpdecReadsTheField : Met
    [({ keyState [0x90#8, 0xBE#8] 2 4 with tbit := 1#1 }, fun s => decide (0 ≤ s.params.elim ∧
        bitlen (0 + 2) = 2 ∧ s.klen.toNat ≤ s.params.kmax ∧ s.cur.toNat + 2 ≤ 8 * s.klen.toNat ∧
        readBits s.kbuf s.cur.toNat 2 = (expfield 0 true).tail)),
     (keyState [] 24 0, fun s => decide (s.params.kmax < s.klen.toNat)),
     (keyState [] 4 3, fun s => decide (s.klen.toNat ≤ s.params.kmax ∧
        8 * s.klen.toNat < s.cur.toNat + s.params.m ∧
        ∀ j, s.cur.toNat ≤ j → j < 8 * s.klen.toNat → getbit s.kbuf j = false)),
     (keyState [] 4 2, fun s => decide (s.klen.toNat ≤ s.params.kmax ∧
        s.cur.toNat + s.params.m ≤ 8 * s.klen.toNat ∧
        ∀ j, s.cur.toNat ≤ j → j < s.cur.toNat + s.params.m → getbit s.kbuf j = false)),
     (keyState [0#8, 0#8, 0#8, 0#8, 0x80#8] 5 3, fun s => decide (29 < s.params.m ∧
        s.cur.toNat + 29 < 8 * s.klen.toNat ∧
        (∀ j, s.cur.toNat ≤ j → j < s.cur.toNat + 29 → getbit s.kbuf j = false) ∧
        getbit s.kbuf (s.cur.toNat + 29) = true ∧ 8 * s.klen.toNat < s.cur.toNat + (2 * 29 + 2))),
     (keyState [0x01#8] 1 7, fun s => decide (s.cur.toNat + 0 < 8 * s.klen.toNat ∧
        getbit s.kbuf (s.cur.toNat + 0) = true ∧ 8 * s.klen.toNat < s.cur.toNat + (2 * 0 + 2)))] :=
  met (by decide)

/-- ExponentTooLarge (95_test_vectors.md section 3, E = 1,000,000,000). -/
theorem witness_ExpdecReadsTheField_large :
    BlockInv { keyState [0x9F#8, 0xFF#8, 0xFF#8, 0xFF#8, 0x6E#8, 0x6B#8, 0x28#8, 0x08#8] 8 4 with tbit := 1#1 } ∧
    Config.testParams.elim < 1000000000 ∧ bitlen (1000000000 + 2) = 30 ∧ 4 + (2 * 30 - 2) ≤ 8 * 8 ∧
    readBits (keyState [0x9F#8, 0xFF#8, 0xFF#8, 0xFF#8, 0x6E#8, 0x6B#8, 0x28#8, 0x08#8] 8 4).kbuf 4 58 =
      (expfield 1000000000 true).tail :=
  ⟨inv_of_check (by decide), by decide, by decide, by decide, rfl⟩

theorem witness_TensComplementProperties :
    (AllDigits [1, 9, 9, 8, 0, 0] ∧ 1 ≤ digitsValue [1, 9, 9, 8, 0, 0] ∧
      [1, 9, 9, 8, 0, 0].getD 3 0 ≠ 0 ∧ ∀ i, 3 < i → [1, 9, 9, 8, 0, 0].getD i 0 = 0) ∧
    (AllDigits [9, 9, 9] ∧ AllDigits [0, 0, 1] ∧ 1 ≤ digitsValue [0, 0, 1] ∧
      digitsValue [0, 0, 1] < digitsValue [9, 9, 9]) := by
  refine ⟨⟨?_, by decide, by decide, ?_⟩, ?_, ?_, by decide, by decide⟩
  · show ∀ x ∈ [1, 9, 9, 8, 0, 0], x ≤ 9
    decide
  · intro i hi
    rcases Nat.lt_or_ge i 6 with h | h
    · have : i = 4 ∨ i = 5 := by omega
      rcases this with rfl | rfl <;> rfl
    · exact List.getD_eq_default _ _ h
  · show ∀ x ∈ [9, 9, 9], x ≤ 9
    decide
  · show ∀ x ∈ [0, 0, 1], x ≤ 9
    decide

theorem witness_DecletAndDigitsAreInverse :
    (0 ≤ 9 ∧ 9 ≤ 9) ∧ (0 ≤ 999 ∧ 999 ≤ 999) ∧ (1000 ≤ 1000 ∧ 1000 ≤ 1023) ∧ (1000 ≤ 1023 ∧ 1023 ≤ 1023) := by
  decide

/-- Room to the last bit of KBUF, positive zeros and a negative coefficient; bad counts; a cell that holds 10;
a negative coefficient of zeros; one bit too little room; a bad length. -/
theorem witness_SigencWritesTheDeclets : Met
    [({ valueState 0 0 [0, 0, 0] 0 with klen := 23, cur := 174 }, fun s => decide (s.dcnt.toNat % 3 = 0 ∧
        1 ≤ s.dcnt.toNat ∧ (∀ x ∈ s.coefficient, x ≤ 9) ∧ s.klen.toNat ≤ s.params.kmax ∧
        s.cur.toNat + 10 * (s.dcnt.toNat / 3) ≤ 8 * s.params.kmax)),
     ({ valueState 1 0 [1, 9, 9] 0 with dcnt := 36, klen := 1, cur := 64 }, fun s => decide (
        s.dcnt.toNat % 3 = 0 ∧ s.dcnt.toNat ≤ s.params.dmax ∧ (∀ x ∈ s.coefficient, x ≤ 9) ∧
        (∃ x ∈ s.coefficient, x ≠ 0) ∧ s.cur.toNat + 10 * (s.dcnt.toNat / 3) ≤ 8 * s.params.kmax)),
     (valueState 0 0 [] 0, fun s => decide (s.dcnt.toNat = 0)),
     ({ State.reset with dcnt := 37 }, fun s => decide (s.params.dmax < s.dcnt.toNat)),
     (valueState 0 0 [1, 9] 0, fun s => decide (s.dcnt.toNat % 3 ≠ 0)),
     (valueState 0 0 [1, 9, 10] 0, fun s => decide (s.dcnt.toNat % 3 = 0 ∧ ∃ x ∈ s.coefficient, 9 < x)),
     (valueState 1 0 [0, 0, 0] 0, fun s => decide (s.sign = 1#1 ∧ ∀ x ∈ s.coefficient, x = 0)),
     ({ valueState 0 0 [1, 9, 0] 0 with klen := 1, cur := 175 }, fun s => decide (
        (∀ x ∈ s.coefficient, x ≤ 9) ∧ 8 * s.params.kmax < s.cur.toNat + 10 * (s.dcnt.toNat / 3))),
     ({ valueState 0 0 [1, 9, 0] 0 with klen := 24 }, fun s => decide (
        (∀ x ∈ s.coefficient, x ≤ 9) ∧ s.params.kmax < s.klen.toNat))] := met (by decide)

/-- No spare bit, and seven (R146, first example; the same declet one bit later). The coefficient is canonical
(`canonical_examples`). -/
theorem witness_SigdecReadsTheDeclets : Met
    [(keyState [0x90#8, 0xBE#8] 2 6, fun s => decide (s.cur.toNat + (10 * (3 / 3) + 0) = 8 * s.klen.toNat ∧
        readBits s.kbuf s.cur.toNat (10 * (3 / 3) + 0) = sigbits [1, 9, 0] (decide (s.sign = 1#1)) ++ [])),
     (keyState [0x00#8, 0x5F#8, 0x00#8] 3 7, fun s => decide (
        s.cur.toNat + (10 * (3 / 3) + 7) = 8 * s.klen.toNat ∧
        readBits s.kbuf s.cur.toNat (10 * (3 / 3) + 7) =
          sigbits [1, 9, 0] (decide (s.sign = 1#1)) ++ List.replicate 7 false)),
     ({ keyState [0x07#8, 0xC8#8, 0x0C#8, 0x80#8] 4 8 with sign := 1 }, fun s => decide (
        s.cur.toNat + (10 * (6 / 3) + 4) = 8 * s.klen.toNat ∧
        readBits s.kbuf s.cur.toNat (10 * (6 / 3) + 4) =
          sigbits [1, 9, 9, 8, 0, 0] (decide (s.sign = 1#1)) ++ List.replicate 4 false))] := met (by decide)

/-- The number of groups and of spare bits after the cursor. -/
def groups (s : State) : Nat × Nat :=
  ((8 * s.klen.toNat - s.cur.toNat) / 10, (8 * s.klen.toNat - s.cur.toNat) % 10)

/-- The faults in order: KeyTooLong; Truncated one bit short, and with the cursor past the key; TooManyDigits;
BadTail for 8 and 9 spare bits; BadDeclet for 1000 and 1023; a spare bit 1; ZeroLastGroup; BadLeadGroup, positive
and negative. -/
theorem witness_SigdecFaultsInOrder : Met
    [(keyState [] 24 0, fun s => decide (s.params.kmax < s.klen.toNat)),
     (keyState [] 2 7, fun s => decide (8 * s.klen.toNat < s.cur.toNat + 10)),
     (keyState [] 2 100, fun s => decide (8 * s.klen.toNat < s.cur.toNat + 10)),
     (keyState [] 17 6, fun s => decide (groups s = (13, 0) ∧ s.params.dmax < 3 * 13)),
     (keyState [] 3 6, fun s => decide (groups s = (1, 8))),
     (keyState [] 3 5, fun s => decide (groups s = (1, 9))),
     (keyState [0x93#8, 0xE8#8] 2 6, fun s => decide (groups s = (1, 0) ∧
        readDeclets s.kbuf s.cur.toNat 1 = [1000])),
     (keyState [0x93#8, 0xFF#8] 2 6, fun s => decide (readDeclets s.kbuf s.cur.toNat 1 = [1023])),
     (keyState [0x00#8, 0x5F#8, 0x01#8] 3 7, fun s => decide (groups s = (1, 7) ∧
        readDeclets s.kbuf s.cur.toNat 1 = [190] ∧ getbit s.kbuf 23 = true)),
     (keyState [0x90#8, 0x00#8] 2 6, fun s => decide (groups s = (1, 0) ∧
        (readDeclets s.kbuf s.cur.toNat 1).getLast? = some 0)),
     (keyState [0x90#8, 0x32#8] 2 6, fun s => decide (readDeclets s.kbuf s.cur.toNat 1 = [50] ∧
        ([50].flatMap decletDigits).head? = some 0)),
     ({ keyState [0x93#8, 0xB6#8] 2 6 with sign := 1 }, fun s => decide (s.sign = 1#1 ∧
        readDeclets s.kbuf s.cur.toNat 1 = [950] ∧
        (tens ([950].flatMap decletDigits)).head? = some 0))] := met (by decide)

/-- Reserved class; NaN; the infinities; digit counts 0 and DMAX + 1; a bad digit; the zeros, with 1 and DMAX
digits; finite nonzero values. The same states serve CLASSV, SPENC and ENCODE of special values. -/
theorem witness_ClassvGivesTheKind : Met
    [(valueState 0 3 [] 0, fun s => decide (s.cls = 3#2)),
     (valueState 1 2 [] 0, fun s => decide (s.cls = 2#2)),
     (valueState 1 1 [] 0, fun s => decide (s.cls = 1#2 ∧ s.sign = 1#1)),
     (valueState 0 1 [] 0, fun s => decide (s.cls = 1#2 ∧ s.sign = 0#1)),
     (valueState 0 0 [] 0, fun s => decide (s.cls = 0#2 ∧ s.dcnt.toNat = 0)),
     ({ State.reset with dcnt := 37 }, fun s => decide (s.cls = 0#2 ∧ s.params.dmax < s.dcnt.toNat)),
     (valueState 0 0 [1, 10] 0, fun s => decide (s.cls = 0#2 ∧ ∃ x ∈ s.coefficient, 9 < x)),
     (valueState 1 0 [0] 0, fun s => decide (s.cls = 0#2 ∧ s.sign = 1#1 ∧ 1 ≤ s.dcnt.toNat ∧
        ∀ x ∈ s.coefficient, x = 0)),
     ({ State.reset with dcnt := 36 }, fun s => decide (s.cls = 0#2 ∧ s.sign = 0#1 ∧
        s.dcnt.toNat ≤ s.params.dmax ∧ ∀ x ∈ s.coefficient, x = 0)),
     (valueState 1 0 [1] 0, fun s => decide (s.cls = 0#2 ∧ s.sign = 1#1 ∧
        (∀ x ∈ s.coefficient, x ≤ 9) ∧ ∃ x ∈ s.coefficient, x ≠ 0)),
     (valueState 0 0 [0, 9] 0, fun s => decide (s.cls = 0#2 ∧ s.sign = 0#1 ∧
        (∀ x ∈ s.coefficient, x ≤ 9) ∧ ∃ x ∈ s.coefficient, x ≠ 0))] := met (by decide)

theorem witness_SpencWritesTheByte :
    ∃ s : State, BlockInv s ∧ ∃ out : Byte → State, ∀ b, out b =
      { s.reported 0#3 0#5 with kbuf := s.kbuf.set 0 b, klen := 1#32, cur := 8#32 } :=
  ⟨State.reset, inv_of_check (by decide), _, fun _ => rfl⟩

theorem witness_EncodeWritesSpecialKeys :
    ∃ s : State, BlockInv s ∧ s.cls = 1#2 ∧ s.sign = 1#1 ∧ ∃ out : Byte → State, ∀ b, out b =
      { s.reported 0#3 0#5 with kbuf := s.kbuf.set 0 b, klen := 1#32, cur := 8#32 } :=
  ⟨valueState 1 1 [] 0, inv_of_check (by decide), rfl, rfl, _, fun _ => rfl⟩

/-- Lengths 0, KMAX + 1, 1, 2 and KMAX, and the first bytes at the ends of each range. The same states serve CLASSK,
SPDEC and DECODE of special keys. -/
theorem witness_ClasskGivesTheKind :
    Met [(keyState [] 0 0, fun s => decide (s.klen.toNat = 0)),
      (keyState [] 24 0, fun s => decide (s.params.kmax < s.klen.toNat))] ∧
    Met ([0x00#8, 0x40#8, 0x80#8, 0xC0#8, 0xE0#8, 0x01#8, 0xFF#8].map fun b : Byte =>
      (keyState [b] 1 0, fun s => decide (s.klen.toNat = 1 ∧ leadNumber s = b.toNat))) ∧
    Met ([0x40#8, 0x7F#8, 0xC0#8, 0xFF#8, 0x20#8, 0x3F#8, 0xA0#8, 0xBF#8, 0x10#8, 0x13#8, 0x8C#8, 0x8F#8,
        0x00#8, 0x0F#8, 0x14#8, 0x1F#8, 0x80#8, 0x8B#8, 0x90#8, 0x9F#8].map fun b : Byte =>
      (keyState [b] 2 0, fun s => decide (2 ≤ s.klen.toNat ∧ leadNumber s = b.toNat))) ∧
    Met [(keyState [0x9F#8] 23 0, fun s => decide (s.klen.toNat = s.params.kmax ∧ leadNumber s = 0x9F))] :=
  ⟨met (by decide), met (by decide), met (by decide), met (by decide)⟩

theorem witness_SpdecReadsTheByte :
    ∃ s : State, BlockInv s ∧ ∃ out : BitVec 1 → BitVec 2 → Word → State, ∀ sg c n, out sg c n =
      { s.reported 0#3 0#5 with sign := sg, cls := c, exp := 0#32, dcnt := n, cur := 8#32 } :=
  ⟨keyState [0x40#8] 1 0, inv_of_check (by decide), _, fun _ _ _ => rfl⟩

theorem witness_DecodeReadsSpecialKeys :
    ∃ s : State, BlockInv s ∧ s.klen.toNat = 1 ∧ leadNumber s = 0xE0 ∧
      ∃ out : BitVec 1 → BitVec 2 → Word → State, ∀ sg c n, out sg c n =
        { s.reported 0#3 0#5 with sign := sg, cls := c, exp := 0#32, dcnt := n, cur := 8#32 } :=
  ⟨keyState [0xE0#8] 1 0, inv_of_check (by decide), rfl, rfl, _, fun _ _ _ => rfl⟩

theorem witness_SpecialKeyRowsDecode (s : State) :
    ∃ out : BitVec 1 → BitVec 2 → Word → State, ∀ sg c n, out sg c n =
      { s.reported 0#3 0#5 with sign := sg, cls := c, exp := 0#32, dcnt := n, cur := 8#32 } :=
  ⟨_, fun _ _ _ => rfl⟩

/-- Adjusted exponents ELIM and -ELIM and one past each; a leading zero digit; a zero last group. -/
theorem witness_EncodeWritesFiniteKeys : Met
    [(valueState 0 0 [1] 999999999, fun s => decide (s.cls = 0#2 ∧ s.coefficient.head? ≠ some 0 ∧
        (∀ x ∈ s.coefficient, x ≤ 9) ∧ (∃ x ∈ s.coefficient, x ≠ 0) ∧
        s.adjExp.natAbs ≤ s.params.elim ∧ lastGroupZero (pad s.coefficient) = false)),
     (valueState 1 0 [1, 9, 9, 8] (-1000000002), fun s => decide (s.coefficient.head? ≠ some 0 ∧
        s.adjExp = -999999999 ∧ s.adjExp.natAbs ≤ s.params.elim ∧
        lastGroupZero (pad s.coefficient) = false)),
     (valueState 0 0 [0, 1] 0, fun s => decide (s.coefficient.head? = some 0 ∧
        ∃ x ∈ s.coefficient, x ≠ 0)),
     (valueState 0 0 [1] 1000000000, fun s => decide (s.coefficient.head? ≠ some 0 ∧
        s.params.elim < s.adjExp.natAbs)),
     (valueState 0 0 [1] (-1000000000), fun s => decide (s.params.elim < s.adjExp.natAbs)),
     (valueState 0 0 [1, 0, 0, 0] 0, fun s => decide (s.coefficient.head? ≠ some 0 ∧
        s.adjExp.natAbs ≤ s.params.elim ∧ lastGroupZero (pad s.coefficient) = true))] := met (by decide)

theorem witness_KeyBitsAreTheFields :
    [1, 9, 0].length % 3 = 0 ∧ signIndicator false 0 = true ∧ bitlen ((0 : Int).natAbs + 2) = 2 ∧
    [1, 9, 9, 8, 0, 0].length % 3 = 0 ∧ signIndicator true 2 = false ∧ bitlen ((2 : Int).natAbs + 2) = 3 := by
  decide

/-- 1.9 without spare bits, -199.8 with four, 100 with six. The coefficients are canonical
(`canonical_examples`). -/
theorem witness_DecodeReadsFiniteKeys : Met
    [(keyState [0x90#8, 0xBE#8] 2 0, fun s => decide ((keyBits false [1, 9, 0] 0).length + 0 = 8 * s.klen.toNat ∧
        readBits s.kbuf 0 (8 * s.klen.toNat) = keyBits false [1, 9, 0] 0 ++ [])),
     (keyState [0x07#8, 0xC8#8, 0x0C#8, 0x80#8] 4 0, fun s => decide (
        (keyBits true [1, 9, 9, 8, 0, 0] 2).length + 4 = 8 * s.klen.toNat ∧
        readBits s.kbuf 0 (8 * s.klen.toNat) =
          keyBits true [1, 9, 9, 8, 0, 0] 2 ++ List.replicate 4 false)),
     (keyState [0x98#8, 0x19#8, 0x00#8] 3 0, fun s => decide (
        (keyBits false [1, 0, 0] 2).length + 6 = 8 * s.klen.toNat ∧
        readBits s.kbuf 0 (8 * s.klen.toNat) =
          keyBits false [1, 0, 0] 2 ++ List.replicate 6 false))] := met (by decide)

/-- A run to the key's end; a bad declet; a good key (`0x93`, vectors V9 and V5), and the negative first bytes. -/
theorem witness_DecodeFaultsAsItsComponents : Met
    [(keyState [0x80#8, 0x00#8] 2 0, fun s => decide (0x80 ≤ leadNumber s ∧ leadNumber s ≤ 0x8B ∧
        expdec s.params s.kbuf s.klen.toNat 4 (getbit s.kbuf 3) = .error .truncated)),
     (keyState [0x93#8, 0xE8#8] 2 0, fun s => decide (0x90 ≤ leadNumber s ∧ leadNumber s ≤ 0x9F ∧
        expdec s.params s.kbuf s.klen.toNat 4 (getbit s.kbuf 3) = .ok { e := 0, n := 2, off := 6 } ∧
        sigdec s.params s.kbuf s.klen.toNat 6 false = .error .badDeclet)),
     (keyState [0x0F#8, 0x84#8] 2 0, fun s => decide (leadNumber s ≤ 0x0F ∧
        expdec s.params s.kbuf s.klen.toNat 4 (getbit s.kbuf 3) = .ok { e := 0, n := 2, off := 6 } ∧
        sigdec s.params s.kbuf s.klen.toNat 6 true = .ok { digits := [1, 0, 0], off := 16 })),
     (keyState [0x14#8, 0x00#8] 2 0, fun s => decide (0x14 ≤ leadNumber s ∧ leadNumber s ≤ 0x1F ∧
        expdec s.params s.kbuf s.klen.toNat 4 (getbit s.kbuf 3) = .ok { e := 1, n := 2, off := 6 } ∧
        sigdec s.params s.kbuf s.klen.toNat 6 true = .error .zeroLastGroup))] := met (by decide)

/-- The rows 0x90 and 0x07 with the rest of the keys of 1.9 and -199.8 in KBUF. -/
theorem witness_FiniteKeyRowsDecode : Met
    [(keyState [0xFF#8, 0xBE#8] 2 0, fun s => decide (0x90#8 = 0b100#3 ++ 1#1 ++ 0#4 ∧
        (keyBits false [1, 9, 0] 0).length + 0 = 8 * s.klen.toNat ∧
        readBits (s.kbuf.set 0 0x90#8) 0 (8 * s.klen.toNat) = keyBits false [1, 9, 0] 0 ++ [])),
     (keyState [0xFF#8, 0xC8#8, 0x0C#8, 0x80#8] 4 0, fun s => decide (0x07#8 = 0b000#3 ++ 0#1 ++ 7#4 ∧
        (keyBits true [1, 9, 9, 8, 0, 0] 2).length + 4 = 8 * s.klen.toNat ∧
        readBits (s.kbuf.set 0 0x07#8) 0 (8 * s.klen.toNat) =
          keyBits true [1, 9, 9, 8, 0, 0] 2 ++ List.replicate 4 false))] := met (by decide)

theorem witness_DecodeRunsItsKeyRow : Met
    [(keyState [0x90#8] 23 0, fun s => decide (s.klen.toNat ≤ s.params.kmax ∧
        decode (.key s.klen.toNat (s.kbuf.getD 0 0#8)) = .ok (.keyPosFinite 1#1 0#4))),
     (keyState [0x00#8] 1 0, fun s => decide (
        decode (.key s.klen.toNat (s.kbuf.getD 0 0#8)) = .ok .keyNegInf)),
     (keyState [0x00#8] 0 0, fun s => decide (
        decode (.key s.klen.toNat (s.kbuf.getD 0 0#8)) = .error .emptyKey)),
     (keyState [0x90#8] 1 0, fun s => decide (
        decode (.key s.klen.toNat (s.kbuf.getD 0 0#8)) = .error .unknownSpecial))] := met (by decide)

theorem witness_FaultsChangeOnlyStatusAndDetail :
    Instr.encode.isCommand = true ∧
    (∃ t, exec .encode State.reset = .next t ∧ t.status ≠ 0#3) ∧
    (∃ t, exec .encode (valueState 0 2 [] 0) = .next t ∧ t.status = 0#3) :=
  ⟨rfl, ⟨_, rfl, by decide⟩, ⟨_, rfl, by decide⟩⟩

theorem witness_NoOperationReadsStatus : (Instr.unpack 0#4).isCommand = true := rfl

/-- 1.9 twice, with other digits above DCNT, other bytes above KLEN and another SCR. -/
theorem witness_StaleCellsNeverReachAResult :
    ∃ s s' t t' : State, Instr.encode.isCommand = true ∧ BlockInv s ∧ BlockInv s' ∧ SameButStale s s' ∧
      s ≠ s' ∧ exec .encode s = .next t ∧ exec .encode s' = .next t' := by
  refine ⟨valueState 0 0 [1, 9] (-1), { valueState 0 0 [1, 9] (-1) with
      dig := overlay (toCells [1, 9, 5]) State.reset.dig
      kbuf := List.replicate 23 0xFF#8
      scr := List.replicate 36 7#4 }, _, _, rfl, inv_of_check (by decide), inv_of_check (by decide),
    ⟨rfl, rfl, rfl, ?_, ?_⟩, by decide, rfl, rfl⟩
  · show ∀ i, i < 2 → _
    decide
  · show ∀ i, i < 0 → _
    decide

theorem witness_InputsAreNeverWritten :
    (∃ t, exec .encode (valueState 0 0 [1, 9] (-1)) = .next t) ∧
    (∃ t, exec .decode (keyState [0x90#8, 0xBE#8] 2 0) = .next t) := ⟨⟨_, rfl⟩, ⟨_, rfl⟩⟩

theorem witness_OperationsRaiseOnlyTheirStatus :
    (∃ t, exec .decode State.reset = .next t) ∧ (∃ t, exec .encode State.reset = .next t) ∧
    (∃ t, exec .expenc State.reset = .next t) ∧ (∃ t, exec (.pack 1#4 0#8) State.reset = .next t) ∧
    (∃ t, exec (.unpack 1#4) State.reset = .next t) :=
  ⟨⟨_, rfl⟩, ⟨_, rfl⟩, ⟨_, rfl⟩, ⟨_, rfl⟩, ⟨_, rfl⟩⟩

theorem witness_StepKeepsInvariant :
    BlockInv (State.reset.issue (.wr 0 0x0223#32)) ∧
    ∃ t, step (State.reset.issue (.wr 0 0x0223#32)) = .next t := ⟨inv_of_check (by decide), _, rfl⟩

theorem witness_InvariantStatesAlwaysStep : BlockInv (State.reset.issue .reset) := inv_of_check (by decide)

/-- A finite value, a zero, an infinity and a NaN, all encodable. -/
theorem witness_DecodeUndoesEncode :
    (BlockInv (valueState 1 0 [1, 9, 9, 8] (-1)) ∧ EncodableFinite (valueState 1 0 [1, 9, 9, 8] (-1))) ∧
    (BlockInv (valueState 1 0 [0, 0, 0] 55) ∧ EncodableZero (valueState 1 0 [0, 0, 0] 55)) ∧
    (BlockInv (valueState 1 1 [] 0) ∧ (valueState 1 1 [] 0).cls = 1#2) ∧
    (BlockInv (valueState 1 2 [] 0) ∧ (valueState 1 2 [] 0).cls = 2#2) := by
  refine ⟨⟨inv_of_check (by decide), ⟨rfl, by decide, ?_, by decide, by decide, by decide⟩⟩,
    ⟨inv_of_check (by decide), ⟨rfl, by decide, by decide⟩⟩,
    ⟨inv_of_check (by decide), rfl⟩, ⟨inv_of_check (by decide), rfl⟩⟩
  show ∀ x ∈ (valueState 1 0 [1, 9, 9, 8] (-1)).coefficient, x ≤ 9
  decide

theorem witness_EncodeAcceptsExactlyEncodable :
    BlockInv (valueState 1 1 [] 0) ∧ Encodable (valueState 1 1 [] 0) ∧ BlockInv State.reset :=
  ⟨inv_of_check (by decide), .inl rfl, inv_of_check (by decide)⟩

theorem witness_SpecialKeysAreFixedPoints :
    (BlockInv (valueState 0 0 [0] 0) ∧ EncodableZero (valueState 0 0 [0] 0)) ∧
    (BlockInv (valueState 1 0 [0] 0) ∧ EncodableZero (valueState 1 0 [0] 0)) ∧
    BlockInv (valueState 0 1 [] 0) ∧ BlockInv (valueState 1 1 [] 0) ∧ BlockInv (valueState 1 2 [] 0) :=
  ⟨⟨inv_of_check (by decide), ⟨rfl, by decide, by decide⟩⟩,
    ⟨inv_of_check (by decide), ⟨rfl, by decide, by decide⟩⟩,
    inv_of_check (by decide), inv_of_check (by decide), inv_of_check (by decide)⟩

theorem witness_EncodeUndoesDecode :
    BlockInv (keyState [0x90#8, 0xBE#8] 2 0) ∧
    ∃ t, exec .decode (keyState [0x90#8, 0xBE#8] 2 0) = .next t ∧ t.status = 0#3 :=
  ⟨inv_of_check (by decide), _, rfl, by decide⟩

theorem witness_DecodeAcceptsExactlyCanonicalKeys : Met
    [(keyState [0x80#8] 1 0, fun s => decide (1 ≤ s.klen.toNat ∧ s.klen.toNat ≤ s.params.kmax)),
     (keyState [0x80#8] 23 0, fun s => decide (1 ≤ s.klen.toNat ∧ s.klen.toNat ≤ s.params.kmax))] :=
  met (by decide)

/-- -Infinity and NaN, both encodable, both encoded. -/
theorem witness_KeysOrderAsValues :
    ∃ a b ta tb : State, BlockInv a ∧ BlockInv b ∧ Encodable a ∧ Encodable b ∧ ValueLt a b ∧
      exec .encode a = .next ta ∧ exec .encode b = .next tb :=
  ⟨valueState 1 1 [] 0, valueState 0 2 [] 0, _, _, inv_of_check (by decide), inv_of_check (by decide),
    .inl rfl, .inr (.inl rfl), .inl (by decide), rfl, rfl⟩

/-- 1.9 in the test configuration and in one with DMAX = 3, M = 5, ELIM = 31. -/
theorem witness_KeysDoNotDependOnParameters :
    ∃ a b ta tb : State, BlockInv a ∧ BlockInv b ∧ a.params ≠ b.params ∧ a.sign = b.sign ∧ a.cls = b.cls ∧
      a.exp = b.exp ∧ a.dcnt = b.dcnt ∧ a.coefficient = b.coefficient ∧
      exec .encode a = .next ta ∧ exec .encode b = .next tb ∧ ta.status = 0#3 ∧ tb.status = 0#3 := by
  refine ⟨valueState 0 0 [1, 9] (-1), { valueState 0 0 [1, 9] (-1) with
      params := { dmax := 3, m := 5, elim := 31 }
      dig := toCells [1, 9, 0], kbuf := List.replicate 3 0#8, scr := List.replicate 3 0#4 }, _, _,
    inv_of_check (by decide), inv_of_check (by decide), by decide, rfl, rfl, rfl, rfl, by decide, rfl, rfl,
    by decide, by decide⟩

end Sys2Proof.Tests
end

section
/-! Reset, the idle block, what no operation reads, and the invariant that every step keeps (10_state.md, with
60_exceptions.md R218 and R219 and 93_implementation_defined.md U18). -/

namespace Sys2Proof.Machine

/-! ## One step, said once (20_memory.md R60) -/

theorem step_idle {s : State} (hp : s.params.valid = true) (hs : s.pending = []) : step s = .next s := by
  simp [step, hp, fetch, hs]

theorem step_reset {s : State} {rest : List HostEvent} (hp : s.params.valid = true)
    (hs : s.pending = .reset :: rest) : step s = .next (resetBlock { s with pending := rest }) := by
  simp [step, hp, fetch, hs]

theorem step_rd {s : State} {r : Nat} {rest : List HostEvent} (hp : s.params.valid = true)
    (hs : s.pending = .rd r :: rest) : step s = exec (.rd r) { s with pending := rest } := by
  simp [step, hp, fetch, hs, decode]

/-- A command word performs what it decodes to, or reports the decoder's detail code (30_encoding.md R84). -/
theorem writeCommand_cases (w : CommandWord) (s : State) :
    (∃ i, decodeCommand w = .ok i ∧ i.isCommand = true ∧
      writeCommand w s = .next (finish s (commandResult i s))) ∨
    (∃ e, decodeCommand w = .error e ∧ writeCommand w s = .next (finish s (.error (rejectDetail e)))) := by
  cases h : decodeCommand w with
  | ok i =>
    have hi := isCommand_of_decodeCommand h
    refine .inl ⟨i, rfl, hi, ?_⟩
    rw [writeCommand, h, ← exec_command hi, ← runCommand_eq_exec hi]
  | error e => exact .inr ⟨e, rfl, by rw [writeCommand, h]; rfl⟩

theorem step_wr {s : State} {r : Nat} {v : Word} {rest : List HostEvent} (hp : s.params.valid = true)
    (hs : s.pending = .wr r v :: rest) : step s = exec (.wr r v) { s with pending := rest } := by
  by_cases hr : r = cmdNumber
  · subst hr
    change step s = writeCommand (v.setWidth 16) { s with pending := rest }
    rcases writeCommand_cases (v.setWidth 16) { s with pending := rest } with
      ⟨i, hd, hi, he⟩ | ⟨e, hd, he⟩
    · rw [he, ← exec_command hi]
      simp [step, hp, fetch, hs, decode, hd]
    · rw [he]
      simp [step, hp, fetch, hs, decode, hd, enterFault_eq_reported]
  · simp [step, hp, fetch, hs, decode, hr]

/-! ## The register map over the cells (10_state.md R26) -/

theorem readRegister_dig {s : State} {i : Nat} (hi : i < s.params.dmax) :
    readRegister s (0x1000 + i) = some ((s.dig.getD i 0#4).setWidth 32) := by
  rw [readRegister_high (by omega), if_pos ⟨by simp [digBase], by simp [digBase]; omega⟩]
  simp [digBase]

/-- The numbers of DIG end below those of KBUF, since DMAX is at most 4096 (10_state.md R26). -/
theorem readRegister_kbuf {s : State} {i : Nat} (hp : s.params.valid = true) (hi : i < s.params.kmax) :
    readRegister s (0x2000 + i) = some ((s.kbuf.getD i 0#8).setWidth 32) := by
  obtain ⟨-, -, hd, -⟩ := valid_iff.mp hp
  rw [readRegister_high (by omega), if_neg (by simp only [digBase]; omega),
    if_pos ⟨by simp [kbufBase], by simp only [kbufBase]; omega⟩]
  simp [kbufBase]

theorem exec_rd_of_read {s : State} {r : Nat} {v : Word} (h : readRegister s r = some v) :
    exec (.rd r) s = .next { s with resp := .value v } := by rw [exec_rd, h]

/-! ## A value or a key that the classifier rejects (43_special.md R165, R167) -/

theorem exec_encode_of_kindv_error {s : State} {d : Detail} (h : kindv s = .error d) :
    exec .encode s = .next (s.reported d.status.code d.code) := by
  have he : encodeOp s = .error d := by rw [encodeOp, h]
  change Host.Outcome.next (finish s (encodeOp s)) = _
  rw [he, finish_error]

theorem exec_decode_of_kindk_error {s : State} {d : Detail} (h : kindk s = .error d) :
    exec .decode s = .next (s.reported d.status.code d.code) := by
  have he : decodeOp s = .error d := by rw [decodeOp, h]
  change Host.Outcome.next (finish s (decodeOp s)) = _
  rw [he, finish_error]

/-! ## The state after reset (10_state.md R41) -/

section AfterReset

variable (p : Params) (dig scr : List Cell4) (kbuf : List Byte) (pending : List HostEvent) (n : Nat)

theorem readRegister_afterReset {r : Nat} (hr : r ≤ 0x0D) :
    readRegister (State.afterReset p dig kbuf scr pending n) r = some 0#32 := by
  interval_cases r <;> rfl

/-- After reset the value held has no digits. -/
theorem kindv_afterReset : kindv (State.afterReset p dig kbuf scr pending n) = .error .badDigitCount := rfl

/-- After reset the key held has no bytes. -/
theorem kindk_afterReset : kindk (State.afterReset p dig kbuf scr pending n) = .error .emptyKey := rfl

end AfterReset

/-! ## No operation reads the last report (10_state.md R39) -/

section Reported

variable (s : State) (a : BitVec 3) (b : BitVec 5)

@[simp] theorem negative_reported : (s.reported a b).negative = s.negative := rfl
@[simp] theorem tIndicator_reported : (s.reported a b).tIndicator = s.tIndicator := rfl
@[simp] theorem kindv_reported : kindv (s.reported a b) = kindv s := rfl
@[simp] theorem kindk_reported : kindk (s.reported a b) = kindk s := rfl

/-- A report put on the outcome of a check is put on the outcome of each branch. -/
theorem map_reported_ite (c : Prop) [Decidable c] (x y : Except Detail State) :
    (if c then x else y).map (·.reported a b) =
      if c then x.map (·.reported a b) else y.map (·.reported a b) :=
  apply_ite (Except.map (·.reported a b)) c x y

theorem packOp_reported (n : BitVec 4) (bits : Byte) :
    packOp n bits (s.reported a b) = (packOp n bits s).map (·.reported a b) := by
  simp only [packOp, map_reported_ite]
  rfl

theorem unpackOp_reported (n : BitVec 4) :
    unpackOp n (s.reported a b) = (unpackOp n s).map (·.reported a b) := by
  simp only [unpackOp, map_reported_ite]
  rfl

theorem expencOp_reported : expencOp (s.reported a b) = (expencOp s).map (·.reported a b) := by
  simp only [expencOp, map_reported_ite]
  rfl

theorem expdecOp_reported : expdecOp (s.reported a b) = (expdecOp s).map (·.reported a b) := by
  simp only [expdecOp, map_reported_ite, reported_params, reported_kbuf, reported_klen, reported_cur,
    tIndicator_reported]
  cases expdec s.params s.kbuf s.klen.toNat s.cur.toNat s.tIndicator <;> rfl

theorem sigencOp_reported : sigencOp (s.reported a b) = (sigencOp s).map (·.reported a b) := by
  simp only [sigencOp, map_reported_ite]
  rfl

theorem sigdecOp_reported : sigdecOp (s.reported a b) = (sigdecOp s).map (·.reported a b) := by
  simp only [sigdecOp, map_reported_ite, reported_params, reported_kbuf, reported_klen, reported_cur,
    negative_reported]
  cases sigdec s.params s.kbuf s.klen.toNat s.cur.toNat s.negative <;> rfl

theorem classvOp_reported : classvOp (s.reported a b) = (classvOp s).map (·.reported a b) := by
  rw [classvOp, classvOp, kindv_reported]
  cases kindv s <;> rfl

theorem classkOp_reported : classkOp (s.reported a b) = (classkOp s).map (·.reported a b) := by
  rw [classkOp, classkOp, kindk_reported]
  cases kindk s <;> rfl

theorem decodeSpecial_reported (k : Kind) :
    decodeSpecial k (s.reported a b) = (decodeSpecial k s).reported a b := by
  cases k <;> rfl

theorem spencOp_reported : spencOp (s.reported a b) = (spencOp s).map (·.reported a b) := by
  rw [spencOp, spencOp, kindv_reported]
  cases kindv s with
  | error d => rfl
  | ok k => cases k <;> rfl

theorem spdecOp_reported : spdecOp (s.reported a b) = (spdecOp s).map (·.reported a b) := by
  simp only [spdecOp, map_reported_ite, kindk_reported, decodeSpecial_reported]
  cases kindk s <;> rfl

theorem encodeFinite_reported :
    encodeFinite (s.reported a b) = (encodeFinite s).map (·.reported a b) := by
  simp only [encodeFinite, map_reported_ite]
  rfl

theorem encodeOp_reported : encodeOp (s.reported a b) = (encodeOp s).map (·.reported a b) := by
  rw [encodeOp, encodeOp, kindv_reported, encodeFinite_reported]
  cases kindv s with
  | error d => rfl
  | ok k => cases k <;> rfl

theorem decodeFinite_reported (neg : Bool) (k : List Byte) :
    decodeFinite neg k (s.reported a b) = (decodeFinite neg k s).map (·.reported a b) := by
  simp only [decodeFinite, reported_params, reported_klen]
  cases expdec s.params k s.klen.toNat 4 (getbit k 3) with
  | error d => rfl
  | ok f =>
    dsimp only
    cases sigdec s.params k s.klen.toNat f.off neg <;> rfl

theorem decodeOp_reported : decodeOp (s.reported a b) = (decodeOp s).map (·.reported a b) := by
  simp only [decodeOp, kindk_reported, decodeSpecial_reported, decodeFinite_reported, reported_kbuf]
  cases kindk s with
  | error d => rfl
  | ok k => cases k <;> rfl

/-- What an operation works out does not depend on the report it starts from, which it carries along. -/
theorem commandResult_reported (i : Instr) :
    commandResult i (s.reported a b) = (commandResult i s).map (·.reported a b) := by
  cases i with
  | encode => exact encodeOp_reported s a b
  | decode => exact decodeOp_reported s a b
  | pack n bits => exact packOp_reported s a b n bits
  | unpack n => exact unpackOp_reported s a b n
  | expenc => exact expencOp_reported s a b
  | expdec => exact expdecOp_reported s a b
  | sigenc => exact sigencOp_reported s a b
  | sigdec => exact sigdecOp_reported s a b
  | classv => exact classvOp_reported s a b
  | classk => exact classkOp_reported s a b
  | spenc => exact spencOp_reported s a b
  | spdec => exact spdecOp_reported s a b
  | _ => rfl

/-- Both ends of an operation write the report (60_exceptions.md R218, R219): the one carried along is lost. -/
theorem finish_reported (r : Except Detail State) :
    finish (s.reported a b) (r.map (·.reported a b)) = finish s r := by
  cases r <;> rfl

theorem exec_reported {i : Instr} (h : i.isCommand = true) : exec i (s.reported a b) = exec i s := by
  rw [exec_command h, exec_command h, commandResult_reported, finish_reported]

end Reported

/-! ## The clauses of the invariant -/

/-- Dropping what the host has issued keeps the invariant. -/
theorem BlockInv.withPending {s : State} (h : BlockInv s) (rest : List HostEvent) :
    BlockInv { s with pending := rest } := ⟨h.params, h.memory, h.report, h.kind, h.nbits⟩

theorem BlockInv.withResp {s : State} (h : BlockInv s) (x : BusResponse) :
    BlockInv { s with resp := x } := ⟨h.params, h.memory, h.report, h.kind, h.nbits⟩

theorem BlockInv.reported {s : State} (h : BlockInv s) {a : BitVec 3} {b : BitVec 5}
    (hr : (a = 0#3 ∧ b = 0#5) ∨ ∃ d : Detail, a = d.status.code ∧ b = d.code) :
    BlockInv (s.reported a b) := ⟨h.params, wf_reported a b h.memory, hr, h.kind, h.nbits⟩

/-- The code 7 is no kind's (43_special.md R160). -/
theorem kind_code_ne_seven (k : Kind) : k.code ≠ 7#3 := by cases k <;> decide

/-- The bit length of an accepted exponent fits NBITS and is 2 to 32 (41_exponent.md R120, 00_scope.md R9). -/
theorem nbits_expN {p : Params} {e : Nat} (hp : p.valid = true) (he : e ≤ p.elim) :
    2 ≤ (BitVec.ofNat 6 (expN e)).toNat ∧ (BitVec.ofNat 6 (expN e)).toNat ≤ 32 := by
  obtain ⟨-, -, -, hm, hm', hlim, -⟩ := valid_iff.mp hp
  have h2 := expN_ge e
  have h32 := expN_le_of_le (show 2 ≤ p.m by omega) (Nat.le_trans he hlim)
  rw [BitVec.toNat_ofNat, Nat.mod_eq_of_lt (by omega)]
  omega

/-- The coefficient is read from DIG, so it has at most DMAX digits. -/
theorem coefficient_length_le {s : State} (h : Memory.wf s = true) :
    s.coefficient.length ≤ s.params.dmax := by
  obtain ⟨hd, -, -⟩ := wf_iff.mp h
  simp only [State.coefficient, State.digits, List.length_map, List.length_take]
  omega

/-- DMAX is a multiple of 3, so padding stays within it (00_scope.md R9, 42_significand.md R140). -/
theorem pad_coefficient_length_le {s : State} (h : BlockInv s) :
    (pad s.coefficient).length ≤ s.params.dmax := by
  obtain ⟨-, h3, -⟩ := valid_iff.mp h.params
  have := coefficient_length_le h.memory
  rw [pad_length, padlen]
  omega

theorem wf_withScr {s : State} {x : List Cell4} (h : Memory.wf s = true) (hx : x.length = s.scr.length) :
    Memory.wf { s with scr := x } = true := wf_of_sizes h rfl rfl rfl hx

/-- Digits written over the first cells of SCR leave it as large as it was. -/
theorem scr_overlay_length {s : State} (h : Memory.wf s = true) {d : List Nat} (neg : Bool)
    (hd : d.length ≤ s.params.dmax) :
    (overlay (toCells (storedDigits d neg)) s.scr).length = s.scr.length := by
  obtain ⟨-, -, hs⟩ := wf_iff.mp h
  exact overlay_length (by simpa [hs] using hd)

/-! ## Every operation keeps the invariant -/

/-- `t` meets the invariant and has the parameters of `s`. -/
def KeepsInv (s t : State) : Prop := BlockInv t ∧ t.params = s.params

theorem KeepsInv.of_withPending {s t : State} {rest : List HostEvent}
    (h : KeepsInv { s with pending := rest } t) : KeepsInv s t := ⟨h.1, h.2⟩

theorem KeepsInv.withResp {s t : State} (h : KeepsInv s t) (x : BusResponse) :
    KeepsInv s { t with resp := x } := ⟨h.1.withResp x, h.2⟩

section Operations

variable {s t : State} (h : BlockInv s)
include h

theorem packOp_keepsInv {n : BitVec 4} {bits : Byte} (ht : packOp n bits s = .ok t) : KeepsInv s t := by
  rcases packOp_cases n bits s with ⟨-, e⟩ | ⟨-, -, -, e⟩ | ⟨-, -, -, -, e⟩ <;> rw [ht] at e <;> cases e
  exact ⟨⟨h.params, wf_setStream _ h.memory, h.report, h.kind, h.nbits⟩, rfl⟩

theorem unpackOp_keepsInv {n : BitVec 4} (ht : unpackOp n s = .ok t) : KeepsInv s t := by
  rcases unpackOp_cases n s with ⟨-, e⟩ | ⟨-, -, -, e⟩ | ⟨-, -, -, -, e⟩ | ⟨-, -, -, -, e⟩ <;>
    rw [ht] at e <;> cases e
  exact ⟨⟨h.params, h.memory, h.report, h.kind, h.nbits⟩, rfl⟩

theorem expencOp_keepsInv (ht : expencOp s = .ok t) : KeepsInv s t := by
  rcases expencOp_cases s with ⟨-, e⟩ | ⟨-, -, e⟩ | ⟨he, -, -, e⟩ <;> rw [ht] at e <;> cases e
  have hm := wf_setStream (expfield s.emag.toNat s.tIndicator).tail h.memory
  exact ⟨⟨h.params, hm, h.report, h.kind, .inr (nbits_expN h.params he)⟩, rfl⟩

/-- The exponent the decoder returns is within ELIM, and its bit length is the one reported (41_exponent.md
R123). -/
theorem nbits_of_expdec {k : List Byte} {len off : Nat} {x : Bool} {f : ExpResult}
    (hf : expdec s.params k len off x = .ok f) :
    2 ≤ (BitVec.ofNat 6 f.n).toNat ∧ (BitVec.ofNat 6 f.n).toNat ≤ 32 := by
  obtain ⟨-, -, -, hm, -⟩ := valid_iff.mp h.params
  obtain ⟨he, hn, -⟩ := field_of_expdec (by omega) hf
  rw [hn]
  exact nbits_expN h.params he

theorem expdecOp_keepsInv (ht : expdecOp s = .ok t) : KeepsInv s t := by
  rcases expdecOp_cases s with ⟨-, e⟩ | ⟨d, -, -, e⟩ | ⟨f, -, hf, e⟩ <;> rw [ht] at e <;> cases e
  exact ⟨⟨h.params, h.memory, h.report, h.kind, .inr (nbits_of_expdec h hf)⟩, rfl⟩

theorem sigencOp_keepsInv (ht : sigencOp s = .ok t) : KeepsInv s t := by
  rcases sigencOp_cases s with ⟨-, e⟩ | ⟨-, -, -, ⟨-, e⟩ | ⟨-, -, -, e⟩ | ⟨-, -, -, e⟩ | ⟨-, -, -, -, e⟩⟩ <;>
    rw [ht] at e <;> cases e
  have hscr := scr_overlay_length h.memory s.negative (coefficient_length_le h.memory)
  exact ⟨⟨h.params, wf_withScr (wf_setStream _ h.memory) hscr, h.report, h.kind, h.nbits⟩, rfl⟩

/-- A decoded coefficient fits DIG and SCR (42_significand.md R145). -/
theorem wf_setCoefficient_of_sigdec {k : List Byte} {len off : Nat} {neg : Bool} {c : SigResult}
    (hc : sigdec s.params k len off neg = .ok c) : Memory.wf (s.setCoefficient c.digits) = true := by
  obtain ⟨hcan, -⟩ := bits_of_sigdec hc
  exact wf_setCoefficient hcan.size h.memory

theorem sigdecOp_keepsInv (ht : sigdecOp s = .ok t) : KeepsInv s t := by
  rcases sigdecOp_cases s with ⟨-, e⟩ | ⟨d, -, -, e⟩ | ⟨c, -, hc, e⟩ <;> rw [ht] at e <;> cases e
  exact ⟨⟨h.params, wf_setCoefficient_of_sigdec h hc, h.report, h.kind, h.nbits⟩, rfl⟩

theorem withKind_keepsInv (k : Kind) : KeepsInv s { s with kind := k.code } :=
  ⟨⟨h.params, h.memory, h.report, kind_code_ne_seven k, h.nbits⟩, rfl⟩

theorem classvOp_keepsInv (ht : classvOp s = .ok t) : KeepsInv s t := by
  rcases classvOp_cases s with ⟨d, -, e⟩ | ⟨k, -, e⟩ <;> rw [ht] at e <;> cases e
  exact withKind_keepsInv h k

theorem classkOp_keepsInv (ht : classkOp s = .ok t) : KeepsInv s t := by
  rcases classkOp_cases s with ⟨d, -, e⟩ | ⟨k, -, e⟩ <;> rw [ht] at e <;> cases e
  exact withKind_keepsInv h k

theorem encodeSpecial_keepsInv (b : Byte) : KeepsInv s (encodeSpecial b s) :=
  ⟨⟨h.params, wf_encodeSpecial b h.memory, h.report, h.kind, h.nbits⟩, rfl⟩

theorem decodeSpecial_keepsInv (k : Kind) : KeepsInv s (decodeSpecial k s) := by
  refine ⟨⟨?_, wf_decodeSpecial k h.memory, ?_, ?_, ?_⟩, decodeSpecial_params k s⟩
  · simpa using h.params
  · simpa [LegalReport] using h.report
  · simpa using h.kind
  · simpa using h.nbits

theorem spencOp_keepsInv (ht : spencOp s = .ok t) : KeepsInv s t := by
  rcases spencOp_cases s with ⟨d, -, e⟩ | ⟨k, -, -, e⟩ | ⟨k, b, -, -, e⟩ <;> rw [ht] at e <;> cases e
  exact encodeSpecial_keepsInv h b

theorem spdecOp_keepsInv (ht : spdecOp s = .ok t) : KeepsInv s t := by
  rcases spdecOp_cases s with ⟨-, e⟩ | ⟨-, -, e⟩ | ⟨-, -, e⟩ | ⟨-, -, d, -, e⟩ | ⟨-, -, k, -, e⟩ <;>
    rw [ht] at e <;> cases e
  exact decodeSpecial_keepsInv h k

/-- The key of a finite value fits KBUF (00_scope.md R10) and its digits fit SCR. -/
theorem encodedFinite_keepsInv (he : s.adjExp.natAbs ≤ s.params.elim) :
    KeepsInv s (encodedFinite s (keyfinite s.params s.negative (pad s.coefficient) s.adjExp)) := by
  have hpad := pad_coefficient_length_le h
  obtain ⟨-, hk, -⟩ := wf_iff.mp h.memory
  obtain ⟨-, -, -, hlen, -⟩ := keyfinite_spec (keyBits_le_kmax h.params (neg := s.negative) hpad he)
  have hm := wf_of_sizes h.memory 
    (t := encodedFinite s (keyfinite s.params s.negative (pad s.coefficient) s.adjExp)) rfl rfl
    (overlay_length (by rw [List.length_take, hk]; omega)) (scr_overlay_length h.memory s.negative hpad)
  exact ⟨⟨h.params, hm, h.report, h.kind, .inr (nbits_expN h.params he)⟩, rfl⟩

theorem encodeFinite_keepsInv (ht : encodeFinite s = .ok t) : KeepsInv s t := by
  rcases encodeFinite_cases s with ⟨-, e⟩ | ⟨-, -, e⟩ | ⟨-, -, -, e⟩ | ⟨-, he, -, e⟩ <;>
    rw [ht] at e <;> cases e
  exact encodedFinite_keepsInv h he

theorem encodeOp_keepsInv (ht : encodeOp s = .ok t) : KeepsInv s t := by
  rcases encodeOp_cases s with ⟨d, -, e⟩ | ⟨k, b, -, -, e⟩ | ⟨k, -, -, e⟩ <;> rw [ht] at e
  · cases e
  · cases e
    exact encodeSpecial_keepsInv h b
  · exact encodeFinite_keepsInv h e.symm

theorem decodeFinite_keepsInv {neg : Bool} {k : List Byte} (ht : decodeFinite neg k s = .ok t) :
    KeepsInv s t := by
  rcases decodeFinite_cases neg k s with ⟨d, -, e⟩ | ⟨f, d, -, -, e⟩ | ⟨f, c, hf, hc, e⟩ <;>
    rw [ht] at e <;> cases e
  exact ⟨⟨h.params, wf_setCoefficient_of_sigdec h hc, h.report, h.kind, .inr (nbits_of_expdec h hf)⟩, rfl⟩

theorem decodeOp_keepsInv (ht : decodeOp s = .ok t) : KeepsInv s t := by
  rcases decodeOp_cases s with ⟨d, -, e⟩ | ⟨k, b, -, -, e⟩ | ⟨-, e⟩ | ⟨-, e⟩ <;> rw [ht] at e
  · cases e
  · cases e
    exact decodeSpecial_keepsInv h k
  · exact decodeFinite_keepsInv h e.symm
  · exact decodeFinite_keepsInv h e.symm

theorem commandResult_keepsInv {i : Instr} (ht : commandResult i s = .ok t) : KeepsInv s t := by
  cases i with
  | encode => exact encodeOp_keepsInv h ht
  | decode => exact decodeOp_keepsInv h ht
  | pack n bits => exact packOp_keepsInv h ht
  | unpack n => exact unpackOp_keepsInv h ht
  | expenc => exact expencOp_keepsInv h ht
  | expdec => exact expdecOp_keepsInv h ht
  | sigenc => exact sigencOp_keepsInv h ht
  | sigdec => exact sigdecOp_keepsInv h ht
  | classv => exact classvOp_keepsInv h ht
  | classk => exact classkOp_keepsInv h ht
  | spenc => exact spencOp_keepsInv h ht
  | spdec => exact spdecOp_keepsInv h ht
  | _ => cases ht

/-- However an operation ends, it ends with a legal report (60_exceptions.md R211, R218). -/
theorem finish_keepsInv {r : Except Detail State} (hr : ∀ u, r = .ok u → KeepsInv s u) :
    KeepsInv s (finish s r) := by
  rcases finish_cases s r with ⟨u, hu, e⟩ | ⟨d, -, e⟩ <;> rw [e]
  · obtain ⟨hinv, hp⟩ := hr u hu
    exact ⟨hinv.reported (.inl ⟨rfl, rfl⟩), hp⟩
  · exact ⟨h.reported (.inr ⟨d, rfl, rfl⟩), rfl⟩

/-! ## Every transaction keeps the invariant -/

theorem writeCommand_keepsInv {w : CommandWord} (ht : writeCommand w s = .next t) : KeepsInv s t := by
  rcases writeCommand_cases w s with ⟨i, -, -, e⟩ | ⟨x, -, e⟩ <;> rw [ht] at e <;> cases e
  · exact finish_keepsInv h fun _ hu => commandResult_keepsInv h hu
  · exact finish_keepsInv h nofun

theorem writeRegister_keepsInv {r : Nat} {v : Word} (ht : writeRegister s r v = some t) :
    KeepsInv s t := by
  obtain ⟨hp, hst, hd, hk, hn, -⟩ := writeRegister_frame ht
  refine ⟨⟨hp ▸ h.params, wf_writeRegister h.memory ht, ?_, hk ▸ h.kind, hn ▸ h.nbits⟩, hp⟩
  simpa [LegalReport, hst, hd] using h.report

theorem exec_wr_keepsInv {r : Nat} {v : Word} (ht : exec (.wr r v) s = .next t) : KeepsInv s t := by
  by_cases hr : r = 0
  · subst hr
    exact writeCommand_keepsInv h ht
  cases hw : writeRegister s r v with
  | some u =>
    rw [exec_wr_some hr hw] at ht
    cases ht
    exact (writeRegister_keepsInv h hw).withResp .done
  | none =>
    rw [exec_wr_none hr hw] at ht
    cases ht
    exact ⟨h.withResp _, rfl⟩

theorem exec_rd_keepsInv {r : Nat} (ht : exec (.rd r) s = .next t) : KeepsInv s t := by
  rw [exec_rd] at ht
  cases ht
  exact ⟨h.withResp _, rfl⟩

/-- A reset gives every buffer its size and every register 0 (70_reset_and_hazards.md R240). -/
theorem resetBlock_keepsInv : KeepsInv s (resetBlock s) :=
  ⟨⟨h.params, wf_resetBlock s, .inl ⟨rfl, rfl⟩, kind_code_ne_seven .negInf, .inl rfl⟩, rfl⟩

theorem step_keepsInv (ht : step s = .next t) : KeepsInv s t := by
  cases hs : s.pending with
  | nil =>
    rw [step_idle h.params hs] at ht
    cases ht
    exact ⟨h, rfl⟩
  | cons ev rest =>
    have h' := h.withPending rest
    cases ev with
    | rd r => exact (exec_rd_keepsInv h' (step_rd h.params hs ▸ ht)).of_withPending
    | wr r v => exact (exec_wr_keepsInv h' (step_wr h.params hs ▸ ht)).of_withPending
    | reset =>
      rw [step_reset h.params hs] at ht
      cases ht
      exact (resetBlock_keepsInv h').of_withPending

end Operations

/-! ## The obligations of 10_state.md -/

/-- Settles O44: a step is the idle step, a reset, an RD or a WR, and each of them keeps the invariant. -/
theorem stepKeepsInvariant : Obligations.StepKeepsInvariant := fun _ _ h ht => step_keepsInv h ht

/-- Settles O40: what the operation works out carries the old report along, and its end writes both registers. -/
theorem noOperationReadsStatus : Obligations.NoOperationReadsStatus := by
  intro i s a b hi
  have hsame : ({ s with status := a, detail := b } : State).reported 0#3 0#5 = s.reported 0#3 0#5 := rfl
  rw [← exec_reported _ 0#3 0#5 hi, hsame, exec_reported s _ _ hi]

/-- Settles O4. -/
theorem resetLeavesScalarsZero : Obligations.ResetLeavesScalarsZero := by
  rintro p dig scr kbuf pending n s hp rfl
  refine ⟨fun r hr => exec_rd_of_read (readRegister_afterReset p dig scr kbuf pending n hr), ?_, ?_,
    fun i hi => exec_rd_of_read (readRegister_dig hi), fun i hi => exec_rd_of_read (readRegister_kbuf hp hi)⟩
  · exact exec_encode_of_kindv_error (kindv_afterReset p dig scr kbuf pending n)
  · exact exec_decode_of_kindk_error (kindk_afterReset p dig scr kbuf pending n)

/-- Settles O6: the test configuration is valid, and reset writes 0 to every register. -/
theorem resetMeetsInvariant : Obligations.ResetMeetsInvariant :=
  ⟨by decide, wf_reset, .inl ⟨rfl, rfl⟩, by decide, .inl rfl⟩

/-- Settles O7. -/
theorem idleBlockStays : Obligations.IdleBlockStays := fun _ hp hs => step_idle hp hs

end Sys2Proof.Machine
end

section
/-! The step and the instruction it runs, and the inputs that an encode and a decode leave as they are
(20_memory.md R60 and R63). -/

namespace Sys2Proof.Machine

/-! ## What a step fetches, and what it makes of it (20_memory.md R60) -/

theorem fetch_rd {s : State} {r : Nat} {rest : List HostEvent} (hs : s.pending = .rd r :: rest) :
    fetch s = .transaction (.rd r) { s with pending := rest } := by simp [fetch, hs]

theorem fetch_wr {s : State} {r : Nat} {v : Word} {rest : List HostEvent}
    (hs : s.pending = .wr r v :: rest) :
    fetch s = .transaction (.wr r v) { s with pending := rest } := by simp [fetch, hs]

theorem step_of_decode_ok {s s' : State} {e : Encoded} {i : Instr} (hp : s.params.valid = true)
    (hf : fetch s = .transaction e s') (hd : decode e = .ok i) : step s = exec i s' := by
  simp [step, hp, hf, hd]

/-- An encoding the decoder rejects is reported by its detail code (30_encoding.md R84). -/
theorem step_of_decode_error {s s' : State} {e : Encoded} {x : Reject} (hp : s.params.valid = true)
    (hf : fetch s = .transaction e s') (hd : decode e = .error x) :
    step s = .next (s'.reported (rejectDetail x).status.code (rejectDetail x).code) := by
  simp [step, hp, hf, hd, enterFault_eq_reported]

/-! ## The input of an encode and the input of a decode (20_memory.md R63) -/

/-- The Decimal Value's registers, which an encode reads. -/
def State.valueCells (s : State) : BitVec 1 × BitVec 2 × Word × Word × List Cell4 :=
  (s.sign, s.cls, s.exp, s.dcnt, s.dig)

/-- The key's bytes and length, which a decode reads. -/
def State.keyCells (s : State) : List Byte × Word := (s.kbuf, s.klen)

theorem valueCells_eq_iff {s t : State} : t.valueCells = s.valueCells ↔
    t.sign = s.sign ∧ t.cls = s.cls ∧ t.exp = s.exp ∧ t.dcnt = s.dcnt ∧ t.dig = s.dig := by
  simp [State.valueCells]

theorem keyCells_eq_iff {s t : State} :
    t.keyCells = s.keyCells ↔ t.kbuf = s.kbuf ∧ t.klen = s.klen := by simp [State.keyCells]

@[simp] theorem decodeSpecial_keyCells (k : Kind) (s : State) :
    (decodeSpecial k s).keyCells = s.keyCells := by simp [State.keyCells]

/-- What a report does not touch and an operation's work keeps, the operation keeps however it ends. -/
theorem exec_keeps {α : Type} {f : State → α} (hf : ∀ u a b, f (State.reported u a b) = f u)
    {i : Instr} {s t : State} (hi : i.isCommand = true) (ht : exec i s = .next t)
    (hw : ∀ u, commandResult i s = .ok u → f u = f s) : f t = f s := by
  rw [exec_command hi] at ht
  cases ht
  rcases finish_cases s (commandResult i s) with ⟨u, hu, e⟩ | ⟨d, -, e⟩
  · rw [e, hf, hw u hu]
  · rw [e, hf]

/-! ### The encoders keep the value -/

theorem encodeFinite_keeps_value {s u : State} (hu : encodeFinite s = .ok u) :
    u.valueCells = s.valueCells := by
  rcases encodeFinite_cases s with ⟨-, e⟩ | ⟨-, -, e⟩ | ⟨-, -, -, e⟩ | ⟨-, -, -, e⟩ <;>
    rw [hu] at e <;> cases e
  rfl

theorem encodeOp_keeps_value {s u : State} (hu : encodeOp s = .ok u) : u.valueCells = s.valueCells := by
  rcases encodeOp_cases s with ⟨d, -, e⟩ | ⟨k, b, -, -, e⟩ | ⟨k, -, -, e⟩ <;> rw [hu] at e
  · cases e
  · cases e
    rfl
  · exact encodeFinite_keeps_value e.symm

theorem expencOp_keeps_value {s u : State} (hu : expencOp s = .ok u) : u.valueCells = s.valueCells := by
  rcases expencOp_cases s with ⟨-, e⟩ | ⟨-, -, e⟩ | ⟨-, -, -, e⟩ <;> rw [hu] at e <;> cases e
  rfl

theorem sigencOp_keeps_value {s u : State} (hu : sigencOp s = .ok u) : u.valueCells = s.valueCells := by
  rcases sigencOp_cases s with ⟨-, e⟩ | ⟨-, -, -, ⟨-, e⟩ | ⟨-, -, -, e⟩ | ⟨-, -, -, e⟩ | ⟨-, -, -, -, e⟩⟩ <;>
    rw [hu] at e <;> cases e
  rfl

theorem spencOp_keeps_value {s u : State} (hu : spencOp s = .ok u) : u.valueCells = s.valueCells := by
  rcases spencOp_cases s with ⟨d, -, e⟩ | ⟨k, -, -, e⟩ | ⟨k, b, -, -, e⟩ <;> rw [hu] at e <;> cases e
  rfl

/-! ### The decoders keep the key -/

theorem decodeFinite_keeps_key {neg : Bool} {k : List Byte} {s u : State}
    (hu : decodeFinite neg k s = .ok u) : u.keyCells = s.keyCells := by
  rcases decodeFinite_cases neg k s with ⟨d, -, e⟩ | ⟨f, d, -, -, e⟩ | ⟨f, c, -, -, e⟩ <;>
    rw [hu] at e <;> cases e
  rfl

theorem decodeOp_keeps_key {s u : State} (hu : decodeOp s = .ok u) : u.keyCells = s.keyCells := by
  rcases decodeOp_cases s with ⟨d, -, e⟩ | ⟨k, b, -, -, e⟩ | ⟨-, e⟩ | ⟨-, e⟩ <;> rw [hu] at e
  · cases e
  · cases e
    exact decodeSpecial_keyCells k s
  · exact decodeFinite_keeps_key e.symm
  · exact decodeFinite_keeps_key e.symm

theorem expdecOp_keeps_key {s u : State} (hu : expdecOp s = .ok u) : u.keyCells = s.keyCells := by
  rcases expdecOp_cases s with ⟨-, e⟩ | ⟨d, -, -, e⟩ | ⟨f, -, -, e⟩ <;> rw [hu] at e <;> cases e
  rfl

theorem sigdecOp_keeps_key {s u : State} (hu : sigdecOp s = .ok u) : u.keyCells = s.keyCells := by
  rcases sigdecOp_cases s with ⟨-, e⟩ | ⟨d, -, -, e⟩ | ⟨c, -, -, e⟩ <;> rw [hu] at e <;> cases e
  rfl

theorem spdecOp_keeps_key {s u : State} (hu : spdecOp s = .ok u) : u.keyCells = s.keyCells := by
  rcases spdecOp_cases s with ⟨-, e⟩ | ⟨-, -, e⟩ | ⟨-, -, e⟩ | ⟨-, -, d, -, e⟩ | ⟨-, -, k, -, e⟩ <;>
    rw [hu] at e <;> cases e
  exact decodeSpecial_keyCells k s

/-! ## The obligations of 20_memory.md -/

/-- Settles O42: no encoder's work writes the value, no decoder's work writes the key, and neither end of an
operation writes either. -/
theorem inputsAreNeverWritten : Obligations.InputsAreNeverWritten := by
  refine fun i s t ht => ⟨fun hi => valueCells_eq_iff.mp ?_, fun hi => keyCells_eq_iff.mp ?_⟩
  · have hv : ∀ u a b, (State.reported u a b).valueCells = u.valueCells := fun _ _ _ => rfl
    rcases hi with rfl | rfl | rfl | rfl
    · exact exec_keeps hv rfl ht fun _ => encodeOp_keeps_value
    · exact exec_keeps hv rfl ht fun _ => expencOp_keeps_value
    · exact exec_keeps hv rfl ht fun _ => sigencOp_keeps_value
    · exact exec_keeps hv rfl ht fun _ => spencOp_keeps_value
  · have hk : ∀ u a b, (State.reported u a b).keyCells = u.keyCells := fun _ _ _ => rfl
    rcases hi with rfl | rfl | rfl | rfl
    · exact exec_keeps hk rfl ht fun _ => decodeOp_keeps_key
    · exact exec_keeps hk rfl ht fun _ => expdecOp_keeps_key
    · exact exec_keeps hk rfl ht fun _ => sigdecOp_keeps_key
    · exact exec_keeps hk rfl ht fun _ => spdecOp_keeps_key

/-- Settles O8. -/
theorem stepRunsTheDecodedInstruction : Obligations.StepRunsTheDecodedInstruction := fun _ _ hp =>
  ⟨fun _ hs _ hd => step_of_decode_ok hp (fetch_rd hs) hd,
    fun _ _ hs _ hd => step_of_decode_ok hp (fetch_wr hs) hd,
    fun _ hs hd => step_of_decode_error hp (fetch_wr hs) hd,
    fun _ hs hd => step_of_decode_error hp (fetch_wr hs) hd⟩

end Sys2Proof.Machine
end

section
/-! Instructions and their encodings: the decoder against the encoder, the illegal command words, the stream of a
finite key, and the key rows against DECODE (30_encoding.md). -/

namespace Sys2Proof.Machine

/-! ## The fields of a command word as numbers (30_encoding.md R82) -/

section Fields

variable (v : Word)

theorem commandOp_toNat : (commandOp (v.setWidth 16)).toNat = v.toNat % 16 := by
  simp [commandOp]

theorem commandN_toNat : (commandN (v.setWidth 16)).toNat = v.toNat / 16 % 16 := by
  simp only [commandN, BitVec.extractLsb'_toNat, BitVec.toNat_setWidth, Nat.shiftRight_eq_div_pow]
  omega

theorem commandBits_toNat : (commandBits (v.setWidth 16)).toNat = v.toNat / 256 % 256 := by
  simp only [commandBits, BitVec.extractLsb'_toNat, BitVec.toNat_setWidth, Nat.shiftRight_eq_div_pow]
  omega

end Fields

/-! ## The command word's decoder, by the number of the op code (30_encoding.md R83, R84) -/

section Decoder

variable {w : CommandWord}

theorem decodeCommand_reserved (h : (commandOp w).toNat = 0 ∨ 13 ≤ (commandOp w).toNat) :
    ∃ i, decodeCommand w = .ok i ∧ ∀ s, commandResult i s = .error .reservedOp := by
  have hlt := (commandOp w).isLt
  have hop : (commandOp w).toNat = 0 ∨ (commandOp w).toNat = 13 ∨ (commandOp w).toNat = 14 ∨
      (commandOp w).toNat = 15 := by omega
  rcases hop with hop | hop | hop | hop <;> rw [decodeCommand, hop] <;> exact ⟨_, rfl, fun _ => rfl⟩

theorem decodeCommand_pack (h : (commandOp w).toNat = 3) :
    decodeCommand w = .ok (.pack (commandN w) (commandBits w)) := by
  rw [decodeCommand, h]
  rfl

theorem decodeCommand_unpack (h : (commandOp w).toNat = 4) :
    decodeCommand w =
      if commandBits w = 0#8 then .ok (.unpack (commandN w))
      else if badFieldWidth (commandN w) then .error .badWidth
      else .error .reservedField := by
  rw [decodeCommand, h]
  rfl

/-- The operations without operands: every op code from 1 to 12 but PACK's and UNPACK's. -/
theorem decodeCommand_plain (h1 : 1 ≤ (commandOp w).toNat) (h12 : (commandOp w).toNat ≤ 12)
    (h3 : (commandOp w).toNat ≠ 3) (h4 : (commandOp w).toNat ≠ 4) :
    ∃ i, decodeCommand w = plainCommand w i := by
  rw [decodeCommand]
  generalize (commandOp w).toNat = op at *
  have hop : op = 1 ∨ op = 2 ∨ op = 5 ∨ op = 6 ∨ op = 7 ∨ op = 8 ∨ op = 9 ∨ op = 10 ∨ op = 11 ∨ op = 12 := by
    omega
  rcases hop with rfl | rfl | rfl | rfl | rfl | rfl | rfl | rfl | rfl | rfl <;> exact ⟨_, rfl⟩

theorem plainCommand_reservedField (i : Instr) (h : commandN w ≠ 0#4 ∨ commandBits w ≠ 0#8) :
    plainCommand w i = .error .reservedField := by
  rw [plainCommand, if_neg (not_and_or.mpr h)]

end Decoder

/-! ## A write to CMD (40_cursor.md R105) -/

section CommandWrite

variable {s : State} {v : Word}

theorem exec_wr_cmd_of_ok {i : Instr} (h : decodeCommand (v.setWidth 16) = .ok i) :
    exec (.wr 0 v) s = .next (finish s (commandResult i s)) := by
  have hi := isCommand_of_decodeCommand h
  rw [exec_wr_cmd, writeCommand, h, ← exec_command hi]
  exact runCommand_eq_exec hi s

theorem exec_wr_cmd_of_error {e : Reject} (h : decodeCommand (v.setWidth 16) = .error e) :
    exec (.wr 0 v) s = .next (s.reported (rejectDetail e).status.code (rejectDetail e).code) := by
  rw [exec_wr_cmd, writeCommand, h]
  rfl

theorem commandResult_pack (n : BitVec 4) (bits : Byte) :
    commandResult (.pack n bits) s = packOp n bits s := rfl

theorem commandResult_unpack (n : BitVec 4) : commandResult (.unpack n) s = unpackOp n s := rfl

theorem packOp_badWidth {n : BitVec 4} (bits : Byte) (h : badFieldWidth n = true) :
    packOp n bits s = .error .badWidth := by rw [packOp, if_pos h]

theorem unpackOp_badWidth {n : BitVec 4} (h : badFieldWidth n = true) :
    unpackOp n s = .error .badWidth := by rw [unpackOp, if_pos h]

/-- PACK looks at no bit of `bits` above bit `n - 1` (40_cursor.md R100, R102). -/
theorem packOp_congr_bits {n : BitVec 4} {bits bits' : Byte}
    (h : bits.toNat % 2 ^ n.toNat = bits'.toNat % 2 ^ n.toNat) : packOp n bits s = packOp n bits' s := by
  have hb : bitsOf n.toNat bits.toNat = bitsOf n.toNat bits'.toNat := by
    rw [← bitsOf_mod, h, bitsOf_mod]
  rw [packOp, packOp, KeyStream.pack, KeyStream.pack, hb]

/-! ### The illegal command words (30_encoding.md R84) -/

theorem exec_reservedOp_word (hop : v.toNat % 16 = 0 ∨ 13 ≤ v.toNat % 16) :
    exec (.wr 0 v) s = .next (s.reported 4#3 28#5) := by
  rw [← commandOp_toNat] at hop
  obtain ⟨i, hd, hr⟩ := decodeCommand_reserved hop
  rw [exec_wr_cmd_of_ok hd, hr]
  rfl

theorem badFieldWidth_commandN (hn : v.toNat / 16 % 16 = 0 ∨ 9 ≤ v.toNat / 16 % 16) :
    badFieldWidth (commandN (v.setWidth 16)) = true := by
  rw [badFieldWidth_iff, commandN_toNat]
  exact hn

theorem commandBits_ne_zero (hbits : v.toNat / 256 % 256 ≠ 0) : commandBits (v.setWidth 16) ≠ 0#8 := by
  intro h
  have := commandBits_toNat v
  rw [h] at this
  exact hbits this.symm

theorem commandN_ne_zero (hn : v.toNat / 16 % 16 ≠ 0) : commandN (v.setWidth 16) ≠ 0#4 := by
  intro h
  have := commandN_toNat v
  rw [h] at this
  exact hn this.symm

theorem exec_pack_word_badWidth (hop : v.toNat % 16 = 3)
    (hn : v.toNat / 16 % 16 = 0 ∨ 9 ≤ v.toNat / 16 % 16) :
    exec (.wr 0 v) s = .next (s.reported 4#3 29#5) := by
  rw [← commandOp_toNat] at hop
  rw [exec_wr_cmd_of_ok (decodeCommand_pack hop), commandResult_pack,
    packOp_badWidth _ (badFieldWidth_commandN hn)]
  rfl

/-- With `bits` 0 the word decodes and the operation faults; otherwise the decoder rejects it. -/
theorem exec_unpack_word_badWidth (hop : v.toNat % 16 = 4)
    (hn : v.toNat / 16 % 16 = 0 ∨ 9 ≤ v.toNat / 16 % 16) :
    exec (.wr 0 v) s = .next (s.reported 4#3 29#5) := by
  rw [← commandOp_toNat] at hop
  have hd := decodeCommand_unpack hop
  have hw := badFieldWidth_commandN hn
  by_cases hb : commandBits (v.setWidth 16) = 0#8
  · rw [if_pos hb] at hd
    rw [exec_wr_cmd_of_ok hd, commandResult_unpack, unpackOp_badWidth hw]
    rfl
  · rw [if_neg hb, if_pos hw] at hd
    rw [exec_wr_cmd_of_error hd]
    rfl

theorem exec_unpack_word_reservedField (hop : v.toNat % 16 = 4) (h1 : 1 ≤ v.toNat / 16 % 16)
    (h8 : v.toNat / 16 % 16 ≤ 8) (hbits : v.toNat / 256 % 256 ≠ 0) :
    exec (.wr 0 v) s = .next (s.reported 4#3 30#5) := by
  rw [← commandOp_toNat] at hop
  have hw : ¬badFieldWidth (commandN (v.setWidth 16)) = true := by
    rw [badFieldWidth_iff, commandN_toNat]
    omega
  have hd := decodeCommand_unpack hop
  rw [if_neg (commandBits_ne_zero hbits), if_neg hw] at hd
  rw [exec_wr_cmd_of_error hd]
  rfl

theorem exec_plain_word_reservedField (h1 : 1 ≤ v.toNat % 16) (h12 : v.toNat % 16 ≤ 12)
    (h3 : v.toNat % 16 ≠ 3) (h4 : v.toNat % 16 ≠ 4)
    (h : v.toNat / 16 % 16 ≠ 0 ∨ v.toNat / 256 % 256 ≠ 0) :
    exec (.wr 0 v) s = .next (s.reported 4#3 30#5) := by
  rw [← commandOp_toNat] at h1 h12 h3 h4
  obtain ⟨i, hd⟩ := decodeCommand_plain h1 h12 h3 h4
  rw [plainCommand_reservedField i (h.imp commandN_ne_zero commandBits_ne_zero)] at hd
  rw [exec_wr_cmd_of_error hd]
  rfl

/-- The low `n` bits of `bits`, read from the written value. -/
theorem commandBits_mod {n : Nat} (h8 : n ≤ 8) :
    (commandBits (v.setWidth 16)).toNat % 2 ^ n = v.toNat / 256 % 2 ^ n := by
  rw [commandBits_toNat]
  exact Nat.mod_mod_of_dvd _ (Nat.pow_dvd_pow 2 h8 : 2 ^ n ∣ 2 ^ 8)

theorem exec_pack_word_congr {v' : Word} (hop : v.toNat % 16 = 3) (h8 : v.toNat / 16 % 16 ≤ 8)
    (hlow : v'.toNat % 256 = v.toNat % 256)
    (hbits : v'.toNat / 256 % 2 ^ (v.toNat / 16 % 16) = v.toNat / 256 % 2 ^ (v.toNat / 16 % 16)) :
    exec (.wr 0 v') s = exec (.wr 0 v) s := by
  have hn : commandN (v'.setWidth 16) = commandN (v.setWidth 16) := by
    apply BitVec.eq_of_toNat_eq
    rw [commandN_toNat, commandN_toNat]
    omega
  have hop' : (commandOp (v'.setWidth 16)).toNat = 3 := by
    rw [commandOp_toNat]
    omega
  rw [← commandOp_toNat] at hop
  rw [exec_wr_cmd_of_ok (decodeCommand_pack hop'), exec_wr_cmd_of_ok (decodeCommand_pack hop),
    commandResult_pack, commandResult_pack, hn, packOp_congr_bits]
  rw [commandN_toNat, commandBits_mod h8, commandBits_mod h8, hbits]

end CommandWrite

/-! ## The stream of a finite key (30_encoding.md R72 to R77) -/

/-- T in the words of 30_encoding.md R75. -/
theorem signIndicator_iff (neg : Bool) (adj : Int) :
    signIndicator neg adj = true ↔ (neg = true ∧ adj < 0) ∨ (neg = false ∧ 0 ≤ adj) := by
  cases neg <;> simp [signIndicator]

theorem keyBits_eq_fields (neg : Bool) (d : List Nat) (adj : Int) :
    keyBits neg d adj = [!neg, false, false, signIndicator neg adj] ++
      List.replicate (expN adj.natAbs - 2) (signIndicator neg adj) ++ [!signIndicator neg adj] ++
      (bitsOf (expN adj.natAbs - 1) (adj.natAbs + 2)).map (fun b => b == signIndicator neg adj) ++
      sigbits d neg := by
  rw [keyBits_eq, expfield_cons]
  simp

/-! ## The rows of format KEYF (30_encoding.md R72, R79) -/

theorem exec_finiteRow {neg : Bool} {t : BitVec 1} {x : BitVec 4} {b0 : Byte} {s : State}
    (hb : b0 = if neg then 0b000#3 ++ t ++ x else 0b100#3 ++ t ++ x) (hk : s.klen.toNat ≤ s.params.kmax) :
    exec (if neg then .keyNegFinite t x else .keyPosFinite t x) s =
      .next (finish s (decodeFinite neg (s.kbuf.set 0 b0) s)) := by
  have hop : finiteKeyOp neg b0 s = decodeFinite neg (s.kbuf.set 0 b0) s := by
    rw [finiteKeyOp, if_neg (by omega)]
  subst hb
  rw [← hop]
  cases neg <;> rfl

/-- The finite path of DECODE on a canonical finite key, with the registers it leaves (44_orchestrator.md R186,
R189). -/
theorem finish_decodeFinite_of_keyBits {s : State} {k : List Byte} {neg : Bool} {d : List Nat} {adj : Int}
    {tail : Nat} (hinv : BlockInv s) (hd : Canonical s.params d) (ha : adj.natAbs ≤ s.params.elim)
    (ht : tail ≤ 7) (hl : (keyBits neg d adj).length + tail = 8 * s.klen.toNat)
    (h : readBits k 0 (8 * s.klen.toNat) = keyBits neg d adj ++ List.replicate tail false) :
    ∃ (dig' scr' : List Cell4),
      dig'.length = s.dig.length ∧ scr'.length = s.scr.length ∧
      (∀ i, i < d.length → (dig'.getD i 0#4).toNat = d.getD i 0) ∧
      (∀ i, d.length ≤ i → dig'.getD i 0#4 = s.dig.getD i 0#4) ∧
      finish s (decodeFinite neg k s) = { s.reported 0#3 0#5 with
        sign := BitVec.ofBool neg, cls := 0#2, exp := BitVec.ofInt 32 (adj - d.length + 1),
        dig := dig', dcnt := BitVec.ofNat 32 d.length, scr := scr',
        emag := BitVec.ofNat 32 adj.natAbs, tbit := BitVec.ofBool (signIndicator neg adj),
        nbits := BitVec.ofNat 6 (bitlen (adj.natAbs + 2)),
        cur := BitVec.ofNat 32 (8 * s.klen.toNat) } := by
  obtain ⟨hdig, -, hscr⟩ := wf_iff.mp hinv.memory
  have hsize := hd.size
  refine ⟨overlay (toCells d) s.dig, overlay (toCells d) s.scr, overlay_length (by simpa [hdig] using hsize),
    overlay_length (by simpa [hscr] using hsize), fun i hi => overlay_toCells_lt hd.digits hi,
    fun i hi => overlay_toCells_ge hi, ?_⟩
  rw [decodeFinite_of_keyBits hinv.params hd ha ht hl h, finish_ok, decodedFinite, adjExpOf_signIndicator]
  rfl

/-! ## DECODE by the kind of its key (44_orchestrator.md R186) -/

section DecodeRow

variable {s : State}

theorem exec_decode_of_special {k : Kind} {b : Byte} (h : kindk s = .ok k) (hb : k.keyByte = some b) :
    exec .decode s = .next (specialKey k s) := by
  rcases decodeOp_cases s with ⟨d, e, -⟩ | ⟨k', -, e, -, hop⟩ | ⟨e, -⟩ | ⟨e, -⟩ <;> rw [h] at e <;> cases e
  · change Host.Outcome.next (finish s (decodeOp s)) = _
    rw [hop]
    rfl
  · cases hb
  · cases hb

theorem exec_decode_of_finite {neg : Bool} (h : kindk s = .ok (if neg then .negFinite else .posFinite)) :
    exec .decode s = .next (finish s (decodeFinite neg s.kbuf s)) := by
  have hop : decodeOp s = decodeFinite neg s.kbuf s := by
    rw [decodeOp, h]
    cases neg <;> rfl
  rw [← hop]
  rfl

theorem kindk_of_one (h1 : s.klen.toNat = 1) (hk : s.klen.toNat ≤ s.params.kmax) :
    kindk s = kindOfByte s.lead := by
  rw [kindk, if_neg (by omega), if_neg (by omega), if_pos h1]

theorem kindk_of_two_le (h2 : 2 ≤ s.klen.toNat) (hk : s.klen.toNat ≤ s.params.kmax) :
    kindk s = kindOfLead s.lead := by
  rw [kindk, if_neg (by omega), if_neg (by omega), if_neg (by omega)]

/-- The decoder and the classifier look up a one-byte key alike (30_encoding.md R71, 43_special.md R167). -/
theorem decodeSpecialByte_cases (b : Byte) :
    (∃ i k, decodeSpecialByte b = .ok i ∧ kindOfByte b = .ok k ∧
      ∀ s, exec i s = .next (specialKey k s)) ∨
    (decodeSpecialByte b = .error .unknownSpecial ∧ kindOfByte b = .error .unknownSpecial) := by
  rcases kindOfByte_cases b with ⟨rfl, h⟩ | ⟨rfl, h⟩ | ⟨rfl, h⟩ | ⟨rfl, h⟩ | ⟨rfl, h⟩ |
    ⟨h1, h2, h3, h4, h5, h⟩
  · exact .inl ⟨.keyNegInf, _, rfl, h, fun _ => rfl⟩
  · exact .inl ⟨.keyNegZero, _, rfl, h, fun _ => rfl⟩
  · exact .inl ⟨.keyPosZero, _, rfl, h, fun _ => rfl⟩
  · exact .inl ⟨.keyPosInf, _, rfl, h, fun _ => rfl⟩
  · exact .inl ⟨.keyNan, _, rfl, h, fun _ => rfl⟩
  · exact .inr ⟨by simp [decodeSpecialByte, h1, h2, h3, h4, h5], h⟩

/-- A finite row puts the key's first byte where it already stands. -/
theorem exec_decode_eq_finiteRow {neg : Bool} {t : BitVec 1} {x : BitVec 4}
    (h : kindk s = .ok (if neg then .negFinite else .posFinite))
    (hb : s.lead = if neg then 0b000#3 ++ t ++ x else 0b100#3 ++ t ++ x) (hk : s.klen.toNat ≤ s.params.kmax) :
    exec .decode s = exec (if neg then .keyNegFinite t x else .keyPosFinite t x) s := by
  have hset : s.kbuf.set 0 s.lead = s.kbuf := by
    rw [State.lead]
    cases s.kbuf <;> rfl
  rw [exec_decode_of_finite h, exec_finiteRow hb hk, hset]

/-- On a key of two or more bytes DECODE is the row of the first byte; an invalid row raises what the header tests
raise. -/
theorem exec_decode_eq_leadRow (h2 : 2 ≤ s.klen.toNat) (hk : s.klen.toNat ≤ s.params.kmax) :
    exec .decode s = exec (decodeLeadByte s.lead) s := by
  have hkind := kindk_of_two_le h2 hk
  rcases decodeLeadByte_cases s.lead with ⟨hi, h⟩ | ⟨hi, h⟩ | ⟨hi, h⟩ | ⟨hi, h⟩ | ⟨hi, h⟩ | ⟨hi, h⟩ |
    ⟨hi, h, hb⟩ | ⟨hi, h, hb⟩ <;> rw [hi]
  iterate 6 exact exec_decode_of_kindk_error (hkind.trans h)
  · exact exec_decode_eq_finiteRow (neg := true) (hkind.trans h) hb.symm hk
  · exact exec_decode_eq_finiteRow (neg := false) (hkind.trans h) hb.symm hk

end DecodeRow

/-! ## The obligations of 30_encoding.md -/

/-- Settles O1, row by row of the opcode table. -/
theorem decodeReadsBackEveryEncoding : Obligations.DecodeReadsBackEveryEncoding := by
  intro i
  cases i with
  | encode => exact Laws.DecodeEncode.encode
  | decode => exact Laws.DecodeEncode.decode
  | pack n bits => exact Laws.DecodeEncode.pack n bits
  | unpack n => exact Laws.DecodeEncode.unpack n
  | expenc => exact Laws.DecodeEncode.expenc
  | expdec => exact Laws.DecodeEncode.expdec
  | sigenc => exact Laws.DecodeEncode.sigenc
  | sigdec => exact Laws.DecodeEncode.sigdec
  | classv => exact Laws.DecodeEncode.classv
  | classk => exact Laws.DecodeEncode.classk
  | spenc => exact Laws.DecodeEncode.spenc
  | spdec => exact Laws.DecodeEncode.spdec
  | reservedOp0 rest => exact Laws.DecodeEncode.reservedOp0 rest
  | reservedOpD rest => exact Laws.DecodeEncode.reservedOpD rest
  | reservedOpE rest => exact Laws.DecodeEncode.reservedOpE rest
  | reservedOpF rest => exact Laws.DecodeEncode.reservedOpF rest
  | rd r => exact Laws.DecodeEncode.rd r
  | wr r v => exact Laws.DecodeEncode.wr r v
  | keyNegInf => exact Laws.DecodeEncode.keyNegInf
  | keyNegZero => exact Laws.DecodeEncode.keyNegZero
  | keyPosZero => exact Laws.DecodeEncode.keyPosZero
  | keyPosInf => exact Laws.DecodeEncode.keyPosInf
  | keyNan => exact Laws.DecodeEncode.keyNan
  | keyNegFinite t x => exact Laws.DecodeEncode.keyNegFinite t x
  | keyPosFinite t x => exact Laws.DecodeEncode.keyPosFinite t x
  | keyInvalidNeg x => exact Laws.DecodeEncode.keyInvalidNeg x
  | keyInvalidPos x => exact Laws.DecodeEncode.keyInvalidPos x
  | keyInvalidSign01 x => exact Laws.DecodeEncode.keyInvalidSign01 x
  | keyInvalidSign11 x => exact Laws.DecodeEncode.keyInvalidSign11 x
  | keyInvalidPadNeg x => exact Laws.DecodeEncode.keyInvalidPadNeg x
  | keyInvalidPadPos x => exact Laws.DecodeEncode.keyInvalidPadPos x

/-- Settles O3: each clause is one branch of the command word's decoder, or PACK's or UNPACK's own width check. -/
theorem illegalCommandWordsFault : Obligations.IllegalCommandWordsFault := by
  rintro s v _ _ _ rfl rfl rfl
  refine ⟨exec_reservedOp_word, fun hop hn => ?_, exec_unpack_word_reservedField,
    exec_plain_word_reservedField, fun v' hop _ h8 => exec_pack_word_congr hop h8⟩
  rcases hop with hop | hop
  · exact exec_pack_word_badWidth hop hn
  · exact exec_unpack_word_badWidth hop hn

/-- Settles O31: the exponent field taken apart, with T in the words of R75. -/
theorem keyBitsAreTheFields : Obligations.KeyBitsAreTheFields := by
  rintro neg d adj t _ - ht rfl
  obtain rfl : t = signIndicator neg adj := Bool.eq_iff_iff.mpr (ht.trans (signIndicator_iff neg adj).symm)
  exact ⟨keyBits_eq_fields neg d adj, sigbits_length d neg, keyBits_length neg d adj⟩

/-- Settles O37: a finite row is the finite path of DECODE on KBUF with the row's byte as its first. -/
theorem finiteKeyRowsDecode : Obligations.FiniteKeyRowsDecode := by
  intro s neg t x b0 d adj tail hinv hb hd ha ht hk hl h
  obtain ⟨dig', scr', hdig, hscr, hlow, hhigh, hfin⟩ := finish_decodeFinite_of_keyBits hinv hd ha ht hl h
  exact ⟨dig', scr', hdig, hscr, hlow, hhigh, by rw [exec_finiteRow hb hk, hfin]⟩

/-- Settles O38, by the length of the key: none, one byte, two or more. -/
theorem decodeRunsItsKeyRow : Obligations.DecodeRunsItsKeyRow := by
  intro s _ hk
  change (∀ i, decodeKey s.klen.toNat s.lead = .ok i → _) ∧ (decodeKey s.klen.toNat s.lead = _ → _) ∧
    (decodeKey s.klen.toNat s.lead = _ → _)
  rcases hlen : s.klen.toNat with _ | _ | n
  · exact ⟨nofun, fun _ => exec_decode_of_kindk_error (by rw [kindk, if_pos hlen]), nofun⟩
  · have hkind := kindk_of_one hlen hk
    rw [decodeKey]
    rcases decodeSpecialByte_cases s.lead with ⟨i, k, hi, hb, hrow⟩ | ⟨hi, hb⟩ <;> rw [hi]
    · refine ⟨?_, nofun, nofun⟩
      rintro _ ⟨⟩
      rw [exec_decode_of_special (hkind.trans hb) ((keyByte_kindOfByte k s.lead).mpr hb), hrow]
    · exact ⟨nofun, nofun, fun _ => exec_decode_of_kindk_error (hkind.trans hb)⟩
  · refine ⟨?_, nofun, nofun⟩
    rintro _ ⟨⟩
    exact exec_decode_eq_leadRow (by omega) hk

/-- Settles O2: the decoder run on the six words. -/
theorem sampleWordsDecode : Obligations.SampleWordsDecode := by
  unfold Obligations.SampleWordsDecode
  decide

/-- Settles O12: the rows are the fault entry with ReservedOp. -/
theorem reservedOpCodesFault : Obligations.ReservedOpCodesFault := fun _ _ => ⟨rfl, rfl, rfl, rfl⟩

/-- Settles O35: each row is `decodeSpecial` of its kind, reported OK. -/
theorem specialKeyRowsDecode : Obligations.SpecialKeyRowsDecode := by
  intro s out hout
  simp only [hout]
  exact ⟨rfl, rfl, rfl, rfl, rfl⟩

/-- Settles O36: each row is the fault entry with its detail code. -/
theorem invalidKeyRowsFault : Obligations.InvalidKeyRowsFault := fun _ =>
  ⟨fun _ => rfl, fun _ => rfl, fun _ => rfl, fun _ => rfl, fun _ => rfl, fun _ => rfl⟩

end Sys2Proof.Machine
end

section
/-! The register map over RD and WR, and the Bit-Stream Cursor's PACK and UNPACK (40_cursor.md). -/

namespace Sys2Proof.Machine

/-! ## A write to CMD (40_cursor.md R105) -/

theorem decode_wr_cmd (v : Word) : decode (.wr 0 v) = decodeCommand (v.setWidth 16) := rfl

/-- Only the low half of the written value is a command word (30_encoding.md R82). -/
theorem exec_wr_cmd_congr {s : State} {v v' : Word} (h : v'.setWidth 16 = v.setWidth 16) :
    exec (.wr 0 v') s = exec (.wr 0 v) s := by
  rw [exec_wr_cmd, exec_wr_cmd, h]

theorem exec_wr_cmd_of_decode {s : State} {v : Word} {i : Instr} (h : decode (.wr 0 v) = .ok i) :
    exec (.wr 0 v) s = exec i s := by
  rw [decode_wr_cmd] at h
  rw [exec_wr_cmd_of_ok h, exec_command (isCommand_of_decodeCommand h)]

/-! ## The register map: cells written, and numbers that name nothing (10_state.md R26) -/

section RegisterMap

variable {s : State} {v : Word} {r : Nat}

theorem writeRegister_dig {i : Nat} (hi : i < s.params.dmax) :
    writeRegister s (0x1000 + i) v = some { s with dig := s.dig.set i (v.setWidth 4) } := by
  rw [writeRegister_high (by omega), if_pos ⟨by simp [digBase], by simp only [digBase]; omega⟩]
  simp [digBase]

/-- A number of KBUF is none of DIG, since DMAX is at most 4096 (10_state.md R26). -/
theorem writeRegister_kbuf {i : Nat} (hp : s.params.valid = true) (hi : i < s.params.kmax) :
    writeRegister s (0x2000 + i) v = some { s with kbuf := s.kbuf.set i (v.setWidth 8) } := by
  obtain ⟨-, -, hd, -⟩ := valid_iff.mp hp
  rw [writeRegister_high (by omega), if_neg (by simp only [digBase]; omega),
    if_pos ⟨by simp [kbufBase], by simp only [kbufBase]; omega⟩]
  simp [kbufBase]

/-- The numbers above the scalars that lie neither in DIG nor in KBUF (10_state.md R26). -/
def Unassigned (p : Params) (r : Nat) : Prop :=
  0x0D < r ∧ (r < 0x1000 ∨ 0x1000 + p.dmax ≤ r) ∧ (r < 0x2000 ∨ 0x2000 + p.kmax ≤ r)

theorem Unassigned.not_dig {p : Params} (h : Unassigned p r) :
    ¬(digBase ≤ r ∧ r < digBase + p.dmax) := by
  obtain ⟨-, hd, -⟩ := h
  simp only [digBase]
  omega

theorem Unassigned.not_kbuf {p : Params} (h : Unassigned p r) :
    ¬(kbufBase ≤ r ∧ r < kbufBase + p.kmax) := by
  obtain ⟨-, -, hk⟩ := h
  simp only [kbufBase]
  omega

theorem readRegister_unassigned (h : Unassigned s.params r) : readRegister s r = none := by
  rw [readRegister_high h.1, if_neg h.not_dig, if_neg h.not_kbuf]

theorem writeRegister_unassigned (h : Unassigned s.params r) : writeRegister s r v = none := by
  rw [writeRegister_high h.1, if_neg h.not_dig, if_neg h.not_kbuf]

theorem exec_rd_of_unassigned (h : Unassigned s.params r) :
    exec (.rd r) s = .next { s with resp := .busError } := by
  rw [exec_rd, readRegister_unassigned h]

end RegisterMap

/-! ## PACK and UNPACK by their outcome (40_cursor.md R102, R103) -/

/-- The cursor moved on by a field's width, in the register's own arithmetic. -/
theorem ofNat_cur_add (c : Word) (n : BitVec 4) :
    BitVec.ofNat 32 (c.toNat + n.toNat) = c + n.setWidth 32 := by
  apply BitVec.eq_of_toNat_eq
  have hn := n.isLt
  simp only [BitVec.toNat_ofNat, BitVec.toNat_add, BitVec.toNat_setWidth]
  omega

section Cursor

variable {s : State} {n : BitVec 4} {bits : Byte}

theorem exec_pack : exec (.pack n bits) s = .next (finish s (packOp n bits s)) := rfl

theorem exec_unpack : exec (.unpack n) s = .next (finish s (unpackOp n s)) := rfl

theorem not_badFieldWidth (h1 : 1 ≤ n.toNat) (h8 : n.toNat ≤ 8) : ¬badFieldWidth n = true := by
  rw [badFieldWidth_iff]
  omega

/-- What a PACK with room leaves, but for its report (40_cursor.md R102). -/
def packedState (s : State) (n : BitVec 4) (bits : Byte) : State :=
  s.setStream (s.stream.pack bits.toNat n.toNat)

theorem packOp_ok (h1 : 1 ≤ n.toNat) (h8 : n.toNat ≤ 8) (hk : s.klen.toNat ≤ s.params.kmax)
    (hc : s.cur.toNat + n.toNat ≤ 8 * s.params.kmax) : packOp n bits s = .ok (packedState s n bits) := by
  rw [packOp, if_neg (not_badFieldWidth h1 h8), if_neg (by omega), if_neg (by omega), packedState]

theorem packOp_capacity (h1 : 1 ≤ n.toNat) (h8 : n.toNat ≤ 8)
    (h : s.params.kmax < s.klen.toNat ∨ 8 * s.params.kmax < s.cur.toNat + n.toNat) :
    packOp n bits s = .error .capacity := by
  rcases packOp_cases n bits s with ⟨hn, -⟩ | ⟨-, -, -, e⟩ | ⟨-, -, hk, hc, -⟩
  · omega
  · exact e
  · omega

theorem unpackOp_ok (h1 : 1 ≤ n.toNat) (h8 : n.toNat ≤ 8) (hk : s.klen.toNat ≤ s.params.kmax)
    (hc : s.cur.toNat + n.toNat ≤ 8 * s.klen.toNat) :
    unpackOp n s = .ok { s with
      val := BitVec.ofNat 8 (unpack s.kbuf s.cur.toNat n.toNat), cur := s.cur + n.setWidth 32 } := by
  rw [unpackOp, if_neg (not_badFieldWidth h1 h8), if_neg (by omega), if_neg (by omega), ofNat_cur_add]

theorem unpackOp_keyTooLong (h1 : 1 ≤ n.toNat) (h8 : n.toNat ≤ 8) (hk : s.params.kmax < s.klen.toNat) :
    unpackOp n s = .error .keyTooLong := by
  rw [unpackOp, if_neg (not_badFieldWidth h1 h8), if_pos hk]

theorem unpackOp_truncated (h1 : 1 ≤ n.toNat) (h8 : n.toNat ≤ 8) (hk : s.klen.toNat ≤ s.params.kmax)
    (hc : 8 * s.klen.toNat < s.cur.toNat + n.toNat) : unpackOp n s = .error .truncated := by
  rw [unpackOp, if_neg (not_badFieldWidth h1 h8), if_neg (by omega), if_pos hc]

/-! ### The stream that PACK leaves (40_cursor.md R100) -/

theorem pack_packedAt (hinv : BlockInv s) (hc : s.cur.toNat + n.toNat ≤ 8 * s.params.kmax) :
    PackedAt s.kbuf s.klen.toNat s.cur.toNat (bitsOf n.toNat bits.toNat)
      (s.stream.pack bits.toNat n.toNat).k (s.stream.pack bits.toNat n.toNat).len := by
  obtain ⟨-, hlen, -⟩ := wf_iff.mp hinv.memory
  exact packBits_packedAt s.stream _ (by simpa [hlen] using hc)

@[simp] theorem pack_off : (s.stream.pack bits.toNat n.toNat).off = s.cur.toNat + n.toNat := by
  simp [KeyStream.pack]

/-- The bytes that hold the packed field are part of the key. -/
theorem cur_add_le_pack_len (h1 : 1 ≤ n.toNat) :
    s.cur.toNat + n.toNat ≤ 8 * (s.stream.pack bits.toNat n.toNat).len := by
  have hne : bitsOf n.toNat bits.toNat ≠ [] := List.ne_nil_of_length_pos (by rw [bitsOf_length]; omega)
  rw [KeyStream.pack, packBits_len, if_neg hne, bitsOf_length, stream_off]
  omega

theorem pack_len_le (hk : s.klen.toNat ≤ s.params.kmax)
    (hc : s.cur.toNat + n.toNat ≤ 8 * s.params.kmax) :
    (s.stream.pack bits.toNat n.toNat).len ≤ s.params.kmax :=
  packBits_len_le hk (by simpa using hc)

/-- The split law on a stream: the high bits and then the low bits (40_cursor.md R106). -/
theorem pack_pack (st : KeyStream) (v n1 n2 : Nat) :
    (st.pack (v / 2 ^ n2) n1).pack v n2 = st.pack v (n1 + n2) := by
  rw [KeyStream.pack, KeyStream.pack, KeyStream.pack, bitsOf_split, packBits_append]

/-- KLEN and CUR hold the packed stream's length and cursor: KMAX is far below 2^32 (00_scope.md R10). -/
theorem stream_packedState (hp : s.params.valid = true) (hk : s.klen.toNat ≤ s.params.kmax)
    (hc : s.cur.toNat + n.toNat ≤ 8 * s.params.kmax) :
    (packedState s n bits).stream = s.stream.pack bits.toNat n.toNat := by
  have hmax := kmax_le hp
  have hlen := pack_len_le (bits := bits) hk hc
  exact stream_setStream s (by omega) (by rw [pack_off]; omega)

theorem klen_packedState (hp : s.params.valid = true) (hk : s.klen.toNat ≤ s.params.kmax)
    (hc : s.cur.toNat + n.toNat ≤ 8 * s.params.kmax) :
    (packedState s n bits).klen.toNat = (s.stream.pack bits.toNat n.toNat).len :=
  congrArg KeyStream.len (stream_packedState hp hk hc)

theorem cur_packedState : (packedState s n bits).cur = s.cur + n.setWidth 32 := by
  rw [packedState, setStream_cur, pack_off, ofNat_cur_add]

/-- A second PACK goes on with the stream that the first one left. -/
theorem packOp_packedState {n1 n2 : BitVec 4} {hi lo : Byte} (hp : s.params.valid = true)
    (h1 : 1 ≤ n2.toNat) (h8 : n2.toNat ≤ 8) (hk : s.klen.toNat ≤ s.params.kmax)
    (hc : s.cur.toNat + n1.toNat + n2.toNat ≤ 8 * s.params.kmax) :
    packOp n2 lo (packedState s n1 hi) =
      .ok (s.setStream ((s.stream.pack hi.toNat n1.toNat).pack lo.toNat n2.toNat)) := by
  have hc1 : s.cur.toNat + n1.toNat ≤ 8 * s.params.kmax := by omega
  have hstream := stream_packedState (bits := hi) hp hk hc1
  have hcur : (packedState s n1 hi).cur.toNat = s.cur.toNat + n1.toNat :=
    (congrArg KeyStream.off hstream).trans pack_off
  have hk1 := (klen_packedState (bits := hi) hp hk hc1).trans_le (pack_len_le hk hc1)
  rw [packOp_ok h1 h8 hk1 (by rw [hcur]; exact hc), packedState, hstream]
  rfl

/-! ### The number that UNPACK reads (40_cursor.md R101) -/

theorem toNat_ofNat_unpack (k : List Byte) (off : Nat) {w : Nat} (h8 : w ≤ 8) :
    (BitVec.ofNat 8 (unpack k off w)).toNat = unpack k off w := by
  rw [BitVec.toNat_ofNat, Nat.mod_eq_of_lt]
  exact (unpack_lt k off w).trans_le (Nat.pow_le_pow_right (by decide) h8)

/-- The first bit read is the most significant one. -/
theorem unpack_testBit (k : List Byte) (off : Nat) {w i : Nat} (hi : i < w) :
    (unpack k off w).testBit (w - 1 - i) = getbit k (off + i) := by
  have hbits := (unpack_eq_iff (unpack_lt k off w)).mp rfl
  rw [(readBits_eq_iff (bitsOf_length w _)).mp hbits i hi, bitsOf_getElem]

/-- Reading at the old cursor what PACK wrote there. -/
theorem unpack_pack (hinv : BlockInv s) (hc : s.cur.toNat + n.toNat ≤ 8 * s.params.kmax) :
    unpack (s.stream.pack bits.toNat n.toNat).k s.cur.toNat n.toNat = bits.toNat % 2 ^ n.toNat := by
  have hw := (pack_packedAt (bits := bits) hinv hc).written
  rw [bitsOf_length] at hw
  rw [unpack_eq_iff (Nat.mod_lt _ (by positivity)), hw, bitsOf_mod]

/-- UNPACK at the old cursor, on the state that PACK left: the field is within the key. -/
theorem unpackOp_packedState (hinv : BlockInv s) (h1 : 1 ≤ n.toNat) (h8 : n.toNat ≤ 8)
    (hk : s.klen.toNat ≤ s.params.kmax) (hc : s.cur.toNat + n.toNat ≤ 8 * s.params.kmax) :
    unpackOp n { packedState s n bits with cur := s.cur } =
      .ok { packedState s n bits with val := BitVec.ofNat 8 (bits.toNat % 2 ^ n.toNat) } := by
  have hlen := klen_packedState (bits := bits) hinv.params hk hc
  have hin : s.cur.toNat + n.toNat ≤ 8 * (packedState s n bits).klen.toNat := by
    rw [hlen]
    exact cur_add_le_pack_len h1
  have hok := unpackOp_ok (s := { packedState s n bits with cur := s.cur }) h1 h8
    (hlen.trans_le (pack_len_le hk hc)) hin
  rw [hok, ← unpack_pack hinv hc, ← cur_packedState (s := s) (bits := bits)]
  rfl

/-! ### UNPACK's command word (30_encoding.md R83) -/

section UnpackWord

variable (bits) (n)

theorem setWidth_unpackWord :
    ((bits ++ n ++ 4#4 : CommandWord).setWidth 32).setWidth 16 = commandWord bits n 4#4 :=
  BitVec.setWidth_setWidth_of_le _ (by decide)

theorem unpackWord_op : ((bits ++ n ++ 4#4 : CommandWord).setWidth 32).toNat % 16 = 4 := by
  rw [← commandOp_toNat, setWidth_unpackWord, commandOp_commandWord]
  rfl

theorem unpackWord_n :
    ((bits ++ n ++ 4#4 : CommandWord).setWidth 32).toNat / 16 % 16 = n.toNat := by
  rw [← commandN_toNat, setWidth_unpackWord, commandN_commandWord]

theorem unpackWord_bits :
    ((bits ++ n ++ 4#4 : CommandWord).setWidth 32).toNat / 256 % 256 = bits.toNat := by
  rw [← commandBits_toNat, setWidth_unpackWord, commandBits_commandWord]

end UnpackWord

end Cursor

/-! ## The obligations of 40_cursor.md -/

/-- Settles O9: the decoder reads the operation back from its own command word. -/
theorem commandWriteRunsItsOperation : Obligations.CommandWriteRunsItsOperation := by
  intro s i v _ hwf he v' hv
  have hd : decode (encode i) = .ok i := decodeReadsBackEveryEncoding i hwf
  rw [he] at hd
  rw [exec_wr_cmd_congr hv, exec_wr_cmd_of_decode hd]

/-- Settles O10, by the rows of the register map: the scalars, DIG, KBUF, and no row. -/
theorem readGivesStoredBits : Obligations.ReadGivesStoredBits := by
  intro s r hp
  refine ⟨fun v hv => ?_, exec_rd_of_unassigned⟩
  apply exec_rd_of_read
  rcases hv with ⟨rfl, rfl⟩ | ⟨rfl, rfl⟩ | ⟨rfl, rfl⟩ | ⟨rfl, rfl⟩ | ⟨rfl, rfl⟩ | ⟨rfl, rfl⟩ | ⟨rfl, rfl⟩ |
    ⟨rfl, rfl⟩ | ⟨rfl, rfl⟩ | ⟨rfl, rfl⟩ | ⟨rfl, rfl⟩ | ⟨rfl, rfl⟩ | ⟨rfl, rfl⟩ | ⟨rfl, rfl⟩ |
    ⟨i, hi, rfl, rfl⟩ | ⟨i, hi, rfl, rfl⟩
  on_goal 16 => exact readRegister_kbuf hp hi
  on_goal 15 => exact readRegister_dig hi
  all_goals rfl

/-- Settles O11: CMD through the decoder, every other number through the register map. -/
theorem writeStoresLowBits : Obligations.WriteStoresLowBits := by
  intro s v hp
  simp only [BitVec.ofNat_toNat]
  refine ⟨fun i hd => exec_wr_cmd_of_decode hd, fun hd => exec_wr_cmd_of_error hd,
    fun hd => exec_wr_cmd_of_error hd, fun v' hv => exec_wr_cmd_congr hv, rfl, rfl, rfl, rfl, rfl, rfl, rfl, rfl,
    fun i hi => exec_wr_some (by omega) (writeRegister_dig hi),
    fun i hi => exec_wr_some (by omega) (writeRegister_kbuf hp hi), fun r hr => ?_⟩
  rcases hr with rfl | rfl | rfl | rfl | rfl | hr
  on_goal 6 => exact exec_wr_none (by omega) (writeRegister_unassigned hr)
  all_goals rfl

/-- Settles O13: the bits are packed into KBUF at CUR, and KLEN and CUR follow the packed stream. -/
theorem packWritesItsBits : Obligations.PackWritesItsBits := by
  intro s n bits hinv
  refine ⟨fun h1 h8 hk hc => ?_, fun hn => ?_, fun h1 h8 h => ?_⟩
  · refine ⟨_, _, pack_packedAt hinv hc, ?_⟩
    rw [exec_pack, packOp_ok h1 h8 hk hc, finish_ok, ← cur_packedState (bits := bits)]
    rfl
  · rw [exec_pack, packOp_badWidth bits (badFieldWidth_iff.mpr hn)]
    rfl
  · rw [exec_pack, packOp_capacity h1 h8 h]
    rfl

/-- Settles O14: the outcomes of UNPACK, and the two that its command word's decoder gives. -/
theorem unpackReadsItsBits : Obligations.UnpackReadsItsBits := by
  intro s n _
  refine ⟨fun h1 h8 hk hc => ?_, fun hn => ?_, fun bits hn => ?_, fun bits hb h1 h8 => ?_,
    fun h1 h8 hk => ?_, fun h1 h8 hk hc => ?_⟩
  · refine ⟨BitVec.ofNat 8 (unpack s.kbuf s.cur.toNat n.toNat), ?_, fun i hi => ?_, ?_⟩
    · rw [toNat_ofNat_unpack _ _ h8]
      exact unpack_lt _ _ _
    · rw [BitVec.getLsbD, toNat_ofNat_unpack _ _ h8, unpack_testBit _ _ hi]
    · rw [exec_unpack, unpackOp_ok h1 h8 hk hc]
      rfl
  · rw [exec_unpack, unpackOp_badWidth (badFieldWidth_iff.mpr hn)]
    rfl
  · exact exec_unpack_word_badWidth (unpackWord_op n bits) (by rwa [unpackWord_n])
  · refine exec_unpack_word_reservedField (unpackWord_op n bits) (by rwa [unpackWord_n])
      (by rwa [unpackWord_n]) ?_
    rw [unpackWord_bits]
    exact fun h => hb (BitVec.eq_of_toNat_eq h)
  · rw [exec_unpack, unpackOp_keyTooLong h1 h8 hk]
    rfl
  · rw [exec_unpack, unpackOp_truncated h1 h8 hk hc]
    rfl

/-- Settles O15: the first pack leaves its stream in the registers, and the second packs on from there. -/
theorem packSplitsAnywhere : Obligations.PackSplitsAnywhere := by
  intro s t n n1 n2 bits hinv h1 h2 hn h8 hk hc ht
  rw [exec_pack, packOp_ok h1 (by omega) hk (by omega), finish_ok] at ht
  obtain rfl := Host.Outcome.next.inj ht
  have hsplit : (s.stream.pack (bits >>> n2.toNat).toNat n1.toNat).pack bits.toNat n2.toNat =
      s.stream.pack bits.toNat n.toNat := by
    rw [BitVec.toNat_ushiftRight, Nat.shiftRight_eq_div_pow, pack_pack, hn]
  rw [exec_reported _ _ _ rfl, exec_pack, packOp_packedState hinv.params h2 (by omega) hk (by omega), hsplit,
    exec_pack, packOp_ok (by omega) h8 hk hc, finish_ok, finish_ok, packedState]

/-- Settles O16: a PACK that succeeds leaves its bits within the key, where UNPACK reads them. -/
theorem unpackReadsBackPack : Obligations.UnpackReadsBackPack := by
  intro s t n bits hinv ht hstatus
  rw [exec_pack] at ht
  obtain rfl := Host.Outcome.next.inj ht
  obtain ⟨u, hu, ht⟩ := finish_ok_of_status hstatus
  rcases packOp_cases n bits s with ⟨-, e⟩ | ⟨-, -, -, e⟩ | ⟨h1, h8, hk, hc, -⟩
  · rw [hu] at e
    cases e
  · rw [hu] at e
    cases e
  · obtain rfl : packedState s n bits = u := by
      rw [packOp_ok h1 h8 hk hc] at hu
      exact Except.ok.inj hu
    rw [ht]
    change exec (.unpack n) (State.reported { packedState s n bits with cur := s.cur } 0#3 0#5) = _
    rw [exec_reported _ _ _ rfl, exec_unpack, unpackOp_packedState hinv h1 h8 hk hc]
    rfl

end Sys2Proof.Machine
end

section
/-! The exponent field and the operations EXPENC and EXPDEC (41_exponent.md). -/

namespace Sys2Proof.Machine

/-! ## The exponent field (41_exponent.md R120, R121) -/

theorem expN_eq_iff {e n : Nat} (hn : 1 ≤ n) : expN e = n ↔ 2 ^ (n - 1) ≤ e + 2 ∧ e + 2 < 2 ^ n := by
  constructor
  · rintro rfl
    exact ⟨pow_le_of_expN e, lt_pow_expN e⟩
  · rintro ⟨hlo, hhi⟩
    obtain ⟨k, rfl⟩ : ∃ k, n = k + 1 := ⟨n - 1, by omega⟩
    exact bitlen_eq hlo hhi

theorem expfield_head? (e : Nat) (t : Bool) : (expfield e t).head? = some t := by
  rw [expfield_cons, List.head?_cons]

/-- The widths of R121 (c). -/
theorem expfield_length_iff {e n : Nat} (t : Bool) (hn : 2 ≤ n) :
    (expfield e t).length = 2 * n - 1 ↔ 2 ^ (n - 1) - 2 ≤ e ∧ e ≤ 2 ^ n - 3 := by
  have hN := expN_ge e
  have hpow : 2 ^ 2 ≤ 2 ^ n := Nat.pow_le_pow_right (by decide) hn
  calc (expfield e t).length = 2 * n - 1
      ↔ expN e = n := by rw [expfield_length]; omega
    _ ↔ 2 ^ (n - 1) ≤ e + 2 ∧ e + 2 < 2 ^ n := expN_eq_iff (by omega)
    _ ↔ 2 ^ (n - 1) - 2 ≤ e ∧ e ≤ 2 ^ n - 3 := by omega

theorem expfield_length_mono {a b : Nat} (t : Bool) (h : a ≤ b) :
    (expfield a t).length ≤ (expfield b t).length := by
  have hN := expN_mono h
  rw [expfield_length, expfield_length]
  omega

/-- Two fields of one T part at some bit, so neither begins the other. -/
theorem not_expfield_prefix_of_lt {a b : Nat} (t : Bool) (h : a < b) :
    ¬expfield a t <+: expfield b t ∧ ¬expfield b t <+: expfield a t := by
  cases t with
  | true => exact (expfield_below_true h).not_prefix
  | false => exact (expfield_below_false h).not_prefix.symm

theorem eq_of_expfield_prefix {a b : Nat} {t : Bool} (h : expfield a t <+: expfield b t) : a = b := by
  rcases Nat.lt_trichotomy a b with hlt | heq | hlt
  · exact absurd h (not_expfield_prefix_of_lt t hlt).1
  · exact heq
  · exact absurd h (not_expfield_prefix_of_lt t hlt).2

/-! ## Keys on which the exponent decoder fails (41_exponent.md R123) -/

section Decoder

variable {p : Params} {k : List Byte} {len off : Nat} {t : Bool}

theorem expdec_of_scan_error {d : Detail} (h : scanRun k len t (p.m - 1) off 1 = .error d) :
    expdec p k len off t = .error d := by
  rw [expdec, h]

theorem expdec_run_truncated (hlen : 8 * len < off + p.m)
    (hrun : ∀ j, off ≤ j → j < 8 * len → getbit k j = t) :
    expdec p k len off t = .error .truncated :=
  expdec_of_scan_error (scanRun_truncated (by omega) hrun)

/-- `M` more bits equal to T make a run of `M + 1`, since the run includes the field's first bit (R124). -/
theorem expdec_run_tooLong (hm : 1 ≤ p.m) (hlen : off + p.m ≤ 8 * len)
    (hrun : ∀ j, off ≤ j → j < off + p.m → getbit k j = t) :
    expdec p k len off t = .error .runTooLong :=
  expdec_of_scan_error (scanRun_tooLong (by omega) fun j h1 h2 => hrun j h1 (by omega))

theorem expdec_payload_truncated {r : Nat} (hr : r < p.m) (hend : off + r < 8 * len)
    (hrun : ∀ j, off ≤ j → j < off + r → getbit k j = t) (hterm : getbit k (off + r) = !t)
    (hlen : 8 * len < off + (2 * r + 2)) :
    expdec p k len off t = .error .truncated := by
  have hscan := scanRun_ok (room := p.m - 1) (run := 1) (by omega) hrun hend hterm
  rw [expdec_of_scan hscan rfl, if_pos hlen]

end Decoder

/-! ## EXPENC and EXPDEC by their outcome (41_exponent.md R122, R124) -/

section Operations

variable {s : State}

theorem exec_expenc : exec .expenc s = .next (finish s (expencOp s)) := rfl

theorem exec_expdec : exec .expdec s = .next (finish s (expdecOp s)) := rfl

theorem exec_expenc_exponentOutOfRange (he : s.params.elim < s.emag.toNat) :
    exec .expenc s = .next (s.reported 2#3 20#5) := by
  rcases expencOp_cases s with ⟨-, h⟩ | ⟨he', -⟩ | ⟨he', -⟩
  · rw [exec_expenc, h]
    rfl
  · omega
  · omega

theorem exec_expenc_capacity (he : s.emag.toNat ≤ s.params.elim)
    (hfull : s.params.kmax < s.klen.toNat ∨
      8 * s.params.kmax < s.cur.toNat + (2 * expN s.emag.toNat - 2)) :
    exec .expenc s = .next (s.reported 3#3 24#5) := by
  rcases expencOp_cases s with ⟨he', -⟩ | ⟨-, -, h⟩ | ⟨-, hk, hc, -⟩
  · omega
  · rw [exec_expenc, h]
    rfl
  · omega

/-- The stream that EXPENC leaves where there is room. -/
def exponentStream (s : State) : KeyStream :=
  s.stream.packBits (expfield s.emag.toNat s.tIndicator).tail

theorem exponentStream_off :
    (exponentStream s).off = s.cur.toNat + (2 * expN s.emag.toNat - 2) := by
  rw [exponentStream, packBits_off, expfield_tail_length, stream_off]

theorem exponentStream_packedAt (hinv : BlockInv s)
    (hc : s.cur.toNat + (2 * expN s.emag.toNat - 2) ≤ 8 * s.params.kmax) :
    PackedAt s.kbuf s.klen.toNat s.cur.toNat (expfield s.emag.toNat s.tIndicator).tail
      (exponentStream s).k (exponentStream s).len := by
  obtain ⟨-, hlen, -⟩ := wf_iff.mp hinv.memory
  refine packBits_packedAt s.stream _ ?_
  rwa [expfield_tail_length, stream_off, stream_k, hlen]

theorem exec_expenc_ok (he : s.emag.toNat ≤ s.params.elim) (hk : s.klen.toNat ≤ s.params.kmax)
    (hc : s.cur.toNat + (2 * expN s.emag.toNat - 2) ≤ 8 * s.params.kmax) :
    exec .expenc s = .next { s.reported 0#3 0#5 with
      kbuf := (exponentStream s).k, klen := BitVec.ofNat 32 (exponentStream s).len,
      cur := BitVec.ofNat 32 (s.cur.toNat + (2 * expN s.emag.toNat - 2)),
      nbits := BitVec.ofNat 6 (expN s.emag.toNat) } := by
  rcases expencOp_cases s with ⟨he', -⟩ | ⟨-, hfull, -⟩ | ⟨-, -, -, h⟩
  · omega
  · omega
  · rw [exec_expenc, h, ← exponentStream_off]
    rfl

theorem exec_expdec_keyTooLong (hk : s.params.kmax < s.klen.toNat) :
    exec .expdec s = .next (s.reported 1#3 14#5) := by
  rcases expdecOp_cases s with ⟨-, h⟩ | ⟨d, hk', -⟩ | ⟨f, hk', -⟩
  · rw [exec_expdec, h]
    rfl
  · omega
  · omega

theorem exec_expdec_of_error {d : Detail} (hk : s.klen.toNat ≤ s.params.kmax)
    (hd : expdec s.params s.kbuf s.klen.toNat s.cur.toNat s.tIndicator = .error d) :
    exec .expdec s = .next (s.reported d.status.code d.code) := by
  rcases expdecOp_cases s with ⟨hk', -⟩ | ⟨d', -, hd', h⟩ | ⟨f, -, hf, -⟩
  · omega
  · obtain rfl : d' = d := Except.error.inj (hd'.symm.trans hd)
    rw [exec_expdec, h, finish_error]
  · cases hf.symm.trans hd

theorem exec_expdec_of_ok {f : ExpResult} (hk : s.klen.toNat ≤ s.params.kmax)
    (hf : expdec s.params s.kbuf s.klen.toNat s.cur.toNat s.tIndicator = .ok f) :
    exec .expdec s = .next { s.reported 0#3 0#5 with
      emag := BitVec.ofNat 32 f.e, nbits := BitVec.ofNat 6 f.n, cur := BitVec.ofNat 32 f.off } := by
  rcases expdecOp_cases s with ⟨hk', -⟩ | ⟨d, -, hd, -⟩ | ⟨f', -, hf', h⟩
  · omega
  · cases hd.symm.trans hf
  · obtain rfl : f' = f := Except.ok.inj (hf'.symm.trans hf)
    rw [exec_expdec, h]
    rfl

end Operations

/-! ## The obligations of 41_exponent.md -/

/-- Settles O17: two fields of different E or T agree up to one bit, which decides their order and keeps
either from beginning the other. -/
theorem exponentFieldProperties : Obligations.ExponentFieldProperties :=
  ⟨expfield_length, expfield_head?, fun _ t _ hn => expfield_length_iff t hn,
    fun _ _ t h => expfield_length_mono t h, fun _ _ _ h => eq_of_expfield_prefix h,
    fun _ _ h => ⟨(expfield_below_true h).lt, (expfield_below_false h).lt⟩,
    fun a b => (expfield_below_of_t a b).lt⟩

/-- Settles O18: the field's tail is packed into KBUF at CUR, and KLEN and CUR follow the packed stream. -/
theorem expencWritesTheField : Obligations.ExpencWritesTheField := by
  rintro s hinv e n rfl rfl
  exact ⟨fun he hk hc => ⟨_, _, exponentStream_packedAt hinv hc, exec_expenc_ok he hk hc⟩,
    exec_expenc_exponentOutOfRange, exec_expenc_capacity⟩

/-- Settles O19: the scan of the run and the read of the payload give the outcome of `expdec`, and EXPDEC
reports it. An `E` within ELIM has a run of at most `M` bits (00_scope.md R9). -/
theorem expdecReadsTheField : Obligations.ExpdecReadsTheField := by
  rintro s hinv t rfl
  obtain ⟨-, -, -, hm, -, helim, -⟩ := valid_iff.mp hinv.params
  refine ⟨?_, exec_expdec_keyTooLong, fun hk hlen hrun => ?_, fun hk hlen hrun => ?_,
    fun r hk hr hend hrun hterm hlen => ?_, ?_⟩
  · rintro e n he rfl hk hlen hbits
    have hfield := expdec_of_field (p := s.params) (by omega)
      (expN_le_of_le (by omega) (he.trans helim)) hlen hbits
    rw [if_neg (Nat.not_lt.mpr he)] at hfield
    exact exec_expdec_of_ok hk hfield
  · exact exec_expdec_of_error hk (expdec_run_truncated hlen hrun)
  · exact exec_expdec_of_error hk (expdec_run_tooLong (by omega) hlen hrun)
  · exact exec_expdec_of_error hk (expdec_payload_truncated hr hend hrun hterm hlen)
  · rintro e n he rfl hn hk hlen hbits
    have hfield := expdec_of_field (p := s.params) (by omega) hn hlen hbits
    rw [if_pos he] at hfield
    exact exec_expdec_of_error hk hfield

end Sys2Proof.Machine
end

section
/-! Ten's complement, the declets, and the operations SIGENC and SIGDEC (42_significand.md). -/

namespace Sys2Proof.Machine

/-! ## Ten's complement (42_significand.md R141) -/

/-- A digit sequence splits at its last nonzero digit. -/
theorem eq_append_of_last_nonzero {d : List Nat} {j : Nat} (hj : j < d.length)
    (hz : ∀ i, j < i → d.getD i 0 = 0) :
    ∃ a b, d = a ++ d.getD j 0 :: b ∧ a.length = j ∧ allZero b = true := by
  refine ⟨d.take j, d.drop (j + 1), ?_, by rw [List.length_take]; omega, allZero_iff.mpr fun x hx => ?_⟩
  · rw [List.getD_eq_getElem _ _ hj, List.getElem_cons_drop, List.take_append_drop]
  · obtain ⟨i, hi, rfl⟩ := List.getElem_of_mem hx
    rw [List.length_drop] at hi
    rw [List.getElem_drop, ← hz (j + 1 + i) (by omega), List.getD_eq_getElem _ _ (by omega)]

/-- The digits of R141: nines before the last nonzero digit, ten at it, nothing after it. -/
theorem tens_append_cons {a b : List Nat} {x : Nat} (hx : x ≠ 0) (hb : allZero b = true) :
    tens (a ++ x :: b) = a.map (9 - ·) ++ (10 - x) :: b := by
  have hxb : allZero (x :: b) = false := allZero_eq_false.mpr ⟨x, List.mem_cons_self, hx⟩
  rw [tens_append_of_nonzero a hxb, tens, if_pos hb]

theorem tens_getD {d : List Nat} {j : Nat} (hj : j < d.length) (h0 : d.getD j 0 ≠ 0)
    (hz : ∀ i, j < i → d.getD i 0 = 0) :
    (∀ i, i < j → (tens d).getD i 0 = 9 - d.getD i 0) ∧
    (tens d).getD j 0 = 10 - d.getD j 0 ∧ ∀ i, j < i → (tens d).getD i 0 = 0 := by
  obtain ⟨a, b, hd, rfl, hb⟩ := eq_append_of_last_nonzero hj hz
  generalize d.getD a.length 0 = x at hd h0 ⊢
  subst hd
  rw [tens_append_cons h0 hb]
  refine ⟨fun i hi => ?_, ?_, fun i hi => ?_⟩
  · rw [List.getD_append _ _ _ _ (by simpa using hi), List.getD_append _ _ _ _ hi,
      List.getD_eq_getElem _ _ (by simpa using hi), List.getD_eq_getElem _ _ hi, List.getElem_map]
  · rw [List.getD_append_right _ _ _ _ (by simp), List.length_map, Nat.sub_self, List.getD_cons_zero]
  · have hb0 := hz i hi
    rw [List.getD_append_right _ _ _ _ hi.le] at hb0
    rw [List.getD_append_right _ _ _ _ (by simpa using hi.le), List.length_map]
    obtain ⟨m, hm⟩ : ∃ m, i - a.length = m + 1 := ⟨i - a.length - 1, by omega⟩
    rw [hm, List.getD_cons_succ] at hb0 ⊢
    exact hb0

theorem tens_lt_tens {d d' : List Nat} (hd : AllDigits d) (hd' : AllDigits d')
    (hl : d'.length = d.length) (h0 : allZero d = false) (hlt : digitsValue d < digitsValue d') :
    digitsValue (tens d') < digitsValue (tens d) := by
  have h0' : allZero d' = false := by
    rw [← Bool.not_eq_true, ← digitsValue_eq_zero]
    omega
  have hv := tens_value hd h0
  have hv' := tens_value hd' h0'
  rw [hl] at hv'
  omega

/-! ## The significand decoder's checks (42_significand.md R145) -/

theorem unpack_eq_zero_iff {k : List Byte} {off n stop : Nat} (h : off + n = stop) :
    unpack k off n = 0 ↔ ∀ j, off ≤ j → j < stop → getbit k j = false := by
  subst h
  rw [unpack, bitsVal_eq_zero, readBits_length, readBits_eq_iff (by simp)]
  constructor
  · intro h j hj hlt
    have := h (j - off) (by omega)
    rwa [Nat.add_sub_cancel' hj, List.getElem_replicate] at this
  · intro h i hi
    rw [List.getElem_replicate]
    exact h _ (by omega) (by omega)

section Decoder

variable {p : Params} {k : List Byte} {len off : Nat} {neg : Bool}

theorem sigdec_truncated (h : 8 * len < off + 10) : sigdec p k len off neg = .error .truncated := by
  rw [sigdec]
  split
  · rfl
  · rw [if_pos (by omega)]

theorem sigdec_tooManyDigits (hg : 1 ≤ (8 * len - off) / 10) (h : p.dmax < 3 * ((8 * len - off) / 10)) :
    sigdec p k len off neg = .error .tooManyDigits := by
  rw [sigdec, if_neg (by omega), if_neg (by omega), if_pos h]

theorem sigdec_spareByte (hg : 1 ≤ (8 * len - off) / 10) (hmax : 3 * ((8 * len - off) / 10) ≤ p.dmax)
    (h : 8 ≤ (8 * len - off) % 10) : sigdec p k len off neg = .error .badTail := by
  rw [sigdec, if_neg (by omega), if_neg (by omega), if_neg (by omega), if_pos h]

section Groups

variable {g spare : Nat} (hlen : 8 * len = off + (10 * g + spare)) (hspare : spare ≤ 7) (hg : 1 ≤ g)
  (hmax : 3 * g ≤ p.dmax)

include hlen hspare hg hmax

theorem sigdec_badDeclet (hv : ∃ x ∈ readDeclets k off g, 1000 ≤ x) :
    sigdec p k len off neg = .error .badDeclet := by
  rw [sigdec_eq hlen hspare hg hmax, if_pos (by simpa [Nat.succ_le_iff] using hv)]

/-- Past the groups' own check. -/
theorem sigdec_of_declets (hv : ∀ x ∈ readDeclets k off g, x ≤ 999) :
    sigdec p k len off neg =
      if unpack k (off + 10 * g) spare ≠ 0 then .error .badTail
      else if (readDeclets k off g).getLastD 0 = 0 then .error .zeroLastGroup
      else if (storedDigits ((readDeclets k off g).flatMap decletDigits) neg).headD 0 = 0 then
        .error .badLeadGroup
      else .ok { digits := storedDigits ((readDeclets k off g).flatMap decletDigits) neg, off := 8 * len } := by
  rw [sigdec_eq hlen hspare hg hmax, if_neg (by simpa using hv)]

theorem sigdec_tailBit (hv : ∀ x ∈ readDeclets k off g, x ≤ 999)
    (ht : ∃ j, off + 10 * g ≤ j ∧ j < 8 * len ∧ getbit k j = true) :
    sigdec p k len off neg = .error .badTail := by
  obtain ⟨j, hj, hlt, hbit⟩ := ht
  have hne : unpack k (off + 10 * g) spare ≠ 0 := fun h0 =>
    absurd hbit (Bool.eq_false_iff.mp ((unpack_eq_zero_iff (by omega)).mp h0 j hj hlt))
  rw [sigdec_of_declets hlen hspare hg hmax hv, if_pos hne]

theorem sigdec_zeroLastGroup (hv : ∀ x ∈ readDeclets k off g, x ≤ 999)
    (ht : ∀ j, off + 10 * g ≤ j → j < 8 * len → getbit k j = false)
    (hlast : (readDeclets k off g).getLast? = some 0) :
    sigdec p k len off neg = .error .zeroLastGroup := by
  have htail : unpack k (off + 10 * g) spare = 0 := (unpack_eq_zero_iff (by omega)).mpr ht
  rw [sigdec_of_declets hlen hspare hg hmax hv, if_neg (not_not.mpr htail),
    if_pos (by rw [List.getLastD_eq_getLast?, hlast]; rfl)]

theorem sigdec_badLeadGroup (hv : ∀ x ∈ readDeclets k off g, x ≤ 999)
    (ht : ∀ j, off + 10 * g ≤ j → j < 8 * len → getbit k j = false)
    (hlast : (readDeclets k off g).getLast? ≠ some 0)
    (hlead : (storedDigits ((readDeclets k off g).flatMap decletDigits) neg).head? = some 0) :
    sigdec p k len off neg = .error .badLeadGroup := by
  have htail : unpack k (off + 10 * g) spare = 0 := (unpack_eq_zero_iff (by omega)).mpr ht
  have hne : readDeclets k off g ≠ [] := List.ne_nil_of_length_pos (by rw [readDeclets_length]; exact hg)
  have hlastD : (readDeclets k off g).getLastD 0 ≠ 0 := by
    rw [List.getLast?_eq_some_getLast hne] at hlast
    rw [List.getLastD_eq_getLast?, List.getLast?_eq_some_getLast hne]
    exact fun h0 => hlast (congrArg some h0)
  rw [sigdec_of_declets hlen hspare hg hmax hv, if_neg (not_not.mpr htail), if_neg hlastD,
    if_pos (by rw [List.headD_eq_head?_getD, hlead]; rfl)]

end Groups

end Decoder

/-! ## SIGENC by its outcome (42_significand.md R144) -/

theorem not_allDigits {d : List Nat} (h : ∃ x ∈ d, 9 < x) : ¬AllDigits d := by
  obtain ⟨x, hx, h9⟩ := h
  exact fun hd => absurd (hd x hx) (Nat.not_le.mpr h9)

theorem not_forall_zero {d : List Nat} (h : ∃ x ∈ d, x ≠ 0) : ¬∀ x ∈ d, x = 0 := by
  obtain ⟨x, hx, h0⟩ := h
  exact fun hz => h0 (hz x hx)

section Sigenc

variable {s : State}

theorem negative_iff : s.negative = true ↔ s.sign = 1#1 := decide_eq_true_iff

theorem exec_sigenc : exec .sigenc s = .next (finish s (sigencOp s)) := rfl

theorem exec_sigenc_of_error {d : Detail} (h : sigencOp s = .error d) :
    exec .sigenc s = .next (s.reported d.status.code d.code) := by
  rw [exec_sigenc, h, finish_error]

theorem exec_sigenc_badDigitCount
    (h : s.dcnt.toNat = 0 ∨ s.params.dmax < s.dcnt.toNat ∨ s.dcnt.toNat % 3 ≠ 0) :
    exec .sigenc s = .next (s.reported 2#3 17#5) := by
  rcases sigencOp_cases s with ⟨-, e⟩ | ⟨h1, hmax, h3, -⟩
  · exact exec_sigenc_of_error e
  · omega

/-- The stream that SIGENC leaves where there is room. -/
def significandStream (s : State) : KeyStream :=
  s.stream.packBits (sigbits s.coefficient s.negative)

theorem coefficient_length (hinv : BlockInv s) (hmax : s.dcnt.toNat ≤ s.params.dmax) :
    s.coefficient.length = s.dcnt.toNat := by
  obtain ⟨hdig, -, -⟩ := wf_iff.mp hinv.memory
  exact digits_length (by omega)

theorem significandStream_off (hinv : BlockInv s) (hmax : s.dcnt.toNat ≤ s.params.dmax) :
    (significandStream s).off = s.cur.toNat + 10 * (s.dcnt.toNat / 3) := by
  rw [significandStream, packBits_off, sigbits_length, stream_off, coefficient_length hinv hmax]

theorem significandStream_packedAt (hinv : BlockInv s) (hmax : s.dcnt.toNat ≤ s.params.dmax)
    (hc : s.cur.toNat + 10 * (s.dcnt.toNat / 3) ≤ 8 * s.params.kmax) :
    PackedAt s.kbuf s.klen.toNat s.cur.toNat (sigbits s.coefficient s.negative)
      (significandStream s).k (significandStream s).len := by
  obtain ⟨-, hlen, -⟩ := wf_iff.mp hinv.memory
  refine packBits_packedAt s.stream _ ?_
  rwa [sigbits_length, coefficient_length hinv hmax, stream_off, stream_k, hlen]

section WholeGroups

variable (h1 : 1 ≤ s.dcnt.toNat) (hmax : s.dcnt.toNat ≤ s.params.dmax) (h3 : s.dcnt.toNat % 3 = 0)

include h1 hmax h3

theorem exec_sigenc_badDigit (h : ∃ x ∈ s.coefficient, 9 < x) :
    exec .sigenc s = .next (s.reported 2#3 18#5) := by
  rcases sigencOp_cases s with
    ⟨hn, -⟩ | ⟨-, -, -, ⟨-, e⟩ | ⟨hd, -⟩ | ⟨hd, -⟩ | ⟨hd, -⟩⟩
  · omega
  · exact exec_sigenc_of_error e
  all_goals exact absurd hd (not_allDigits h)

theorem exec_sigenc_zeroCoefficient (hneg : s.sign = 1#1) (hz : ∀ x ∈ s.coefficient, x = 0) :
    exec .sigenc s = .next (s.reported 2#3 23#5) := by
  have hd : AllDigits s.coefficient := fun x hx => by rw [hz x hx]; exact Nat.zero_le 9
  rcases sigencOp_cases s with
    ⟨hn, -⟩ | ⟨-, -, -, ⟨hb, -⟩ | ⟨-, -, -, e⟩ | ⟨-, hnz, -⟩ | ⟨-, hnz, -⟩⟩
  · omega
  · exact absurd hd (not_allDigits hb)
  · exact exec_sigenc_of_error e
  all_goals exact absurd hz (not_forall_zero (hnz (negative_iff.mpr hneg)))

section LegalCoefficient

variable (hd : AllDigits s.coefficient) (hnz : s.sign = 1#1 → ∃ x ∈ s.coefficient, x ≠ 0)

include hd hnz

theorem exec_sigenc_capacity
    (hfull : s.params.kmax < s.klen.toNat ∨
      8 * s.params.kmax < s.cur.toNat + 10 * (s.dcnt.toNat / 3)) :
    exec .sigenc s = .next (s.reported 3#3 24#5) := by
  rcases sigencOp_cases s with
    ⟨hn, -⟩ | ⟨-, -, -, ⟨hb, -⟩ | ⟨-, hneg, hz, -⟩ | ⟨-, -, -, e⟩ | ⟨-, -, hk, hc, -⟩⟩
  · omega
  · exact absurd hd (not_allDigits hb)
  · exact absurd hz (not_forall_zero (hnz (negative_iff.mp hneg)))
  · exact exec_sigenc_of_error e
  · omega

theorem exec_sigenc_ok (hinv : BlockInv s) (hk : s.klen.toNat ≤ s.params.kmax)
    (hc : s.cur.toNat + 10 * (s.dcnt.toNat / 3) ≤ 8 * s.params.kmax) :
    exec .sigenc s = .next { s.reported 0#3 0#5 with
      kbuf := (significandStream s).k, klen := BitVec.ofNat 32 (significandStream s).len,
      cur := BitVec.ofNat 32 (s.cur.toNat + 10 * (s.dcnt.toNat / 3)),
      scr := overlay (toCells (storedDigits s.coefficient s.negative)) s.scr } := by
  rcases sigencOp_cases s with
    ⟨hn, -⟩ | ⟨-, -, -, ⟨hb, -⟩ | ⟨-, hneg, hz, -⟩ | ⟨-, -, hfull, -⟩ | ⟨-, -, -, -, e⟩⟩
  · omega
  · exact absurd hd (not_allDigits hb)
  · exact absurd hz (not_forall_zero (hnz (negative_iff.mp hneg)))
  · omega
  · rw [exec_sigenc, e, ← significandStream_off hinv hmax]
    rfl

end LegalCoefficient

end WholeGroups

end Sigenc

/-! ## SIGDEC by its outcome (42_significand.md R146) -/

section Sigdec

variable {s : State}

theorem exec_sigdec : exec .sigdec s = .next (finish s (sigdecOp s)) := rfl

theorem exec_sigdec_keyTooLong (hk : s.params.kmax < s.klen.toNat) :
    exec .sigdec s = .next (s.reported 1#3 14#5) := by
  rcases sigdecOp_cases s with ⟨-, e⟩ | ⟨d, hk', -⟩ | ⟨c, hk', -⟩
  · rw [exec_sigdec, e]
    rfl
  · omega
  · omega

theorem exec_sigdec_of_error {d : Detail} (hk : s.klen.toNat ≤ s.params.kmax)
    (hd : sigdec s.params s.kbuf s.klen.toNat s.cur.toNat s.negative = .error d) :
    exec .sigdec s = .next (s.reported d.status.code d.code) := by
  rcases sigdecOp_cases s with ⟨hk', -⟩ | ⟨d', -, hd', e⟩ | ⟨c, -, hc, -⟩
  · omega
  · obtain rfl : d' = d := Except.error.inj (hd'.symm.trans hd)
    rw [exec_sigdec, e, finish_error]
  · cases hc.symm.trans hd

theorem exec_sigdec_of_ok {c : SigResult} (hk : s.klen.toNat ≤ s.params.kmax)
    (hc : sigdec s.params s.kbuf s.klen.toNat s.cur.toNat s.negative = .ok c) :
    exec .sigdec s = .next { s.reported 0#3 0#5 with
      dig := overlay (toCells c.digits) s.dig, dcnt := BitVec.ofNat 32 c.digits.length,
      cur := BitVec.ofNat 32 c.off, scr := overlay (toCells c.digits) s.scr } := by
  rcases sigdecOp_cases s with ⟨hk', -⟩ | ⟨d, -, hd, -⟩ | ⟨c', -, hc', e⟩
  · omega
  · cases hd.symm.trans hc
  · obtain rfl : c' = c := Except.ok.inj (hc'.symm.trans hc)
    rw [exec_sigdec, e]
    rfl

theorem storedDigits_negative (d : List Nat) :
    storedDigits d s.negative = if s.sign = 1#1 then tens d else d := by
  simp only [storedDigits, negative_iff]

end Sigdec

/-! ## The obligations of 42_significand.md -/

/-- Settles O21: a declet is the value of its three digits, which its quotients by 100 and 10 give back. -/
theorem decletAndDigitsAreInverse : Obligations.DecletAndDigitsAreInverse := by
  refine ⟨fun d0 d1 d2 h0 h1 h2 => ⟨rfl, declet_le h0 h1 h2, ?_, decletDigits_declet h1 h2⟩,
    fun v hv => ⟨rfl, ?_⟩, fun v d0 d1 d2 hv _ h0 h1 h2 => ?_⟩
  · simp [sigbits, storedDigits, declets]
  · rw [declet]
    omega
  · have := declet_le h0 h1 h2
    omega

/-- Settles O20: the value `10^k - C` gives the order and the inverse, the split at the last nonzero digit gives
the digits. -/
theorem tensComplementProperties : Obligations.TensComplementProperties := by
  intro d hd h1
  have h0 : allZero d = false := by
    rw [← Bool.not_eq_true, ← digitsValue_eq_zero]
    omega
  have hvalue := tens_value hd h0
  exact ⟨⟨tens_length d, tens_digits hd h0, by omega⟩, fun j hj hj0 hz => tens_getD hj hj0 hz,
    tens_tens hd h0, fun d' hd' hl hlt => tens_lt_tens hd hd' hl h0 hlt,
    fun z => tens_append_of_zero (allZero_iff.mpr (by simp)) h0⟩

/-- Settles O22: the declets are packed into KBUF at CUR, and KLEN and CUR follow the packed stream. -/
theorem sigencWritesTheDeclets : Obligations.SigencWritesTheDeclets := by
  rintro s hinv n d rfl rfl
  exact ⟨fun h1 hmax h3 hd hnz hk hc => ⟨_, _, _, significandStream_packedAt hinv hmax hc,
      scr_overlay_length hinv.memory s.negative (coefficient_length_le hinv.memory),
      exec_sigenc_ok h1 hmax h3 hd hnz hinv hk hc⟩,
    exec_sigenc_badDigitCount, exec_sigenc_badDigit, exec_sigenc_zeroCoefficient, exec_sigenc_capacity⟩

/-- Settles O23: the decoder answers the canonical coefficient, and SIGDEC lays it over DIG and SCR. -/
theorem sigdecReadsTheDeclets : Obligations.SigdecReadsTheDeclets := by
  intro s d tail hinv hd ht hk hlen hbits
  obtain ⟨hdig, -, hscr⟩ := wf_iff.mp hinv.memory
  have hsize := hd.size
  exact ⟨overlay (toCells d) s.dig, overlay (toCells d) s.scr,
    overlay_length (by simpa [hdig] using hsize), overlay_length (by simpa [hscr] using hsize),
    fun i hi => overlay_toCells_lt hd.digits hi, fun i hi => overlay_toCells_ge hi,
    exec_sigdec_of_ok hk (sigdec_of_bits hd ht hlen hbits)⟩

/-- Settles O24: each check of the decoder that fails first is the fault SIGDEC reports. -/
theorem sigdecFaultsInOrder : Obligations.SigdecFaultsInOrder := by
  intro s hinv g p v d hg hp hv hd
  refine ⟨exec_sigdec_keyTooLong, fun hk => ⟨fun h => ?_, fun h1 h => ?_, fun h1 hmax =>
    ⟨fun h => ?_, fun hp7 => ?_⟩⟩⟩
  · exact exec_sigdec_of_error hk (sigdec_truncated h)
  · exact exec_sigdec_of_error hk (sigdec_tooManyDigits (hg ▸ h1) (hg ▸ h))
  · exact exec_sigdec_of_error hk (sigdec_spareByte (hg ▸ h1) (hg ▸ hmax) (hp ▸ h))
  have hlen : 8 * s.klen.toNat = s.cur.toNat + (10 * g + p) := by omega
  subst hv hd
  refine ⟨fun h => ?_, fun hle => ⟨fun h => ?_, fun htail => ⟨fun hlast => ?_, fun hlast hlead => ?_⟩⟩⟩
  · exact exec_sigdec_of_error hk (sigdec_badDeclet hlen hp7 h1 hmax h)
  · exact exec_sigdec_of_error hk (sigdec_tailBit hlen hp7 h1 hmax hle h)
  · exact exec_sigdec_of_error hk (sigdec_zeroLastGroup hlen hp7 h1 hmax hle htail hlast)
  · rw [← storedDigits_negative] at hlead
    exact exec_sigdec_of_error hk (sigdec_badLeadGroup hlen hp7 h1 hmax hle htail hlast hlead)

end Sys2Proof.Machine
end

section
/-! The classifier and the Special-Value Codec: CLASSV, CLASSK, SPENC, SPDEC, and DECODE of the keys that the length
and the first byte decide (43_special.md). -/

namespace Sys2Proof.Machine

/-! ## The kind of a value, by the registers that decide it (43_special.md R165) -/

section Value

variable {s : State}

theorem negative_eq_false (h : s.sign = 0#1) : s.negative = false := by
  rw [State.negative, h]
  rfl

theorem kindv_badClass (h : s.cls = 3#2) : kindv s = .error .badClass := by
  rw [kindv, if_pos h]

theorem kindv_nan (h : s.cls = 2#2) : kindv s = .ok .nan := by
  simp [kindv, h]

theorem kindv_infinite (h : s.cls = 1#2) : kindv s = .ok (if s.negative then .negInf else .posInf) := by
  simp [kindv, h]

theorem kindv_badDigitCount (h : s.cls = 0#2) (hn : s.dcnt.toNat = 0 ∨ s.params.dmax < s.dcnt.toNat) :
    kindv s = .error .badDigitCount := by
  simp [kindv, h, hn]

theorem kindv_badDigit (h : s.cls = 0#2) (h1 : 1 ≤ s.dcnt.toNat) (hmax : s.dcnt.toNat ≤ s.params.dmax)
    (hb : ∃ x ∈ s.coefficient, 9 < x) : kindv s = .error .badDigit := by
  have hn : ¬(s.dcnt.toNat = 0 ∨ s.params.dmax < s.dcnt.toNat) := by omega
  simp [kindv, h, hn, badDigits_iff.mpr hb]

theorem kindv_of_sign_one {neg pos : Kind} (h : kindv s = .ok (if s.negative then neg else pos))
    (hs : s.sign = 1#1) : kindv s = .ok neg := by
  rwa [if_pos (negative_iff.mpr hs)] at h

theorem kindv_of_sign_zero {neg pos : Kind} (h : kindv s = .ok (if s.negative then neg else pos))
    (hs : s.sign = 0#1) : kindv s = .ok pos := by
  rwa [negative_eq_false hs] at h

end Value

/-! ## The kind of a key, by its length and its first byte as a number (43_special.md R167) -/

/-- The five bytes of R71. -/
theorem kindOfByte_of_toNat {k : Kind} {b x : Byte} (hk : k.keyByte = some b) (hx : x.toNat = b.toNat) :
    kindOfByte x = .ok k := by
  rw [BitVec.eq_of_toNat_eq hx]
  exact (keyByte_kindOfByte k b).mp hk

/-- Every other byte. -/
theorem kindOfByte_unknownSpecial {x : Byte} (h00 : x.toNat ≠ 0x00) (h40 : x.toNat ≠ 0x40)
    (h80 : x.toNat ≠ 0x80) (hC0 : x.toNat ≠ 0xC0) (hE0 : x.toNat ≠ 0xE0) :
    kindOfByte x = .error .unknownSpecial := by
  rcases kindOfByte_cases x with ⟨rfl, -⟩ | ⟨rfl, -⟩ | ⟨rfl, -⟩ | ⟨rfl, -⟩ | ⟨rfl, -⟩ | ⟨-, -, -, -, -, h⟩
  · exact absurd rfl h00
  · exact absurd rfl h40
  · exact absurd rfl h80
  · exact absurd rfl hC0
  · exact absurd rfl hE0
  · exact h

/-- The outcome of the header tests on each range of first bytes: the ranges of `kindOfLead_cases` exclude
each other. -/
theorem kindOfLead_ranges (x : Byte) :
    ((0x40 ≤ x.toNat ∧ x.toNat < 0x80 ∨ 0xC0 ≤ x.toNat) → kindOfLead x = .error .badSign) ∧
    ((0x20 ≤ x.toNat ∧ x.toNat < 0x40 ∨ 0xA0 ≤ x.toNat ∧ x.toNat < 0xC0) →
      kindOfLead x = .error .badPad) ∧
    ((0x10 ≤ x.toNat ∧ x.toNat ≤ 0x13 ∨ 0x8C ≤ x.toNat ∧ x.toNat ≤ 0x8F) →
      kindOfLead x = .error .negZeroExponent) ∧
    ((x.toNat ≤ 0x0F ∨ 0x14 ≤ x.toNat ∧ x.toNat ≤ 0x1F) → kindOfLead x = .ok .negFinite) ∧
    ((0x80 ≤ x.toNat ∧ x.toNat ≤ 0x8B ∨ 0x90 ≤ x.toNat ∧ x.toNat ≤ 0x9F) →
      kindOfLead x = .ok .posFinite) := by
  rcases kindOfLead_cases x with ⟨hr, h⟩ | ⟨hr, h⟩ | ⟨hr, h⟩ | ⟨hr, h⟩ | ⟨hr, h⟩ <;>
    simp only [h, reduceCtorEq, implies_true, true_and, and_true] <;> omega

section Key

variable {s : State}

theorem kindk_emptyKey (h : s.klen.toNat = 0) : kindk s = .error .emptyKey := by
  rw [kindk, if_pos h]

theorem kindk_keyTooLong (h : s.params.kmax < s.klen.toNat) : kindk s = .error .keyTooLong := by
  rw [kindk, if_neg (by omega), if_pos h]

/-- A key of one byte fits in KBUF (00_scope.md R10). -/
theorem kindk_oneByte (hinv : BlockInv s) (h1 : s.klen.toNat = 1) : kindk s = kindOfByte s.lead := by
  have hmax := kmax_ge hinv.params
  exact kindk_of_one h1 (by omega)

end Key

/-! ## CLASSV, CLASSK and SPENC by the classifier's outcome (43_special.md R161 to R163) -/

section Classified

variable {s : State}

theorem exec_classv_of_error {d : Detail} (h : kindv s = .error d) :
    exec .classv s = .next (s.reported d.status.code d.code) := by
  rw [exec_command rfl, commandResult, classvOp, h, finish_error]

theorem exec_classv_of_ok {k : Kind} (h : kindv s = .ok k) :
    exec .classv s = .next { s.reported 0#3 0#5 with kind := k.code } := by
  rw [exec_command rfl, commandResult, classvOp, h]
  rfl

theorem exec_classk_of_error {d : Detail} (h : kindk s = .error d) :
    exec .classk s = .next (s.reported d.status.code d.code) := by
  rw [exec_command rfl, commandResult, classkOp, h, finish_error]

theorem exec_classk_of_ok {k : Kind} (h : kindk s = .ok k) :
    exec .classk s = .next { s.reported 0#3 0#5 with kind := k.code } := by
  rw [exec_command rfl, commandResult, classkOp, h]
  rfl

theorem exec_spenc_of_error {d : Detail} (h : kindv s = .error d) :
    exec .spenc s = .next (s.reported d.status.code d.code) := by
  rw [exec_command rfl, commandResult, spencOp, h, finish_error]

theorem exec_spenc_of_special {k : Kind} {b : Byte} (hb : k.keyByte = some b) (h : kindv s = .ok k) :
    exec .spenc s = .next ((encodeSpecial b s).reported 0#3 0#5) := by
  rw [exec_command rfl]
  simp only [commandResult, spencOp, h, hb, finish_ok]

theorem exec_spenc_notSpecial {k : Kind} (hb : k.keyByte = none) (h : kindv s = .ok k) :
    exec .spenc s = .next (s.reported 2#3 22#5) := by
  rw [exec_command rfl]
  simp only [commandResult, spencOp, h, hb]
  rfl

theorem keyByte_finite : (if s.negative then Kind.negFinite else .posFinite).keyByte = none := by
  cases s.negative <;> rfl

end Classified

/-! ## SPDEC by the length of its key (43_special.md R164) -/

section Spdec

variable {s : State}

theorem exec_spdec : exec .spdec s = .next (finish s (spdecOp s)) := rfl

theorem exec_spdec_emptyKey (h0 : s.klen.toNat = 0) : exec .spdec s = .next (s.reported 1#3 1#5) := by
  rcases spdecOp_cases s with ⟨-, e⟩ | ⟨-, h, -⟩ | ⟨h, -⟩ | ⟨h, -⟩ | ⟨h, -⟩
  · rw [exec_spdec, e]
    rfl
  all_goals omega

theorem exec_spdec_keyTooLong (hk : s.params.kmax < s.klen.toNat) :
    exec .spdec s = .next (s.reported 1#3 14#5) := by
  rcases spdecOp_cases s with ⟨h, -⟩ | ⟨-, -, e⟩ | ⟨-, h, -⟩ | ⟨h, h1, -⟩ | ⟨h, h1, -⟩
  on_goal 2 =>
    rw [exec_spdec, e]
    rfl
  all_goals omega

/-- A key of two or more bytes is not a special key, whatever its first byte. -/
theorem exec_spdec_longKey (h2 : 2 ≤ s.klen.toNat) (hk : s.klen.toNat ≤ s.params.kmax) :
    exec .spdec s = .next (s.reported 1#3 2#5) := by
  rcases spdecOp_cases s with ⟨h, -⟩ | ⟨h, -⟩ | ⟨-, -, e⟩ | ⟨h, -⟩ | ⟨h, -⟩
  on_goal 3 =>
    rw [exec_spdec, e]
    rfl
  all_goals omega

/-- SPDEC reads a one-byte key as DECODE does (44_orchestrator.md R186). -/
theorem exec_spdec_eq_decode (hinv : BlockInv s) (h1 : s.klen.toNat = 1) :
    exec .spdec s = exec .decode s := by
  have hkind := kindk_oneByte hinv h1
  have hmax := kmax_ge hinv.params
  rcases spdecOp_cases s with ⟨h, -⟩ | ⟨h, -⟩ | ⟨h, -⟩ | ⟨-, -, d, hd, e⟩ | ⟨-, -, k, hk, e⟩
  iterate 3 omega
  · rw [exec_decode_of_kindk_error (hkind.trans hd), exec_spdec, e, finish_error]
  · rw [exec_decode_of_special (hkind.trans hk) ((keyByte_kindOfByte k s.lead).mpr hk), exec_spdec, e]
    rfl

end Spdec

/-! ## DECODE of a one-byte key (43_special.md R168) -/

section DecodeOneByte

variable {s : State} (hinv : BlockInv s) (h1 : s.klen.toNat = 1)

include hinv h1

theorem exec_decode_oneByte {k : Kind} {b : Byte} (hb : k.keyByte = some b) (hlead : s.lead.toNat = b.toNat) :
    exec .decode s = .next (specialKey k s) := by
  have hkey : kindOfByte s.lead = .ok k := kindOfByte_of_toNat hb hlead
  exact exec_decode_of_special ((kindk_oneByte hinv h1).trans hkey) hb

/-- The rows of R168, and the fault of every other byte. -/
theorem exec_decode_oneByte_rows {out : BitVec 1 → BitVec 2 → Word → State}
    (hout : ∀ sg c n, out sg c n =
      { s.reported 0#3 0#5 with sign := sg, cls := c, exp := 0#32, dcnt := n, cur := 8#32 }) :
    (s.lead.toNat = 0x00 → exec .decode s = .next (out 1#1 1#2 0#32)) ∧
    (s.lead.toNat = 0x40 → exec .decode s = .next { out 1#1 0#2 1#32 with dig := s.dig.set 0 0#4 }) ∧
    (s.lead.toNat = 0x80 → exec .decode s = .next { out 0#1 0#2 1#32 with dig := s.dig.set 0 0#4 }) ∧
    (s.lead.toNat = 0xC0 → exec .decode s = .next (out 0#1 1#2 0#32)) ∧
    (s.lead.toNat = 0xE0 → exec .decode s = .next (out 0#1 2#2 0#32)) ∧
    (s.lead.toNat ≠ 0x00 → s.lead.toNat ≠ 0x40 → s.lead.toNat ≠ 0x80 → s.lead.toNat ≠ 0xC0 →
      s.lead.toNat ≠ 0xE0 → exec .decode s = .next (s.reported 1#3 2#5)) := by
  simp only [hout]
  refine ⟨exec_decode_oneByte hinv h1 (k := .negInf) rfl, exec_decode_oneByte hinv h1 (k := .negZero) rfl,
    exec_decode_oneByte hinv h1 (k := .posZero) rfl, exec_decode_oneByte hinv h1 (k := .posInf) rfl,
    exec_decode_oneByte hinv h1 (k := .nan) rfl, fun h00 h40 h80 hC0 hE0 => ?_⟩
  exact exec_decode_of_kindk_error
    ((kindk_oneByte hinv h1).trans (kindOfByte_unknownSpecial h00 h40 h80 hC0 hE0))

end DecodeOneByte

/-! ## The obligations of 43_special.md -/

/-- Settles O25: the kind or the fault that the value's registers decide, reported by CLASSV. -/
theorem classvGivesTheKind : Obligations.ClassvGivesTheKind := by
  rintro s - n d rfl rfl
  refine ⟨fun h => exec_classv_of_error (kindv_badClass h), fun h => exec_classv_of_ok (kindv_nan h),
    fun h hs => exec_classv_of_ok (kindv_of_sign_one (kindv_infinite h) hs),
    fun h hs => exec_classv_of_ok (kindv_of_sign_zero (kindv_infinite h) hs),
    fun h => ⟨fun hn => exec_classv_of_error (kindv_badDigitCount h hn), fun h1 hmax => ?_⟩⟩
  exact ⟨fun hb => exec_classv_of_error (kindv_badDigit h h1 hmax hb),
    fun hz hs => exec_classv_of_ok (kindv_of_sign_one (kindv_zero h h1 hmax hz) hs),
    fun hz hs => exec_classv_of_ok (kindv_of_sign_zero (kindv_zero h h1 hmax hz) hs),
    fun hd hz hs => exec_classv_of_ok (kindv_of_sign_one (kindv_finite h h1 hmax hd hz) hs),
    fun hd hz hs => exec_classv_of_ok (kindv_of_sign_zero (kindv_finite h h1 hmax hd hz) hs)⟩

/-- Settles O26, by the length of the key: none, too long, one byte, two or more. -/
theorem classkGivesTheKind : Obligations.ClasskGivesTheKind := by
  rintro s hinv len b rfl rfl
  refine ⟨fun h0 => exec_classk_of_error (kindk_emptyKey h0),
    fun hk => exec_classk_of_error (kindk_keyTooLong hk), fun h1 => ?_, fun h2 hk => ?_⟩
  · have hkind := kindk_oneByte hinv h1
    have hrow : ∀ {k : Kind} {b : Byte}, k.keyByte = some b → s.lead.toNat = b.toNat →
        exec .classk s = .next { s.reported 0#3 0#5 with kind := k.code } :=
      fun hb hlead => exec_classk_of_ok (hkind.trans (kindOfByte_of_toNat hb hlead))
    exact ⟨hrow (k := .negInf) rfl, hrow (k := .negZero) rfl, hrow (k := .posZero) rfl,
      hrow (k := .posInf) rfl, hrow (k := .nan) rfl, fun h00 h40 h80 hC0 hE0 =>
        exec_classk_of_error (hkind.trans (kindOfByte_unknownSpecial h00 h40 h80 hC0 hE0))⟩
  · have hkind := kindk_of_two_le h2 hk
    obtain ⟨hsign, hpad, hexp, hneg, hpos⟩ := kindOfLead_ranges s.lead
    exact ⟨fun h => exec_classk_of_error (hkind.trans (hsign h)),
      fun h => exec_classk_of_error (hkind.trans (hpad h)),
      fun h => exec_classk_of_error (hkind.trans (hexp h)),
      fun h => exec_classk_of_ok (hkind.trans (hneg h)),
      fun h => exec_classk_of_ok (hkind.trans (hpos h))⟩

/-- Settles O27: SPENC writes the byte of the value's kind; the two finite nonzero kinds have none. -/
theorem spencWritesTheByte : Obligations.SpencWritesTheByte := by
  rintro s - n d rfl rfl out hout
  simp only [hout]
  refine ⟨fun h => exec_spenc_of_error (kindv_badClass h), fun h => exec_spenc_of_special rfl (kindv_nan h),
    fun h hs => exec_spenc_of_special rfl (kindv_of_sign_one (kindv_infinite h) hs),
    fun h hs => exec_spenc_of_special rfl (kindv_of_sign_zero (kindv_infinite h) hs),
    fun h => ⟨fun hn => exec_spenc_of_error (kindv_badDigitCount h hn), fun h1 hmax => ?_⟩⟩
  exact ⟨fun hb => exec_spenc_of_error (kindv_badDigit h h1 hmax hb),
    fun hz hs => exec_spenc_of_special rfl (kindv_of_sign_one (kindv_zero h h1 hmax hz) hs),
    fun hz hs => exec_spenc_of_special rfl (kindv_of_sign_zero (kindv_zero h h1 hmax hz) hs),
    fun hd hz => exec_spenc_notSpecial keyByte_finite (kindv_finite h h1 hmax hd hz)⟩

/-- Settles O32: the length's faults, the rows of R168, and the header tests of R188. -/
theorem decodeReadsSpecialKeys : Obligations.DecodeReadsSpecialKeys := by
  rintro s hinv len b rfl rfl out hout
  refine ⟨fun h0 => exec_decode_of_kindk_error (kindk_emptyKey h0),
    fun hk => exec_decode_of_kindk_error (kindk_keyTooLong hk),
    fun h1 => exec_decode_oneByte_rows hinv h1 hout, fun h2 hk => ?_⟩
  have hkind := kindk_of_two_le h2 hk
  obtain ⟨hsign, hpad, hexp, -, -⟩ := kindOfLead_ranges s.lead
  exact ⟨fun h => exec_decode_of_kindk_error (hkind.trans (hsign h)),
    fun h => exec_decode_of_kindk_error (hkind.trans (hpad h)),
    fun h => exec_decode_of_kindk_error (hkind.trans (hexp h))⟩

/-- Settles O28: a one-byte key is read as DECODE reads it; every other length is a fault. -/
theorem spdecReadsTheByte : Obligations.SpdecReadsTheByte := by
  rintro s hinv len b rfl rfl out hout
  refine ⟨exec_spdec_emptyKey, exec_spdec_keyTooLong, exec_spdec_longKey, fun h1 => ?_⟩
  rw [exec_spdec_eq_decode hinv h1]
  exact exec_decode_oneByte_rows hinv h1 hout

end Sys2Proof.Machine
end

section
/-! ENCODE and DECODE between encodable values and canonical keys: what each accepts, what it leaves, and that
they undo each other (44_orchestrator.md). -/

namespace Sys2Proof.Machine

/-- Every operation keeps the invariant and the parameters. -/
theorem exec_command_keepsInv {s t : State} (hinv : BlockInv s) {i : Instr} (hi : i.isCommand = true)
    (ht : exec i s = .next t) : KeepsInv s t := by
  rw [exec_command hi] at ht
  cases ht
  exact finish_keepsInv hinv fun _ => commandResult_keepsInv hinv

/-! ## The kinds of encodable values (10_state.md R22) -/

section Encodable

variable {s : State}

theorem sign_eq_ofBool_negative (s : State) : s.sign = BitVec.ofBool s.negative := by
  rw [State.negative]
  generalize s.sign = sg
  revert sg
  decide

theorem head?_eq_some_zero_iff {d : List Nat} (h : 0 < d.length) : d.head? = some 0 ↔ d.headD 0 = 0 := by
  cases d with
  | nil => simp at h
  | cons x d => simp

theorem exists_ne_zero_of_headD {d : List Nat} (h : d.headD 0 ≠ 0) : ∃ x ∈ d, x ≠ 0 := by
  cases d with
  | nil => exact absurd rfl h
  | cons x d => exact ⟨x, List.mem_cons_self, h⟩

theorem keyByte_if {c : Bool} {k k' : Kind} {b b' : Byte} (h : k.keyByte = some b) (h' : k'.keyByte = some b') :
    ∃ x, (if c then k else k').keyByte = some x := by
  cases c
  · exact ⟨b', h'⟩
  · exact ⟨b, h⟩

theorem EncodableFinite.kindv (h : EncodableFinite s) :
    kindv s = .ok (if s.negative then .negFinite else .posFinite) :=
  kindv_finite h.cls h.count.1 h.count.2 h.digits (exists_ne_zero_of_headD h.lead)

theorem EncodableZero.kindv (h : EncodableZero s) :
    kindv s = .ok (if s.negative then .negZero else .posZero) :=
  kindv_zero h.cls h.count.1 h.count.2 h.zero

/-- An encodable value has a one-byte key or is finite nonzero. -/
theorem Encodable.cases (h : Encodable s) :
    (∃ k b, kindv s = .ok k ∧ k.keyByte = some b) ∨ EncodableFinite s := by
  rcases h with h | h | h | h
  · obtain ⟨b, hb⟩ := keyByte_if (c := s.negative) (k := .negInf) (k' := .posInf) rfl rfl
    exact .inl ⟨_, b, kindv_infinite h, hb⟩
  · exact .inl ⟨_, _, kindv_nan h, rfl⟩
  · obtain ⟨b, hb⟩ := keyByte_if (c := s.negative) (k := .negZero) (k' := .posZero) rfl rfl
    exact .inl ⟨_, b, h.kindv, hb⟩
  · exact .inr h

theorem encodable_of_special {k : Kind} {b : Byte} (h : kindv s = .ok k) (hb : k.keyByte = some b) :
    Encodable s := by
  rcases special_of_kindv h hb with ⟨hc, -⟩ | ⟨hc, -⟩ | ⟨hc, h1, hmax, hz, -⟩
  · exact .inr (.inl hc)
  · exact .inl hc
  · exact .inr (.inr (.inl ⟨hc, ⟨h1, hmax⟩, hz⟩))

/-- A value with a one-byte key is no finite nonzero one. -/
theorem EncodableFinite.not_special (h : EncodableFinite s) {k : Kind} {b : Byte} (hk : Machine.kindv s = .ok k)
    (hb : k.keyByte = some b) : False := by
  have hnone := keyByte_finite (s := s)
  rw [h.kindv] at hk
  cases hk
  rw [hnone] at hb
  cases hb

end Encodable

/-! ## ENCODE by the kind of its value (R180) -/

section Encode

variable {s : State}

theorem exec_encode : exec .encode s = .next (finish s (encodeOp s)) := rfl

theorem exec_encode_of_special {k : Kind} {b : Byte} (hb : k.keyByte = some b) (h : kindv s = .ok k) :
    exec .encode s = .next ((encodeSpecial b s).reported 0#3 0#5) := by
  rw [exec_encode]
  simp only [encodeOp, h, hb, finish_ok]

theorem exec_encode_of_finite {k : Kind} (hb : k.keyByte = none) (h : kindv s = .ok k) :
    exec .encode s = .next (finish s (encodeFinite s)) := by
  rw [exec_encode]
  simp only [encodeOp, h, hb]

theorem encodeFinite_leadingZero (h : s.coefficient.headD 0 = 0) : encodeFinite s = .error .leadingZero := by
  simp only [encodeFinite, if_pos h]

theorem encodeFinite_exponentOutOfRange (h0 : s.coefficient.headD 0 ≠ 0)
    (hr : s.params.elim < s.adjExp.natAbs) : encodeFinite s = .error .exponentOutOfRange := by
  simp only [encodeFinite, if_neg h0, if_pos hr]

theorem encodeFinite_trailingZeroGroup (h0 : s.coefficient.headD 0 ≠ 0) (hr : s.adjExp.natAbs ≤ s.params.elim)
    (hl : lastGroupZero (pad s.coefficient) = true) : encodeFinite s = .error .trailingZeroGroup := by
  simp only [encodeFinite, if_neg h0, if_neg (Nat.not_lt.mpr hr), hl]
  rfl

/-- What ENCODE leaves of a finite nonzero value. -/
def encodedValue (s : State) : State :=
  (encodedFinite s (keyfinite s.params s.negative (pad s.coefficient) s.adjExp)).reported 0#3 0#5

/-- What ENCODE changes (R180): the key and its length, CUR, EMAG, TBIT, NBITS and the hidden SCR. -/
theorem encodedValue_eq : encodedValue s = { s.reported 0#3 0#5 with
    kbuf := (encodedValue s).kbuf
    klen := (encodedValue s).klen
    cur := (encodedValue s).cur
    emag := BitVec.ofNat 32 s.adjExp.natAbs
    tbit := BitVec.ofBool (signIndicator s.negative s.adjExp)
    nbits := BitVec.ofNat 6 (expN s.adjExp.natAbs)
    scr := (encodedValue s).scr } := rfl

theorem exec_encode_of_encodableFinite (h : EncodableFinite s) :
    exec .encode s = .next (encodedValue s) := by
  rw [exec_encode_of_finite keyByte_finite h.kindv]
  rcases encodeFinite_cases s with ⟨h0, -⟩ | ⟨-, hr, -⟩ | ⟨-, -, hl, -⟩ | ⟨-, -, -, e⟩
  · exact absurd h0 h.lead
  · exact absurd h.range (by omega)
  · rw [h.last] at hl
    cases hl
  · rw [e, finish_ok, encodedValue]

/-- ENCODE's work succeeds on nothing but encodable values (R180). -/
theorem encodable_of_encodeOp {u : State} (h : encodeOp s = .ok u) : Encodable s := by
  rcases encodeOp_cases s with ⟨d, -, e⟩ | ⟨k, b, hk, hb, -⟩ | ⟨k, hk, hb, e⟩
  · rw [h] at e
    cases e
  · exact encodable_of_special hk hb
  · rw [h] at e
    obtain ⟨hc, h1, hmax, hd, -⟩ := finite_of_kindv hk hb
    rcases encodeFinite_cases s with ⟨-, e'⟩ | ⟨-, -, e'⟩ | ⟨-, -, -, e'⟩ | ⟨hlead, hr, hl, -⟩
    iterate 3
      rw [← e] at e'
      cases e'
    exact .inr (.inr (.inr ⟨hc, ⟨h1, hmax⟩, hd, hlead, hr, hl⟩))

theorem exec_encode_of_encodable (h : Encodable s) : ∃ t, exec .encode s = .next t ∧ t.status = 0#3 := by
  rcases h.cases with ⟨k, b, hk, hb⟩ | hf
  · exact ⟨_, exec_encode_of_special hb hk, rfl⟩
  · exact ⟨_, exec_encode_of_encodableFinite hf, rfl⟩

theorem BlockInv.pad_canonical (hinv : BlockInv s) (h : EncodableFinite s) :
    Canonical s.params (pad s.coefficient) := by
  have hl := coefficient_length hinv h.count.2
  exact canonical_pad hinv.params (by rw [hl]; exact h.count.1) (by rw [hl]; exact h.count.2) h.digits h.lead h.last

/-- The bytes ENCODE leaves in KBUF (R183, 30_encoding.md R72, R78): the key's bits and fewer than eight zeros, then
what was there. -/
theorem encodedValue_stream (hinv : BlockInv s) (he : s.adjExp.natAbs ≤ s.params.elim) :
    ∃ len tail, tail ≤ 7 ∧ len ≤ s.params.kmax ∧
      (keyBits s.negative (pad s.coefficient) s.adjExp).length + tail = 8 * len ∧
      (encodedValue s).klen = BitVec.ofNat 32 len ∧
      (encodedValue s).cur = BitVec.ofNat 32 (keyBits s.negative (pad s.coefficient) s.adjExp).length ∧
      (encodedValue s).kbuf.length = s.kbuf.length ∧
      readBits (encodedValue s).kbuf 0 (8 * len) =
        keyBits s.negative (pad s.coefficient) s.adjExp ++ List.replicate tail false ∧
      ∀ i, len ≤ i → (encodedValue s).kbuf.getD i 0#8 = s.kbuf.getD i 0#8 := by
  obtain ⟨-, hkbuf, -⟩ := wf_iff.mp hinv.memory
  obtain ⟨hk, hoff, hlen, hmax, hbits⟩ :=
    keyfinite_spec (keyBits_le_kmax hinv.params (neg := s.negative) (pad_coefficient_length_le hinv) he)
  generalize hst : keyfinite s.params s.negative (pad s.coefficient) s.adjExp = st at *
  have htake : (st.k.take st.len).length = st.len := by rw [List.length_take]; omega
  have hkey : (encodedValue s).kbuf = overlay (st.k.take st.len) s.kbuf := by
    rw [encodedValue, hst]
    rfl
  refine ⟨st.len, 8 * st.len - (keyBits s.negative (pad s.coefficient) s.adjExp).length, by omega, hmax, by omega,
    by rw [encodedValue, hst]; rfl, by rw [encodedValue, hst, ← hoff]; rfl, ?_, ?_, fun i hi => ?_⟩
  · rw [hkey, overlay_length (by omega)]
  · have := readBits_overlay (new := st.k.take st.len) (old := s.kbuf)
    rw [htake, readBits_take, hbits] at this
    rw [hkey, this]
  · rw [hkey, overlay_getD_ge _ (by omega)]

end Encode

/-! ## Canonical keys as bytes (R198) -/

/-- The bytes are the bits of R72 and fewer than eight zeros. -/
def FiniteKey (key : List Byte) (neg : Bool) (d : List Nat) (adj : Int) : Prop :=
  ∃ tail, tail ≤ 7 ∧ (keyBits neg d adj).length + tail = 8 * key.length ∧
    readBits key 0 (8 * key.length) = keyBits neg d adj ++ List.replicate tail false

/-- The fields of a key determine its bytes. -/
theorem FiniteKey.unique {k k' : List Byte} {neg : Bool} {d : List Nat} {adj : Int}
    (h : FiniteKey k neg d adj) (h' : FiniteKey k' neg d adj) : k = k' := by
  obtain ⟨tail, ht, hl, hb⟩ := h
  obtain ⟨tail', ht', hl', hb'⟩ := h'
  have hlen : k.length = k'.length := by omega
  obtain rfl : tail = tail' := by omega
  refine bytes_eq_of_readBits hlen ?_
  rw [hb, hlen, hb']

section Key

variable {s : State} (hinv : BlockInv s)

include hinv

theorem key_length (hk : s.klen.toNat ≤ s.params.kmax) : s.key.length = s.klen.toNat := by
  obtain ⟨-, hkbuf, -⟩ := wf_iff.mp hinv.memory
  rw [State.key, List.length_take]
  omega

theorem finiteKey_iff (hk : s.klen.toNat ≤ s.params.kmax) {neg : Bool} {d : List Nat} {adj : Int} :
    FiniteKey s.key neg d adj ↔ ∃ tail, tail ≤ 7 ∧ (keyBits neg d adj).length + tail = 8 * s.klen.toNat ∧
      readBits s.kbuf 0 (8 * s.klen.toNat) = keyBits neg d adj ++ List.replicate tail false := by
  rw [FiniteKey, key_length hinv hk, State.key, readBits_take]

/-- A key of one byte, in the registers. -/
theorem key_eq_singleton_iff {b : Byte} : s.key = [b] ↔ s.klen.toNat = 1 ∧ s.lead = b := by
  obtain ⟨-, hkbuf, -⟩ := wf_iff.mp hinv.memory
  have hmax := kmax_ge hinv.params
  rw [State.key, State.lead]
  rcases hk : s.kbuf with _ | ⟨x, kb⟩
  · rw [hk, List.length_nil] at hkbuf
    omega
  constructor
  · intro h
    have hlen := congrArg List.length h
    rw [hk, List.length_cons] at hkbuf
    rw [List.length_take, List.length_cons, List.length_singleton] at hlen
    have h1 : s.klen.toNat = 1 := by omega
    rw [h1] at h
    exact ⟨h1, by simpa using h⟩
  · rintro ⟨h1, rfl⟩
    rw [h1]
    rfl

theorem key_encodeSpecial (b : Byte) : ((encodeSpecial b s).reported 0#3 0#5).key = [b] := by
  obtain ⟨-, hkbuf, -⟩ := wf_iff.mp hinv.memory
  have hmax := kmax_ge hinv.params
  change (s.kbuf.set 0 b).take 1 = [b]
  cases hk : s.kbuf with
  | nil =>
    rw [hk, List.length_nil] at hkbuf
    omega
  | cons x kb => rfl

theorem encodedValue_klen_le (h : EncodableFinite s) : (encodedValue s).klen.toNat ≤ s.params.kmax := by
  obtain ⟨len, -, -, hmax, -, hlen, -⟩ := encodedValue_stream hinv h.range
  rw [hlen, BitVec.toNat_ofNat]
  exact Nat.le_trans (Nat.mod_le _ _) hmax

theorem finiteKey_encodedValue (h : EncodableFinite s) :
    FiniteKey (encodedValue s).key s.negative (pad s.coefficient) s.adjExp := by
  obtain ⟨len, tail, ht, hmax, hl, hlen, -, -, hbits, -⟩ := encodedValue_stream hinv h.range
  have hle := kmax_le hinv.params
  have hn : (encodedValue s).klen.toNat = len := by rw [hlen, BitVec.toNat_ofNat]; omega
  obtain ⟨hinv', -⟩ := exec_command_keepsInv hinv rfl (exec_encode_of_encodableFinite h)
  rw [finiteKey_iff hinv' (encodedValue_klen_le hinv h), hn]
  exact ⟨tail, ht, hl, hbits⟩

end Key

/-- WHAT ENCODE MAKES OF AN ENCODABLE VALUE (R180), by the bytes of the key. -/
def HasKey (s : State) (key : List Byte) : Prop :=
  (∃ k b, kindv s = .ok k ∧ k.keyByte = some b ∧ key = [b]) ∨
  (EncodableFinite s ∧ FiniteKey key s.negative (pad s.coefficient) s.adjExp)

theorem exec_encode_hasKey {s t : State} (hinv : BlockInv s) (henc : Encodable s)
    (ht : exec .encode s = .next t) : HasKey s t.key := by
  rcases henc.cases with ⟨k, b, hk, hb⟩ | hf
  · rw [exec_encode_of_special hb hk] at ht
    cases ht
    exact .inl ⟨k, b, hk, hb, key_encodeSpecial hinv b⟩
  · rw [exec_encode_of_encodableFinite hf] at ht
    cases ht
    exact .inr ⟨hf, finiteKey_encodedValue hinv hf⟩

/-! ## DECODE by its key (R186) -/

section Decode

variable {s : State}

theorem exec_decode : exec .decode s = .next (finish s (decodeOp s)) := rfl

/-- What DECODE leaves of a finite key. -/
def decodedValue (s : State) (neg : Bool) (d : List Nat) (adj : Int) : State :=
  (decodedFinite s neg (signIndicator neg adj)
    { e := adj.natAbs, n := expN adj.natAbs, off := 4 + (2 * expN adj.natAbs - 2) }
    { digits := d, off := 8 * s.klen.toNat }).reported 0#3 0#5

section Components

variable {neg : Bool} {k : List Byte} {f : ExpResult}

theorem decodeFinite_of_expdec_error {d : Detail}
    (he : expdec s.params k s.klen.toNat 4 (getbit k 3) = .error d) : decodeFinite neg k s = .error d := by
  simp only [decodeFinite, he]

theorem decodeFinite_of_sigdec_error {d : Detail}
    (he : expdec s.params k s.klen.toNat 4 (getbit k 3) = .ok f)
    (hs : sigdec s.params k s.klen.toNat f.off neg = .error d) : decodeFinite neg k s = .error d := by
  simp only [decodeFinite, he, hs]

theorem decodeFinite_of_ok {c : SigResult} (he : expdec s.params k s.klen.toNat 4 (getbit k 3) = .ok f)
    (hs : sigdec s.params k s.klen.toNat f.off neg = .ok c) :
    decodeFinite neg k s = .ok (decodedFinite s neg (getbit k 3) f c) := by
  simp only [decodeFinite, he, hs]
  rfl

end Components

/-- The decoders' faults are InvalidEncoding (60_exceptions.md R211). -/
theorem expdec_error_status {p : Params} {k : List Byte} {len off : Nat} {t : Bool} {d : Detail}
    (h : expdec p k len off t = .error d) : d.status = .invalidEncoding := by
  rcases expdec_error h with rfl | rfl | rfl <;> rfl

theorem sigdec_error_status {p : Params} {k : List Byte} {len off : Nat} {neg : Bool} {d : Detail}
    (h : sigdec p k len off neg = .error d) : d.status = .invalidEncoding := by
  rcases sigdec_error h with rfl | rfl | rfl | rfl | rfl | rfl <;> rfl

/-- A finite key's first byte has the finite kind of its sign (43_special.md R167). -/
theorem kindk_of_finiteKey_bits {neg : Bool} {d : List Nat} {adj : Int} {tail : Nat}
    (hk : s.klen.toNat ≤ s.params.kmax) (hd : Canonical s.params d)
    (hl : (keyBits neg d adj).length + tail = 8 * s.klen.toNat)
    (h : readBits s.kbuf 0 (8 * s.klen.toNat) = keyBits neg d adj ++ List.replicate tail false) :
    kindk s = .ok (if neg then .negFinite else .posFinite) := by
  have h3 := hd.groups
  have h0 := hd.nonempty
  have hN := expN_ge adj.natAbs
  rw [keyBits_length] at hl
  exact kindk_of_keyBits (by omega) hk h

theorem exec_decode_of_finiteKey (hinv : BlockInv s) (hk : s.klen.toNat ≤ s.params.kmax) {neg : Bool} {d : List Nat}
    {adj : Int} (hd : Canonical s.params d) (ha : adj.natAbs ≤ s.params.elim) (h : FiniteKey s.key neg d adj) :
    exec .decode s = .next (decodedValue s neg d adj) := by
  obtain ⟨tail, ht, hl, hb⟩ := (finiteKey_iff hinv hk).mp h
  rw [exec_decode_of_finite (kindk_of_finiteKey_bits hk hd hl hb),
    decodeFinite_of_keyBits hinv.params hd ha ht hl hb, finish_ok, decodedValue]

theorem exec_decode_of_specialKey (hinv : BlockInv s) {k : Kind} {b : Byte} (hb : k.keyByte = some b)
    (h : s.key = [b]) : exec .decode s = .next (specialKey k s) := by
  obtain ⟨h1, hlead⟩ := (key_eq_singleton_iff hinv).mp h
  exact exec_decode_oneByte hinv h1 hb (by rw [hlead])

/-- Only the one byte of a kind classifies as a kind that has one (30_encoding.md R71). -/
theorem key_of_kindk_special (hinv : BlockInv s) {k : Kind} {b : Byte} (h : kindk s = .ok k)
    (hb : k.keyByte = some b) : s.key = [b] := by
  rcases kindk_cases s with ⟨-, e⟩ | ⟨-, -, e⟩ | ⟨h1, -, e⟩ | ⟨-, -, e⟩ <;> rw [h] at e
  · cases e
  · cases e
  · have hbyte := (keyByte_kindOfByte _ _).mpr e.symm
    rw [hb] at hbyte
    cases hbyte
    exact (key_eq_singleton_iff hinv).mpr ⟨h1, rfl⟩
  · rcases kindOfLead_cases s.lead with ⟨-, f⟩ | ⟨-, f⟩ | ⟨-, f⟩ | ⟨-, f⟩ | ⟨-, f⟩ <;>
      rw [f] at e <;> cases e <;> cases hb

/-- Only a longer key that passes the header tests classifies as finite (43_special.md R167). -/
theorem lead_of_kindk_finite {neg : Bool} (h : kindk s = .ok (if neg then .negFinite else .posFinite)) :
    s.klen.toNat ≤ s.params.kmax ∧ kindOfLead s.lead = .ok (if neg then .negFinite else .posFinite) := by
  rcases kindk_cases s with ⟨-, e⟩ | ⟨-, -, e⟩ | ⟨-, -, e⟩ | ⟨-, hk, e⟩ <;> rw [h] at e
  · cases e
  · cases e
  · have hbyte := (keyByte_kindOfByte _ _).mpr e.symm
    cases neg <;> cases hbyte
  · exact ⟨hk, e.symm⟩

theorem finiteKey_of_decodeFinite (hinv : BlockInv s) {neg : Bool} {u : State}
    (hkind : kindk s = .ok (if neg then .negFinite else .posFinite)) (hu : decodeFinite neg s.kbuf s = .ok u) :
    ∃ d adj, Canonical s.params d ∧ adj.natAbs ≤ s.params.elim ∧ FiniteKey s.key neg d adj ∧
      u.reported 0#3 0#5 = decodedValue s neg d adj := by
  obtain ⟨hk, hlead⟩ := lead_of_kindk_finite hkind
  obtain ⟨d, adj, tail, hd, ha, ht, hl, hb, rfl⟩ := keyBits_of_decodeFinite hinv.params hlead hu
  exact ⟨d, adj, hd, ha, (finiteKey_iff hinv hk).mpr ⟨tail, ht, hl, hb⟩, rfl⟩

/-- DECODE SAID BACKWARDS (R198): it succeeds on nothing but the one-byte keys of R71 and the finite keys of canonical
coefficients and exponents within ELIM. -/
theorem exec_decode_ok (hinv : BlockInv s) {t : State} (ht : exec .decode s = .next t) (hok : t.status = 0#3) :
    (∃ k b, k.keyByte = some b ∧ s.key = [b] ∧ t = specialKey k s) ∨
    (∃ neg d adj, Canonical s.params d ∧ adj.natAbs ≤ s.params.elim ∧ FiniteKey s.key neg d adj ∧
      t = decodedValue s neg d adj) := by
  rw [exec_decode] at ht
  cases ht
  obtain ⟨u, hu, e⟩ := finish_ok_of_status hok
  rw [e]
  rcases decodeOp_cases s with ⟨d, -, e⟩ | ⟨k, b, hk, hb, e⟩ | ⟨hk, e⟩ | ⟨hk, e⟩ <;> rw [hu] at e
  · cases e
  · cases e
    exact .inl ⟨k, b, hb, key_of_kindk_special hinv hk hb, rfl⟩
  · exact .inr ⟨true, finiteKey_of_decodeFinite hinv hk e.symm⟩
  · exact .inr ⟨false, finiteKey_of_decodeFinite hinv hk e.symm⟩

end Decode

/-! ## Finite values read back (44_orchestrator.md R189) -/

/-- Every exponent of a finite key fits EXP (00_scope.md R9). -/
theorem toInt_ofInt_exponent {p : Params} (hp : p.valid = true) {n : Nat} {adj : Int} (h1 : 1 ≤ n) (hn : n ≤ p.dmax)
    (ha : adj.natAbs ≤ p.elim) : (BitVec.ofInt 32 (adj - n + 1)).toInt = adj - n + 1 := by
  obtain ⟨-, -, -, -, -, -, hsum⟩ := valid_iff.mp hp
  rw [BitVec.toInt_ofInt]
  apply Int.bmod_eq_of_le <;> omega

section DecodedValue

variable {s : State} {neg : Bool} {d : List Nat} {adj : Int} (hinv : BlockInv s) (hd : Canonical s.params d)
  (ha : adj.natAbs ≤ s.params.elim)

theorem decodedValue_negative : (decodedValue s neg d adj).negative = neg := by
  cases neg <;> rfl

include hinv hd

theorem decodedValue_dcnt : (decodedValue s neg d adj).dcnt.toNat = d.length := by
  obtain ⟨-, -, hmax, -⟩ := valid_iff.mp hinv.params
  have hsize := hd.size
  change (BitVec.ofNat 32 d.length).toNat = _
  rw [BitVec.toNat_ofNat]
  omega

theorem decodedValue_coefficient : (decodedValue s neg d adj).coefficient = d := by
  rw [State.coefficient, State.digits, decodedValue_dcnt hinv hd]
  exact digits_overlay hd.digits s.dig

theorem pad_decodedValue_coefficient : pad (decodedValue s neg d adj).coefficient = d := by
  rw [decodedValue_coefficient hinv hd, pad_eq_self hd.groups]

include ha

theorem decodedValue_exp : (decodedValue s neg d adj).exp.toInt = adj - d.length + 1 := by
  have h : (decodedValue s neg d adj).exp =
      BitVec.ofInt 32 (adjExpOf neg (signIndicator neg adj) adj.natAbs - d.length + 1) := rfl
  rw [h, adjExpOf_signIndicator, toInt_ofInt_exponent hinv.params hd.nonempty hd.size ha]

theorem decodedValue_adjExp : (decodedValue s neg d adj).adjExp = adj := by
  rw [State.adjExp, decodedValue_exp hinv hd ha, decodedValue_dcnt hinv hd]
  omega

theorem decodedValue_encodable : EncodableFinite (decodedValue s neg d adj) := by
  have hc := decodedValue_coefficient hinv hd (neg := neg) (adj := adj)
  refine ⟨rfl, ?_, ?_, ?_, ?_, ?_⟩
  · rw [decodedValue_dcnt hinv hd]
    exact ⟨hd.nonempty, hd.size⟩
  · rw [hc]
    exact hd.digits
  · rw [hc]
    exact hd.lead
  · rw [decodedValue_adjExp hinv hd ha]
    exact ha
  · rw [pad_decodedValue_coefficient hinv hd]
    exact hd.last

end DecodedValue

/-! ## Special values read back (43_special.md R168) -/

section SpecialValue

variable {s : State} (hinv : BlockInv s)

include hinv

/-- The coefficient of a decoded zero is the one digit 0. -/
theorem coefficient_specialKey_zero {k : Kind} (hk : k = .negZero ∨ k = .posZero) :
    (specialKey k s).coefficient = [0] := by
  obtain ⟨hdmax, -⟩ := valid_iff.mp hinv.params
  obtain ⟨hdig, -, -⟩ := wf_iff.mp hinv.memory
  have hset : ((s.dig.set 0 0#4).take 1).map (·.toNat) = [0] := by
    cases h : s.dig with
    | nil =>
      rw [h, List.length_nil] at hdig
      omega
    | cons x dig => rfl
  rcases hk with rfl | rfl <;> exact hset

theorem encodableZero_specialKey {k : Kind} (hk : k = .negZero ∨ k = .posZero) :
    EncodableZero (specialKey k s) := by
  obtain ⟨hdmax, -⟩ := valid_iff.mp hinv.params
  have hzero : ∀ x ∈ (specialKey k s).coefficient, x = 0 := by
    rw [coefficient_specialKey_zero hinv hk]
    simp
  rcases hk with rfl | rfl <;> exact ⟨rfl, ⟨Nat.le_refl 1, hdmax⟩, hzero⟩

/-- What a one-byte key decodes to has the key's kind. -/
theorem kindv_specialKey {k : Kind} {b : Byte} (hb : k.keyByte = some b) : kindv (specialKey k s) = .ok k := by
  cases k with
  | negInf => exact kindv_of_sign_one (kindv_infinite rfl) rfl
  | posInf => exact kindv_of_sign_zero (kindv_infinite rfl) rfl
  | nan => exact kindv_nan rfl
  | negZero => exact kindv_of_sign_one (encodableZero_specialKey hinv (.inl rfl)).kindv rfl
  | posZero => exact kindv_of_sign_zero (encodableZero_specialKey hinv (.inr rfl)).kindv rfl
  | negFinite => cases hb
  | posFinite => cases hb

/-- SPECIAL VALUES THERE AND BACK (44_orchestrator.md R197): the class and, but for a NaN, the sign come back; a zero
comes back with one digit and exponent 0. -/
theorem exec_decode_encodeSpecial {k : Kind} {b : Byte} (hk : kindv s = .ok k) (hb : k.keyByte = some b) :
    ∃ t u, exec .encode s = .next t ∧ t.status = 0#3 ∧ t.key = [b] ∧ exec .decode t = .next u ∧ u.status = 0#3 ∧
      u.cls = s.cls ∧ u.sign = (if s.cls = 2#2 then 0#1 else s.sign) ∧
      (s.cls = 0#2 → u.coefficient = [0] ∧ u.exp = 0#32) := by
  have ht := exec_encode_of_special hb hk
  obtain ⟨hinv', -⟩ := exec_command_keepsInv hinv rfl ht
  have hkey := key_encodeSpecial hinv b
  refine ⟨_, _, ht, rfl, hkey, exec_decode_of_specialKey hinv' hb hkey, rfl, ?_⟩
  rcases special_of_kindv hk hb with ⟨hc, rfl⟩ | ⟨hc, rfl⟩ | ⟨hc, -, -, -, rfl⟩ <;> rw [hc]
  · exact ⟨rfl, rfl, nofun⟩
  · rw [sign_eq_ofBool_negative s]
    cases s.negative <;> exact ⟨rfl, rfl, nofun⟩
  · rw [sign_eq_ofBool_negative s]
    cases s.negative
    · exact ⟨rfl, rfl, fun _ => ⟨coefficient_specialKey_zero hinv' (.inr rfl), rfl⟩⟩
    · exact ⟨rfl, rfl, fun _ => ⟨coefficient_specialKey_zero hinv' (.inl rfl), rfl⟩⟩

end SpecialValue

/-! ## The numeric value of digits at an adjusted exponent (10_state.md R20) -/

/-- The number whose digits are `d`, its first digit worth `10^adj`. -/
def scaled (d : List Nat) (adj : Int) : ℚ := (digitsValue d : ℚ) * (10 : ℚ) ^ (adj - d.length + 1)

/-- Zero digits after the coefficient keep the value at one adjusted exponent. -/
theorem scaled_append_zeros (d : List Nat) (n : Nat) (adj : Int) :
    scaled (d ++ List.replicate n 0) adj = scaled d adj := by
  have hexp : (10 : ℚ) ^ (adj - d.length + 1) = 10 ^ n * (10 : ℚ) ^ (adj - (d.length + n : Nat) + 1) := by
    rw [← zpow_natCast, ← zpow_add₀ (by norm_num)]
    congr 1
    omega
  rw [scaled, scaled, digitsValue_append, digitsValue_replicate_zero, List.length_append, List.length_replicate, hexp]
  push_cast
  ring

theorem scaled_pad (d : List Nat) (adj : Int) : scaled (pad d) adj = scaled d adj := scaled_append_zeros _ _ _

theorem numeric_eq_scaled {s : State} (hinv : BlockInv s) (hmax : s.dcnt.toNat ≤ s.params.dmax) :
    s.numeric = (if s.negative then -1 else 1) * scaled s.coefficient s.adjExp := by
  have hexp : s.adjExp - s.coefficient.length + 1 = s.exp.toInt := by
    rw [State.adjExp, coefficient_length hinv hmax]
    omega
  rw [State.numeric, scaled, hexp, mul_assoc]

/-- FINITE VALUES THERE AND BACK (44_orchestrator.md R195): the sign comes back, the coefficient padded, the exponent
lowered by the padding, the numeric value unchanged. -/
theorem exec_decode_encodedValue {s : State} (hinv : BlockInv s) (hf : EncodableFinite s) :
    ∃ u, exec .decode (encodedValue s) = .next u ∧ u.status = 0#3 ∧ u.cls = 0#2 ∧ u.sign = s.sign ∧
      u.coefficient = pad s.coefficient ∧
      u.exp.toInt = s.exp.toInt - ((padlen s.dcnt.toNat : Int) - s.dcnt.toNat) ∧ u.numeric = s.numeric := by
  obtain ⟨hinvt, -⟩ := exec_command_keepsInv hinv rfl (exec_encode_of_encodableFinite hf)
  have hd : Canonical (encodedValue s).params (pad s.coefficient) := hinv.pad_canonical hf
  have ha : s.adjExp.natAbs ≤ (encodedValue s).params.elim := hf.range
  have hu := exec_decode_of_finiteKey hinvt (encodedValue_klen_le hinv hf) hd ha (finiteKey_encodedValue hinv hf)
  obtain ⟨hinvu, -⟩ := exec_command_keepsInv hinvt rfl hu
  have hv := decodedValue_encodable hinvt hd ha (neg := s.negative)
  have hcoef := decodedValue_coefficient hinvt hd (neg := s.negative) (adj := s.adjExp)
  refine ⟨_, hu, rfl, rfl, (sign_eq_ofBool_negative s).symm, hcoef, ?_, ?_⟩
  · rw [decodedValue_exp hinvt hd ha, pad_length, coefficient_length hinv hf.count.2, State.adjExp]
    omega
  · rw [numeric_eq_scaled hinvu hv.count.2, numeric_eq_scaled hinv hf.count.2, decodedValue_negative, hcoef,
      decodedValue_adjExp hinvt hd ha, scaled_pad]

/-! ## The obligations of 44_orchestrator.md on round trips, domains and results -/

/-- Settles O47: a special value goes through its one byte, a finite one through the bits of its key. -/
theorem decodeUndoesEncode : Obligations.DecodeUndoesEncode := by
  intro s hinv henc
  rcases henc.cases with ⟨k, b, hk, hb⟩ | hf
  · obtain ⟨t, u, ht, htok, -, hu, huok, hcls, hsign, hzero⟩ := exec_decode_encodeSpecial hinv hk hb
    refine ⟨t, u, ht, htok, hu, huok, fun h => ?_, fun h => ?_, fun h => ?_, fun h => (h.not_special hk hb).elim⟩
    · rw [hcls, hsign, h]
      exact ⟨rfl, rfl⟩
    · rw [hcls, hsign, h]
      exact ⟨rfl, rfl⟩
    · rw [hcls, hsign, h.cls]
      exact ⟨rfl, rfl, hzero h.cls⟩
  · obtain ⟨u, hu, huok, hcls, hsign, hcoef, hexp, hnum⟩ := exec_decode_encodedValue hinv hf
    refine ⟨_, u, exec_encode_of_encodableFinite hf, rfl, hu, huok, fun h => ?_, fun h => ?_, fun h => ?_, fun _ =>
      ⟨hcls, hsign, hcoef, hexp, hnum⟩⟩
    · rw [hf.cls] at h
      cases h
    · rw [hf.cls] at h
      cases h
    · exact absurd h.zero (not_forall_zero (exists_ne_zero_of_headD hf.lead))

/-- Settles O49: what DECODE gives has the kind, or the fields, of the key it was given, and these determine the
bytes. -/
theorem encodeUndoesDecode : Obligations.EncodeUndoesDecode := by
  intro s t hinv ht hok
  obtain ⟨hinv', -⟩ := exec_command_keepsInv hinv rfl ht
  rcases exec_decode_ok hinv ht hok with ⟨k, b, hb, hkey, rfl⟩ | ⟨neg, d, adj, hd, ha, hkey, rfl⟩
  · have hkind := kindv_specialKey hinv hb
    refine ⟨encodable_of_special hkind hb, _, exec_encode_of_special hb hkind, rfl, ?_⟩
    rw [key_encodeSpecial hinv', hkey]
  · have hf := decodedValue_encodable hinv hd ha (neg := neg)
    have hkey' := finiteKey_encodedValue hinv' hf
    rw [decodedValue_negative, pad_decodedValue_coefficient hinv hd, decodedValue_adjExp hinv hd ha] at hkey'
    exact ⟨.inr (.inr (.inr hf)), _, exec_encode_of_encodableFinite hf, rfl, hkey'.unique hkey⟩

/-- Settles O50: an accepted key is encoded again from what it decodes to; the key of an encodable value is one that
DECODE accepts, wherever it stands. -/
theorem decodeAcceptsExactlyCanonicalKeys : Obligations.DecodeAcceptsExactlyCanonicalKeys := by
  intro s hinv _ hk
  constructor
  · rintro ⟨t, ht, hok⟩
    obtain ⟨hinv', hp⟩ := exec_command_keepsInv hinv rfl ht
    obtain ⟨henc, u, hu, huok, hkey⟩ := encodeUndoesDecode s t hinv ht hok
    exact ⟨t, u, hinv', hp, henc, hu, huok, hkey⟩
  · rintro ⟨v, w, hv, hp, henc, hw, -, hkey⟩
    rcases exec_encode_hasKey hv henc hw with ⟨k, b, -, hb, hwkey⟩ | ⟨hf, hwkey⟩ <;> rw [hkey] at hwkey
    · exact ⟨_, exec_decode_of_specialKey hinv hb hwkey, rfl⟩
    · have hd := hv.pad_canonical hf
      have ha := hf.range
      rw [hp] at hd ha
      exact ⟨_, exec_decode_of_finiteKey hinv hk hd ha hwkey, rfl⟩

/-- Settles O29: the classifier's fault, or the byte of the kind. -/
theorem encodeWritesSpecialKeys : Obligations.EncodeWritesSpecialKeys := by
  rintro s - n d rfl rfl out hout
  simp only [hout]
  refine ⟨fun h => exec_encode_of_kindv_error (kindv_badClass h), fun h => exec_encode_of_special rfl (kindv_nan h),
    fun h hs => exec_encode_of_special rfl (kindv_of_sign_one (kindv_infinite h) hs),
    fun h hs => exec_encode_of_special rfl (kindv_of_sign_zero (kindv_infinite h) hs),
    fun h => ⟨fun hn => exec_encode_of_kindv_error (kindv_badDigitCount h hn), fun h1 hmax => ?_⟩⟩
  exact ⟨fun hb => exec_encode_of_kindv_error (kindv_badDigit h h1 hmax hb),
    fun hz hs => exec_encode_of_special rfl (kindv_of_sign_one (kindv_zero h h1 hmax hz) hs),
    fun hz hs => exec_encode_of_special rfl (kindv_of_sign_zero (kindv_zero h h1 hmax hz) hs)⟩

/-- Settles O30: each branch of ENCODE's finite path; on the last the key is the packed stream laid over KBUF. -/
theorem encodeWritesFiniteKeys : Obligations.EncodeWritesFiniteKeys := by
  intro s hinv n d neg adj hn hd hneg hadj hc h1 hmax hdig hz
  obtain rfl : n = s.dcnt.toNat := hn
  obtain rfl : d = s.coefficient := hd
  obtain rfl : neg = s.negative := hneg
  obtain rfl : adj = s.adjExp := hadj
  have hexec := exec_encode_of_finite keyByte_finite (kindv_finite hc h1 hmax hdig hz)
  simp only [ne_eq, head?_eq_some_zero_iff (show 0 < s.coefficient.length by
    rw [coefficient_length hinv hmax]; exact h1)]
  refine ⟨fun h0 hr hl => ?_, fun h0 => ?_, fun h0 hr => ?_, fun h0 hr hl => ?_⟩
  · have hf : EncodableFinite s := ⟨hc, ⟨h1, hmax⟩, hdig, h0, hr, hl⟩
    obtain ⟨len, tail, ht, hlen, hbits, hklen, hcur, hsize, hread, habove⟩ := encodedValue_stream hinv hr
    refine ⟨(encodedValue s).kbuf, len, tail, (encodedValue s).scr, ht, hbits, hlen, hsize,
      scr_overlay_length hinv.memory s.negative (pad_coefficient_length_le hinv), hread, habove, ?_⟩
    rw [exec_encode_of_encodableFinite hf, encodedValue_eq, hklen, hcur]
    rfl
  · rw [hexec, encodeFinite_leadingZero h0]
    rfl
  · rw [hexec, encodeFinite_exponentOutOfRange h0 hr]
    rfl
  · rw [hexec, encodeFinite_trailingZeroGroup h0 hr hl]
    rfl

/-- Settles O33: the decoders read the key's fields back, and the lowered exponent fits EXP. -/
theorem decodeReadsFiniteKeys : Obligations.DecodeReadsFiniteKeys := by
  intro s neg d adj tail hinv hd ha ht hk hl h
  obtain ⟨dig', scr', hdig, hscr, hlow, hhigh, hfin⟩ := finish_decodeFinite_of_keyBits hinv hd ha ht hl h
  exact ⟨dig', scr', hdig, hscr, hlow, hhigh, toInt_ofInt_exponent hinv.params hd.nonempty hd.size ha,
    by rw [exec_decode_of_finite (kindk_of_finiteKey_bits hk hd hl h), hfin]⟩

/-- Settles O34: the header tests pass, so DECODE is its finite path, which runs the two decoders in order. -/
theorem decodeFaultsAsItsComponents : Obligations.DecodeFaultsAsItsComponents := by
  rintro s - b neg t rfl h2 hk hb rfl
  obtain ⟨-, -, -, hneg, hpos⟩ := kindOfLead_ranges s.lead
  have hkind : kindk s = .ok (if neg then .negFinite else .posFinite) := by
    rw [kindk_of_two_le h2 hk]
    rcases hb with ⟨rfl, hb⟩ | ⟨rfl, hb⟩
    · exact hneg hb
    · exact hpos hb
  rw [exec_decode_of_finite hkind]
  refine ⟨fun dd he => ?_, fun f dd he hs => ?_, fun f c he hs => ?_⟩
  · rw [decodeFinite_of_expdec_error he, finish_error, expdec_error_status he]
    rfl
  · rw [decodeFinite_of_sigdec_error he hs, finish_error, sigdec_error_status hs]
    rfl
  · rw [decodeFinite_of_ok he hs]
    exact ⟨_, rfl, rfl⟩

/-- Settles O46: an OK report means that ENCODE's work succeeded, which its branches do only on encodable values. -/
theorem encodeAcceptsExactlyEncodable : Obligations.EncodeAcceptsExactlyEncodable := by
  refine fun s _ => ⟨?_, exec_encode_of_encodable⟩
  rintro ⟨t, ht, hok⟩
  rw [exec_encode] at ht
  cases ht
  obtain ⟨u, hu, -⟩ := finish_ok_of_status hok
  exact encodable_of_encodeOp hu

/-- Settles O48: the byte of the value's kind, through `exec_decode_encodeSpecial`. -/
theorem specialKeysAreFixedPoints : Obligations.SpecialKeysAreFixedPoints := by
  rintro s hinv sg c b rfl rfl h
  have hkind : ∃ k, kindv s = .ok k ∧ k.keyByte = some b := by
    rcases h with ⟨-, hz, hs, rfl⟩ | ⟨-, hz, hs, rfl⟩ | ⟨hc, hs, rfl⟩ | ⟨hc, hs, rfl⟩ | ⟨hc, rfl⟩
    · exact ⟨_, kindv_of_sign_zero hz.kindv hs, rfl⟩
    · exact ⟨_, kindv_of_sign_one hz.kindv hs, rfl⟩
    · exact ⟨_, kindv_of_sign_zero (kindv_infinite hc) hs, rfl⟩
    · exact ⟨_, kindv_of_sign_one (kindv_infinite hc) hs, rfl⟩
    · exact ⟨_, kindv_nan hc, rfl⟩
  obtain ⟨k, hk, hb⟩ := hkind
  obtain ⟨t, u, ht, -, hkey, hu, huok, hcls, hsign, -⟩ := exec_decode_encodeSpecial hinv hk hb
  exact ⟨t, u, ht, hkey, hu, huok, hcls, hsign⟩

end Sys2Proof.Machine
end

section
/-! The order of keys: numeric values, their streams and their bytes (44_orchestrator.md R200). -/

namespace Sys2Proof.Machine

/-! ## Values in order -/

theorem pow_le_digitsValue {x : Nat} {d : List Nat} (hx : x ≠ 0) : 10 ^ d.length ≤ digitsValue (x :: d) := by
  rw [digitsValue_cons]
  exact Nat.le_add_right_of_le (Nat.le_mul_of_pos_left _ (Nat.pos_of_ne_zero hx))

/-- A first digit that is not 0 decides the value up to a factor of ten. -/
theorem scaled_bounds {d : List Nat} (hdig : AllDigits d) (h0 : d.headD 0 ≠ 0) (adj : Int) :
    (10 : ℚ) ^ adj ≤ scaled d adj ∧ scaled d adj < 10 ^ (adj + 1) := by
  rcases d with _ | ⟨x, d⟩
  · exact absurd rfl h0
  have hlow := pow_le_digitsValue (d := d) h0
  have hhigh := digitsValue_lt hdig
  have hsplit : ∀ n : Nat, (10 : ℚ) ^ n * 10 ^ (adj - (d.length + 1 : Nat) + 1) = 10 ^ (n + (adj - d.length)) := by
    intro n
    rw [← zpow_natCast, ← zpow_add₀ (by norm_num)]
    congr 1
    omega
  have hpos : (0 : ℚ) < 10 ^ (adj - (d.length + 1 : Nat) + 1) := by positivity
  constructor
  · calc (10 : ℚ) ^ adj = (10 : ℚ) ^ d.length * 10 ^ (adj - (d.length + 1 : Nat) + 1) := by
          rw [hsplit]; congr 1; omega
      _ ≤ scaled (x :: d) adj := by
          refine mul_le_mul_of_nonneg_right ?_ hpos.le
          exact_mod_cast hlow
  · calc scaled (x :: d) adj < (10 : ℚ) ^ (d.length + 1) * 10 ^ (adj - (d.length + 1 : Nat) + 1) := by
          refine mul_lt_mul_of_pos_right ?_ hpos
          exact_mod_cast hhigh
      _ = 10 ^ (adj + 1) := by
          rw [hsplit]; congr 1; push_cast; omega

theorem scaled_lt_of_adj_lt {d d' : List Nat} (hd : AllDigits d) (h0 : d.headD 0 ≠ 0) (hd' : AllDigits d')
    (h0' : d'.headD 0 ≠ 0) {adj adj' : Int} (h : adj < adj') : scaled d adj < scaled d' adj' :=
  calc scaled d adj < 10 ^ (adj + 1) := (scaled_bounds hd h0 adj).2
    _ ≤ 10 ^ adj' := zpow_le_zpow_right₀ (by norm_num) h
    _ ≤ scaled d' adj' := (scaled_bounds hd' h0' adj').1

/-- At one adjusted exponent and one length, values are ordered as the coefficients. -/
theorem scaled_lt_iff {d d' : List Nat} (hl : d.length = d'.length) (adj : Int) :
    scaled d adj < scaled d' adj ↔ digitsValue d < digitsValue d' := by
  rw [scaled, scaled, hl, mul_lt_mul_iff_left₀ (by positivity), Nat.cast_lt]

/-- Canonical coefficients extended to one length (each by the groups of the other). -/
def extended (d d' : List Nat) : List Nat := d ++ List.replicate (3 * (d'.length / 3)) 0

theorem scaled_extended (d d' : List Nat) (adj : Int) : scaled (extended d d') adj = scaled d adj :=
  scaled_append_zeros _ _ _

section Extended

variable {p : Params} {d : List Nat} (hd : Canonical p d)

include hd

theorem extended_length_comm {p' : Params} {d' : List Nat} (hd' : Canonical p' d') :
    (extended d d').length = (extended d' d).length := by
  have := hd.groups
  have := hd'.groups
  simp only [extended, List.length_append, List.length_replicate]
  omega

theorem extended_groups (d' : List Nat) : (extended d d').length % 3 = 0 := by
  have := hd.groups
  rw [extended, List.length_append, List.length_replicate]
  omega

theorem extended_digits (d' : List Nat) : AllDigits (extended d d') :=
  AllDigits_append.mpr ⟨hd.digits, fun x hx => by rw [List.eq_of_mem_replicate hx]; exact Nat.zero_le 9⟩

theorem extended_not_allZero (d' : List Nat) : allZero (extended d d') = false := by
  obtain ⟨x, hx, h0⟩ := allZero_eq_false.mp hd.not_allZero
  exact allZero_eq_false.mpr ⟨x, List.mem_append_left _ hx, h0⟩

theorem sigbits_extended (neg : Bool) (d' : List Nat) :
    sigbits (extended d d') neg = sigbits d neg ++ List.replicate (10 * (d'.length / 3)) false :=
  sigbits_append_zeros neg hd.groups hd.not_allZero _

end Extended

/-- The groups that extend a coefficient are 000, and a canonical coefficient's last group is not. -/
theorem lastGroupZero_append_zeros (d : List Nat) {c : List Nat} (hc : ∀ x ∈ c, x = 0) (h3 : 3 ≤ c.length) :
    lastGroupZero (d ++ c) = true := by
  rw [lastGroupZero, allZero_iff, List.length_append, List.drop_append, List.drop_of_length_le (by omega)]
  exact fun x hx => hc x (List.mem_of_mem_drop hx)

theorem eq_nil_of_append_zeros {p p' : Params} {d c : List Nat} (hd : Canonical p d) (hdc : Canonical p' (d ++ c))
    (hc : ∀ x ∈ c, x = 0) : c = [] := by
  have hgroups := hd.groups
  have hgroups' := hdc.groups
  rw [List.length_append] at hgroups'
  by_contra hne
  have hpos := List.length_pos_iff.mpr hne
  have hlast := hdc.last
  rw [lastGroupZero_append_zeros d hc (by omega)] at hlast
  cases hlast

theorem eq_of_append_zeros_eq {p p' : Params} {d d' : List Nat} (hd : Canonical p d) (hd' : Canonical p' d')
    {m n : Nat} (h : d ++ List.replicate m 0 = d' ++ List.replicate n 0) : d = d' := by
  have hzeros : ∀ {c r : List Nat} {n : Nat}, List.replicate n 0 = c ++ r → ∀ x ∈ c, x = 0 :=
    fun h _ hx => List.eq_of_mem_replicate (h ▸ List.mem_append_left _ hx)
  rcases List.append_eq_append_iff.mp h with ⟨c, rfl, hc⟩ | ⟨c, rfl, hc⟩
  · rw [eq_nil_of_append_zeros hd hd' (hzeros hc), List.append_nil]
  · rw [eq_nil_of_append_zeros hd' hd (hzeros hc), List.append_nil]

section Canonical

variable {p p' : Params} {d d' : List Nat} {adj adj' : Int} (hd : Canonical p d) (hd' : Canonical p' d')

include hd hd'

theorem adj_le_of_scaled_le (h : scaled d adj ≤ scaled d' adj') : adj ≤ adj' := by
  by_contra hlt
  exact absurd h (not_le.mpr (scaled_lt_of_adj_lt hd'.digits hd'.lead hd.digits hd.lead (not_le.mp hlt)))

/-- Canonical values are ordered by their adjusted exponents, then by their coefficients as fractions. -/
theorem scaled_lt_cases (h : scaled d adj < scaled d' adj') :
    adj < adj' ∨ (adj = adj' ∧ digitsValue (extended d d') < digitsValue (extended d' d)) := by
  rcases Int.lt_or_eq_of_le (adj_le_of_scaled_le hd hd' h.le) with hlt | rfl
  · exact .inl hlt
  · refine .inr ⟨rfl, ?_⟩
    rwa [← scaled_lt_iff (extended_length_comm hd hd') adj, scaled_extended, scaled_extended]

/-- A canonical value has one coefficient and one adjusted exponent. -/
theorem eq_of_scaled_eq (h : scaled d adj = scaled d' adj') : d = d' ∧ adj = adj' := by
  obtain rfl : adj = adj' := Int.le_antisymm (adj_le_of_scaled_le hd hd' h.le) (adj_le_of_scaled_le hd' hd h.ge)
  have hlen := extended_length_comm hd hd'
  have hnlt : ¬digitsValue (extended d d') < digitsValue (extended d' d) := by
    rw [← scaled_lt_iff hlen adj, scaled_extended, scaled_extended, h]
    exact lt_irrefl _
  have hngt : ¬digitsValue (extended d' d) < digitsValue (extended d d') := by
    rw [← scaled_lt_iff hlen.symm adj, scaled_extended, scaled_extended, h]
    exact lt_irrefl _
  have hval : digitsValue (extended d d') = digitsValue (extended d' d) := by omega
  exact ⟨eq_of_append_zeros_eq hd hd'
    (digitsValue_injective (extended_digits hd d') (extended_digits hd' d) hlen hval), rfl⟩

end Canonical

/-! ## Finite keys in order -/

/-- Equal bits in front of both strings do not change which is below. -/
theorem Below.append_left {p q : List Bool} (c : List Bool) (h : Below p q) : Below (c ++ p) (c ++ q) := by
  obtain ⟨e, u, v, rfl, rfl⟩ := h
  exact ⟨c ++ e, u, v, (List.append_assoc ..).symm, (List.append_assoc ..).symm⟩

/-- `Below`, turned round for negative values. -/
def BelowFor (neg : Bool) (p q : List Bool) : Prop := if neg then Below q p else Below p q

theorem BelowFor.append {neg : Bool} {p q : List Bool} (h : BelowFor neg p q) (x y : List Bool) :
    BelowFor neg (p ++ x) (q ++ y) := by
  cases neg
  · exact Below.append h x y
  · exact Below.append h y x

theorem BelowFor.append_left {neg : Bool} {p q : List Bool} (c : List Bool) (h : BelowFor neg p q) :
    BelowFor neg (c ++ p) (c ++ q) := by
  cases neg
  · exact Below.append_left c h
  · exact Below.append_left c h

theorem signIndicator_of_neg (neg : Bool) {adj : Int} (h : adj < 0) : signIndicator neg adj = neg := by
  cases neg <;> simp [signIndicator, h]

theorem signIndicator_of_nonneg (neg : Bool) {adj : Int} (h : 0 ≤ adj) : signIndicator neg adj = !neg := by
  cases neg <;> simp [signIndicator, h]

/-- The exponent field rises with the adjusted exponent, and falls with it for negative values (30_encoding.md R75,
41_exponent.md R121). -/
theorem expfield_belowFor (neg : Bool) {adj adj' : Int} (h : adj < adj') :
    BelowFor neg (expfield adj.natAbs (signIndicator neg adj)) (expfield adj'.natAbs (signIndicator neg adj')) := by
  rcases Int.lt_or_le adj' 0 with h0' | h0'
  · have hlt : adj'.natAbs < adj.natAbs := by omega
    rw [signIndicator_of_neg neg h0', signIndicator_of_neg neg (h.trans h0')]
    cases neg
    · exact expfield_below_false hlt
    · exact expfield_below_true hlt
  rcases Int.lt_or_le adj 0 with h0 | h0
  · rw [signIndicator_of_neg neg h0, signIndicator_of_nonneg neg h0']
    cases neg
    · exact expfield_below_of_t adj.natAbs adj'.natAbs
    · exact expfield_below_of_t adj'.natAbs adj.natAbs
  · have hlt : adj.natAbs < adj'.natAbs := by omega
    rw [signIndicator_of_nonneg neg h0, signIndicator_of_nonneg neg h0']
    cases neg
    · exact expfield_below_true hlt
    · exact expfield_below_false hlt

/-- The declets rise with the coefficient, and fall with it under ten's complement (42_significand.md R141). -/
theorem sigbits_belowFor (neg : Bool) {a b : List Nat} (ha : AllDigits a) (hb : AllDigits b)
    (h0 : allZero a = false) (hl : a.length = b.length) (h3 : a.length % 3 = 0)
    (h : digitsValue a < digitsValue b) : BelowFor neg (sigbits a neg) (sigbits b neg) := by
  cases neg
  · exact below_declets ha hb hl h3 h
  · have hb0 : allZero b = false := by
      rw [← Bool.not_eq_true, ← digitsValue_eq_zero]
      omega
    exact below_declets (tens_digits hb hb0) (tens_digits ha h0) (by simp [hl]) (by simpa [← hl] using h3)
      (tens_lt_tens ha hb hl.symm h0 h)

/-- The streams of two values, the shorter extended by zeros, are in the values' order (R200). -/
theorem keyBits_belowFor {p p' : Params} (neg : Bool) {d d' : List Nat} {adj adj' : Int} (hd : Canonical p d)
    (hd' : Canonical p' d') (h : scaled d adj < scaled d' adj') :
    ∃ m n, BelowFor neg (keyBits neg d adj ++ List.replicate m false)
      (keyBits neg d' adj' ++ List.replicate n false) := by
  refine ⟨10 * (d'.length / 3), 10 * (d.length / 3), ?_⟩
  simp only [keyBits_eq, List.append_assoc, ← sigbits_extended hd neg d', ← sigbits_extended hd' neg d]
  refine BelowFor.append_left _ ?_
  rcases scaled_lt_cases hd hd' h with hlt | ⟨rfl, hlt⟩
  · exact (expfield_belowFor neg hlt).append _ _
  · exact BelowFor.append_left _ (sigbits_belowFor neg (extended_digits hd d') (extended_digits hd' d)
      (extended_not_allZero hd d') (extended_length_comm hd hd') (extended_groups hd d') hlt)

/-- Zero bytes after a key are zero bits after its bits. -/
theorem readBits_append_zeros (k : List Byte) (n : Nat) :
    readBits (k ++ List.replicate n 0#8) 0 (8 * (k ++ List.replicate n 0#8).length) =
      readBits k 0 (8 * k.length) ++ List.replicate (8 * n) false := by
  rw [List.length_append, List.length_replicate, Nat.mul_add, readBits_add]
  congr 1
  · refine readBits_congr fun j _ hj => getbit_of_getD ?_
    rw [List.getD_append _ _ _ _ (by omega)]
  · rw [readBits_eq_iff (by simp)]
    intro i hi
    have hbyte : (List.replicate n 0#8).getD ((0 + 8 * k.length + i) / 8 - k.length) 0#8 = 0#8 :=
      List.getD_replicate _ (by omega)
    rw [getbit, List.getD_append_right _ _ _ _ (by omega), hbyte, List.getElem_replicate]
    exact BitVec.getLsbD_zero

/-- Keys whose bits, extended by zeros, are in order are in order themselves. -/
theorem bytes_lt_of_extended_below {k k' : List Byte} {a b : List Bool} {x y m n : Nat}
    (hk : readBits k 0 (8 * k.length) = a ++ List.replicate x false)
    (hk' : readBits k' 0 (8 * k'.length) = b ++ List.replicate y false)
    (h : Below (a ++ List.replicate m false) (b ++ List.replicate n false)) : k < k' := by
  have hlong : ∀ (c : List Bool) (z l r : Nat), l ≤ r →
      c ++ List.replicate z false ++ List.replicate (8 * r) false =
        c ++ List.replicate l false ++ List.replicate (z + 8 * r - l) false := by
    intro c z l r hlr
    rw [List.append_assoc, List.append_assoc, List.replicate_append_replicate, List.replicate_append_replicate]
    congr 2
    omega
  refine lt_of_extended_lt (p := k'.length + (m + n)) (q := k.length + (m + n)) (by omega) ?_
  refine bytes_lt_of_below (by simp; omega) ?_
  rw [readBits_append_zeros, readBits_append_zeros, hk, hk', hlong a x m _ (by omega), hlong b y n _ (by omega)]
  exact h.append _ _

/-- FINITE KEYS IN ORDER (R200): of two values of one sign the larger has the larger key, the smaller if negative. -/
theorem FiniteKey.lt_of_scaled_lt {p p' : Params} {k k' : List Byte} {neg : Bool} {d d' : List Nat} {adj adj' : Int}
    (hk : FiniteKey k neg d adj) (hk' : FiniteKey k' neg d' adj') (hd : Canonical p d) (hd' : Canonical p' d')
    (h : scaled d adj < scaled d' adj') : if neg then k' < k else k < k' := by
  obtain ⟨x, -, -, hb⟩ := hk
  obtain ⟨y, -, -, hb'⟩ := hk'
  obtain ⟨m, n, hbelow⟩ := keyBits_belowFor neg hd hd' h
  cases neg
  · exact bytes_lt_of_extended_below hb hb' hbelow
  · exact bytes_lt_of_extended_below hb' hb hbelow

/-! ## Keys of every kind in order -/

/-- A key's first byte, and whether a second follows, as one number. -/
def keyCode : List Byte → Nat
  | [] => 0
  | [x] => 2 * x.toNat
  | x :: _ :: _ => 2 * x.toNat + 1

theorem lt_of_keyCode_lt {k k' : List Byte} (h : keyCode k < keyCode k') : k < k' := by
  rcases k with _ | ⟨x, _ | ⟨y, k⟩⟩ <;> rcases k' with _ | ⟨x', _ | ⟨y', k'⟩⟩ <;>
    simp only [keyCode, Nat.not_lt_zero] at h
  · exact List.nil_lt_cons _ _
  · exact List.nil_lt_cons _ _
  · exact List.cons_lt_cons_iff.mpr (.inl (BitVec.lt_def.mpr (by omega)))
  · rcases Nat.lt_or_eq_of_le (show x.toNat ≤ x'.toNat by omega) with hlt | heq
    · exact List.cons_lt_cons_iff.mpr (.inl hlt)
    · exact List.cons_lt_cons_iff.mpr (.inr ⟨BitVec.eq_of_toNat_eq heq, List.nil_lt_cons _ _⟩)
  · exact List.cons_lt_cons_iff.mpr (.inl (BitVec.lt_def.mpr (by omega)))
  · exact List.cons_lt_cons_iff.mpr (.inl (BitVec.lt_def.mpr (by omega)))

/-- The least code of a key of the kind (30_encoding.md R71, 43_special.md R167). -/
def Kind.leastCode : Kind → Nat
  | .negInf => 2 * 0x00
  | .negFinite => 2 * 0x00 + 1
  | .negZero => 2 * 0x40
  | .posZero => 2 * 0x80
  | .posFinite => 2 * 0x80 + 1
  | .posInf => 2 * 0xC0
  | .nan => 2 * 0xE0

/-- The greatest code of a key of the kind. -/
def Kind.greatestCode : Kind → Nat
  | .negFinite => 2 * 0x1F + 1
  | .posFinite => 2 * 0x9F + 1
  | k => k.leastCode

theorem greatestCode_lt_leastCode {k k' : Kind} (h : k.code.toNat < k'.code.toNat) :
    k.greatestCode < k'.leastCode := by
  revert h
  cases k <;> cases k' <;> decide

theorem Kind.code_injective {k k' : Kind} (h : k.code.toNat = k'.code.toNat) : k = k' := by
  revert h
  cases k <;> cases k' <;> decide

/-- The rank of a value is its kind's number (43_special.md R160). -/
theorem rank_of_kindv {s : State} {k : Kind} (h : kindv s = .ok k) : s.rank = k.code.toNat := by
  rcases kindv_cases s with ⟨-, e⟩ | ⟨hc, e⟩ | ⟨hc, e⟩ | ⟨-, -, e⟩ | ⟨-, -, -, -, e⟩ | ⟨hc, -, -, hz, e⟩ |
    ⟨hc, -, -, -, hz, e⟩ <;> rw [h] at e <;> cases e
  · simp [State.rank, hc, Kind.code]
  · cases hn : s.negative <;> simp [State.rank, hc, hn, Kind.code]
  · cases hn : s.negative <;> simp [State.rank, hc, hn, allZero_iff.mpr hz, Kind.code]
  · cases hn : s.negative <;> simp [State.rank, hc, hn, allZero_eq_false.mpr hz, Kind.code]

theorem EncodableFinite.finiteNonzero {s : State} (h : EncodableFinite s) : s.finiteNonzero := by
  rw [State.finiteNonzero, rank_of_kindv h.kindv]
  cases s.negative <;> decide

theorem EncodableFinite.negative_eq_of_rank_eq {a b : State} (ha : EncodableFinite a) (hb : EncodableFinite b)
    (h : a.rank = b.rank) : a.negative = b.negative := by
  rw [rank_of_kindv ha.kindv, rank_of_kindv hb.kindv] at h
  revert h
  cases a.negative <;> cases b.negative <;> decide

theorem not_finiteNonzero_of_special {s : State} {k : Kind} {b : Byte} (h : kindv s = .ok k)
    (hb : k.keyByte = some b) : ¬s.finiteNonzero := by
  rw [State.finiteNonzero, rank_of_kindv h]
  cases k <;> cases hb <;> decide

theorem ValueLt.asymm {a b : State} (h : ValueLt a b) : ¬ValueLt b a := by
  rintro (h' | ⟨hr', -, h'⟩) <;> rcases h with h | ⟨hr, -, h⟩
  · omega
  · omega
  · omega
  · exact lt_asymm h h'

theorem ValueEq.not_lt {a b : State} (h : ValueEq a b) : ¬ValueLt a b := by
  rintro (h' | ⟨-, hf, h'⟩)
  · exact absurd h.1 h'.ne
  · exact absurd (h.2 hf) h'.ne

theorem ValueEq.symm {a b : State} (h : ValueEq a b) : ValueEq b a :=
  ⟨h.1.symm, fun hf => (h.2 (by rwa [State.finiteNonzero, h.1])).symm⟩

/-- The first bytes of finite keys, over all bytes. -/
theorem code_bounds_of_kindOfLead : ∀ (neg : Bool) (x : Byte),
    kindOfLead x = .ok (if neg then .negFinite else .posFinite) →
      (if neg then Kind.negFinite else .posFinite).leastCode ≤ 2 * x.toNat + 1 ∧
        2 * x.toNat + 1 ≤ (if neg then Kind.negFinite else .posFinite).greatestCode := by decide

/-- A finite key has at least two bytes, and the first is one of its sign's (30_encoding.md R70, R79). -/
theorem FiniteKey.code_bounds {p : Params} {key : List Byte} {neg : Bool} {d : List Nat} {adj : Int}
    (h : FiniteKey key neg d adj) (hd : Canonical p d) :
    (if neg then Kind.negFinite else .posFinite).leastCode ≤ keyCode key ∧
      keyCode key ≤ (if neg then Kind.negFinite else .posFinite).greatestCode := by
  obtain ⟨tail, -, hl, hb⟩ := h
  have hgroups := hd.groups
  have hpos := hd.nonempty
  have hN := expN_ge adj.natAbs
  rw [keyBits_length] at hl
  rcases key with _ | ⟨x, _ | ⟨y, key⟩⟩
  · rw [List.length_nil] at hl
    omega
  · rw [List.length_singleton] at hl
    omega
  have hlead := kindOfLead_of_keyBits (by rw [List.length_cons]; omega) hb
  rw [List.getD_cons_zero] at hlead
  exact code_bounds_of_kindOfLead neg x hlead

section Ordered

variable {a b : State} {ka kb : List Byte} (hia : BlockInv a) (hib : BlockInv b) (ha : HasKey a ka) (hb : HasKey b kb)

include hia ha in
theorem HasKey.code_bounds :
    ∃ k : Kind, a.rank = k.code.toNat ∧ k.leastCode ≤ keyCode ka ∧ keyCode ka ≤ k.greatestCode := by
  rcases ha with ⟨k, x, hk, hx, rfl⟩ | ⟨hf, hkey⟩
  · refine ⟨k, rank_of_kindv hk, ?_⟩
    cases k <;> cases hx <;> decide
  · exact ⟨_, rank_of_kindv hf.kindv, hkey.code_bounds (hia.pad_canonical hf)⟩

include hia hib ha hb in
theorem HasKey.lt_of_rank_lt (h : a.rank < b.rank) : ka < kb := by
  obtain ⟨k, hk, -, hle⟩ := ha.code_bounds hia
  obtain ⟨k', hk', hge, -⟩ := hb.code_bounds hib
  rw [hk, hk'] at h
  have := greatestCode_lt_leastCode h
  exact lt_of_keyCode_lt (by omega)

section Finite

variable (hfa : EncodableFinite a) (hfb : EncodableFinite b)
  (hka : FiniteKey ka a.negative (pad a.coefficient) a.adjExp)
  (hkb : FiniteKey kb b.negative (pad b.coefficient) b.adjExp)

include hia hib hfa hfb hka hkb

theorem FiniteKey.numeric_of_scaled_lt (hneg : a.negative = b.negative)
    (h : scaled (pad a.coefficient) a.adjExp < scaled (pad b.coefficient) b.adjExp) :
    (a.numeric < b.numeric ∧ ka < kb) ∨ (b.numeric < a.numeric ∧ kb < ka) := by
  rw [hneg] at hka
  have hkeys := hka.lt_of_scaled_lt hkb (hia.pad_canonical hfa) (hib.pad_canonical hfb) h
  rw [scaled_pad, scaled_pad] at h
  rw [numeric_eq_scaled hia hfa.count.2, numeric_eq_scaled hib hfb.count.2, hneg]
  cases hb : b.negative <;> rw [hb] at hkeys
  · exact .inl ⟨by simpa using h, hkeys⟩
  · exact .inr ⟨by simpa using h, hkeys⟩

/-- Finite values of one sign and their keys are both below, both equal or both above (R200). -/
theorem FiniteKey.trichotomy (hneg : a.negative = b.negative) :
    (a.numeric < b.numeric ∧ ka < kb) ∨ (a.numeric = b.numeric ∧ ka = kb) ∨ (b.numeric < a.numeric ∧ kb < ka) := by
  rcases lt_trichotomy (scaled (pad a.coefficient) a.adjExp) (scaled (pad b.coefficient) b.adjExp) with h | h | h
  · exact (numeric_of_scaled_lt hia hib hfa hfb hka hkb hneg h).imp_right .inr
  · obtain ⟨hd, he⟩ := eq_of_scaled_eq (hia.pad_canonical hfa) (hib.pad_canonical hfb) h
    rw [hneg, hd, he] at hka
    refine .inr (.inl ⟨?_, hka.unique hkb⟩)
    rw [scaled_pad, scaled_pad] at h
    rw [numeric_eq_scaled hia hfa.count.2, numeric_eq_scaled hib hfb.count.2, hneg, h]
  · exact (numeric_of_scaled_lt hib hia hfb hfa hkb hka hneg.symm h).symm.imp_right .inr

end Finite

include hia hib ha hb in
theorem HasKey.trichotomy :
    (ValueLt a b ∧ ka < kb) ∨ (ValueEq a b ∧ ka = kb) ∨ (ValueLt b a ∧ kb < ka) := by
  rcases Nat.lt_trichotomy a.rank b.rank with hr | hr | hr
  · exact .inl ⟨.inl hr, ha.lt_of_rank_lt hia hib hb hr⟩
  · rcases ha with ⟨k, x, hk, hx, rfl⟩ | ⟨hfa, hka⟩ <;> rcases hb with ⟨k', x', hk', hx', rfl⟩ | ⟨hfb, hkb⟩
    · have hr' := hr
      rw [rank_of_kindv hk, rank_of_kindv hk'] at hr'
      cases Kind.code_injective hr'
      rw [hx] at hx'
      cases hx'
      exact .inr (.inl ⟨⟨hr, fun h => absurd h (not_finiteNonzero_of_special hk hx)⟩, rfl⟩)
    · refine absurd ?_ (not_finiteNonzero_of_special hk hx)
      rw [State.finiteNonzero, hr]
      exact hfb.finiteNonzero
    · refine absurd ?_ (not_finiteNonzero_of_special hk' hx')
      rw [State.finiteNonzero, ← hr]
      exact hfa.finiteNonzero
    · have hneg := hfa.negative_eq_of_rank_eq hfb hr
      rcases FiniteKey.trichotomy hia hib hfa hfb hka hkb hneg with ⟨h, hlt⟩ | ⟨h, heq⟩ | ⟨h, hlt⟩
      · exact .inl ⟨.inr ⟨hr, hfa.finiteNonzero, h⟩, hlt⟩
      · exact .inr (.inl ⟨⟨hr, fun _ => h⟩, heq⟩)
      · exact .inr (.inr ⟨.inr ⟨hr.symm, hfb.finiteNonzero, h⟩, hlt⟩)
  · exact .inr (.inr ⟨.inl hr, hb.lt_of_rank_lt hib hia ha hr⟩)

end Ordered

theorem ne_of_bytes_lt {k k' : List Byte} (h : k < k') : k ≠ k' := by
  rintro rfl
  exact List.lt_irrefl k h

/-- Settles O51: the two trichotomies are one, so that each order decides the other. -/
theorem keysOrderAsValues : Obligations.KeysOrderAsValues := by
  intro a b ta tb hia hib hea heb hta htb
  have ha := exec_encode_hasKey hia hea hta
  have hb := exec_encode_hasKey hib heb htb
  rcases ha.trichotomy hia hib hb with ⟨hv, hk⟩ | ⟨hv, hk⟩ | ⟨hv, hk⟩
  · exact ⟨iff_of_true hv hk, iff_of_false (ne_of_bytes_lt hk) fun h => h.not_lt hv⟩
  · exact ⟨iff_of_false hv.not_lt fun h => ne_of_bytes_lt h hk, iff_of_true hk hv⟩
  · exact ⟨iff_of_false hv.asymm (List.lt_asymm hk), iff_of_false (ne_of_bytes_lt hk).symm fun h => h.symm.not_lt hv⟩

end Sys2Proof.Machine
end

section
/-! How an operation ends, which faults each operation raises, and that a legal state always steps
(60_exceptions.md). -/

namespace Sys2Proof.Machine

/-! ## The status of a failed check, operation by operation (60_exceptions.md R210 to R214) -/

section FaultStatus

variable {s : State} {d : Detail}

theorem kindv_error_status (h : kindv s = .error d) : d.status = .unsupportedValue := by
  rcases kindv_error h with rfl | rfl | rfl <;> rfl

theorem kindk_error_status (h : kindk s = .error d) : d.status = .invalidEncoding := by
  rcases kindk_error h with rfl | rfl | rfl | rfl | rfl | rfl <;> rfl

/-! ### The Bit-Stream Cursor -/

theorem packOp_error_status {n : BitVec 4} {bits : Byte} (h : packOp n bits s = .error d) :
    d.status = .bufferTooSmall ∨ d.status = .illegalCommand := by
  rcases packOp_cases n bits s with ⟨-, e⟩ | ⟨-, -, -, e⟩ | ⟨-, -, -, -, e⟩ <;> rw [h] at e <;> cases e
  · exact .inr rfl
  · exact .inl rfl

theorem unpackOp_error_status {n : BitVec 4} (h : unpackOp n s = .error d) :
    d.status = .invalidEncoding ∨ d.status = .illegalCommand := by
  rcases unpackOp_cases n s with ⟨-, e⟩ | ⟨-, -, -, e⟩ | ⟨-, -, -, -, e⟩ | ⟨-, -, -, -, e⟩ <;>
    rw [h] at e <;> cases e
  · exact .inr rfl
  · exact .inl rfl
  · exact .inl rfl

/-! ### The encoders -/

theorem expencOp_error_status (h : expencOp s = .error d) :
    d.status = .unsupportedValue ∨ d.status = .bufferTooSmall := by
  rcases expencOp_cases s with ⟨-, e⟩ | ⟨-, -, e⟩ | ⟨-, -, -, e⟩ <;> rw [h] at e <;> cases e
  · exact .inl rfl
  · exact .inr rfl

theorem sigencOp_error_status (h : sigencOp s = .error d) :
    d.status = .unsupportedValue ∨ d.status = .bufferTooSmall := by
  rcases sigencOp_cases s with ⟨-, e⟩ | ⟨-, -, -, ⟨-, e⟩ | ⟨-, -, -, e⟩ | ⟨-, -, -, e⟩ | ⟨-, -, -, -, e⟩⟩ <;>
    rw [h] at e <;> cases e
  · exact .inl rfl
  · exact .inl rfl
  · exact .inl rfl
  · exact .inr rfl

theorem classvOp_error_status (h : classvOp s = .error d) : d.status = .unsupportedValue := by
  rcases classvOp_cases s with ⟨d', hk, e⟩ | ⟨k, -, e⟩ <;> rw [h] at e <;> cases e
  exact kindv_error_status hk

theorem spencOp_error_status (h : spencOp s = .error d) : d.status = .unsupportedValue := by
  rcases spencOp_cases s with ⟨d', hk, e⟩ | ⟨k, -, -, e⟩ | ⟨k, b, -, -, e⟩ <;> rw [h] at e <;> cases e
  · exact kindv_error_status hk
  · rfl

/-- KBUF is sized for the longest key, so the finite path has no capacity check (60_exceptions.md R214). -/
theorem encodeFinite_error_status (h : encodeFinite s = .error d) : d.status = .unsupportedValue := by
  rcases encodeFinite_cases s with ⟨-, e⟩ | ⟨-, -, e⟩ | ⟨-, -, -, e⟩ | ⟨-, -, -, e⟩ <;>
    rw [h] at e <;> cases e <;> rfl

theorem encodeOp_error_status (h : encodeOp s = .error d) : d.status = .unsupportedValue := by
  rcases encodeOp_cases s with ⟨d', hk, e⟩ | ⟨k, b, -, -, e⟩ | ⟨k, -, -, e⟩ <;> rw [h] at e
  · cases e
    exact kindv_error_status hk
  · cases e
  · exact encodeFinite_error_status e.symm

/-! ### The decoders: the uniform failure (60_exceptions.md R215) -/

theorem expdecOp_error_status (h : expdecOp s = .error d) : d.status = .invalidEncoding := by
  rcases expdecOp_cases s with ⟨-, e⟩ | ⟨d', -, hd, e⟩ | ⟨f, -, -, e⟩ <;> rw [h] at e <;> cases e
  · rfl
  · exact expdec_error_status hd

theorem sigdecOp_error_status (h : sigdecOp s = .error d) : d.status = .invalidEncoding := by
  rcases sigdecOp_cases s with ⟨-, e⟩ | ⟨d', -, hd, e⟩ | ⟨c, -, -, e⟩ <;> rw [h] at e <;> cases e
  · rfl
  · exact sigdec_error_status hd

theorem classkOp_error_status (h : classkOp s = .error d) : d.status = .invalidEncoding := by
  rcases classkOp_cases s with ⟨d', hk, e⟩ | ⟨k, -, e⟩ <;> rw [h] at e <;> cases e
  exact kindk_error_status hk

theorem kindOfByte_error_status {b : Byte} (h : kindOfByte b = .error d) : d.status = .invalidEncoding := by
  rcases kindOfByte_cases b with ⟨-, e⟩ | ⟨-, e⟩ | ⟨-, e⟩ | ⟨-, e⟩ | ⟨-, e⟩ | ⟨-, -, -, -, -, e⟩ <;>
    rw [h] at e <;> cases e
  rfl

theorem spdecOp_error_status (h : spdecOp s = .error d) : d.status = .invalidEncoding := by
  rcases spdecOp_cases s with ⟨-, e⟩ | ⟨-, -, e⟩ | ⟨-, -, e⟩ | ⟨-, -, d', hb, e⟩ | ⟨-, -, k, -, e⟩ <;>
    rw [h] at e <;> cases e
  · rfl
  · rfl
  · rfl
  · exact kindOfByte_error_status hb

theorem decodeFinite_error_status {neg : Bool} {k : List Byte} (h : decodeFinite neg k s = .error d) :
    d.status = .invalidEncoding := by
  rcases decodeFinite_cases neg k s with ⟨d', hd, e⟩ | ⟨f, d', -, hd, e⟩ | ⟨f, c, -, -, e⟩ <;>
    rw [h] at e <;> cases e
  · exact expdec_error_status hd
  · exact sigdec_error_status hd

theorem decodeOp_error_status (h : decodeOp s = .error d) : d.status = .invalidEncoding := by
  rcases decodeOp_cases s with ⟨d', hk, e⟩ | ⟨k, b, -, -, e⟩ | ⟨-, e⟩ | ⟨-, e⟩ <;> rw [h] at e
  · cases e
    exact kindk_error_status hk
  · cases e
  · exact decodeFinite_error_status e.symm
  · exact decodeFinite_error_status e.symm

end FaultStatus

/-! ## The status an operation ends with -/

section End

variable {i : Instr} {s t : State} (hi : i.isCommand = true) (ht : exec i s = .next t)
include hi ht

/-- STATUS after an operation is OK, or the status of the check that failed (60_exceptions.md R210, R211). -/
theorem status_of_exec :
    t.status = 0#3 ∨ ∃ d, commandResult i s = .error d ∧ t.status = d.status.code := by
  rw [exec_command hi] at ht
  cases ht
  rcases finish_cases s (commandResult i s) with ⟨u, -, e⟩ | ⟨d, hd, e⟩ <;> rw [e]
  · exact .inl rfl
  · exact .inr ⟨d, hd, rfl⟩

/-- An operation whose checks all belong to one status ends with OK or with that status. -/
theorem status_of_exec_one {x : Status} (hx : ∀ d, commandResult i s = .error d → d.status = x) :
    t.status = 0#3 ∨ t.status = x.code := by
  refine (status_of_exec hi ht).imp_right ?_
  rintro ⟨d, hd, e⟩
  rw [e, hx d hd]

/-- An operation whose checks belong to two statuses ends with OK or with one of them. -/
theorem status_of_exec_two {x y : Status}
    (hxy : ∀ d, commandResult i s = .error d → d.status = x ∨ d.status = y) :
    t.status = 0#3 ∨ t.status = x.code ∨ t.status = y.code := by
  refine (status_of_exec hi ht).imp_right ?_
  rintro ⟨d, hd, e⟩
  rw [e]
  exact (hxy d hd).imp (congrArg Status.code) (congrArg Status.code)

end End

/-! ## A transaction always completes (60_exceptions.md R218, R221) -/

/-- A WR performs a command, stores a value or is a bus error, and each is a next state. -/
theorem exec_wr_completes (r : Nat) (v : Word) (s : State) : ∃ t, exec (.wr r v) s = .next t := by
  by_cases hr : r = 0
  · subst hr
    rcases writeCommand_cases (v.setWidth 16) s with ⟨i, -, -, e⟩ | ⟨x, -, e⟩ <;> exact ⟨_, e⟩
  · cases hw : writeRegister s r v with
    | some u => exact ⟨_, exec_wr_some hr hw⟩
    | none => exact ⟨_, exec_wr_none hr hw⟩

/-- Legal parameters are all that a step asks of the state (00_scope.md R9). -/
theorem step_completes {s : State} (hp : s.params.valid = true) : ∃ t, step s = .next t := by
  cases hs : s.pending with
  | nil => exact ⟨s, step_idle hp hs⟩
  | cons ev rest =>
    cases ev with
    | rd r => exact ⟨_, (step_rd hp hs).trans (exec_rd _ r)⟩
    | wr r v =>
      rw [step_wr hp hs]
      exact exec_wr_completes r v _
    | reset => exact ⟨_, step_reset hp hs⟩

/-! ## The obligations of 60_exceptions.md -/

/-- Settles O45. -/
theorem invariantStatesAlwaysStep : Obligations.InvariantStatesAlwaysStep := fun _ h =>
  step_completes h.params

/-- Settles O39: an operation ends with its result reported OK and DETAIL 0, or with the old state reported under
the status of the failed check, which is never OK. -/
theorem faultsChangeOnlyStatusAndDetail : Obligations.FaultsChangeOnlyStatusAndDetail := by
  intro i s hi
  refine ⟨_, exec_command hi s, ?_⟩
  rcases finish_cases s (commandResult i s) with ⟨u, -, e⟩ | ⟨d, -, e⟩ <;> rw [e]
  · exact ⟨fun h => absurd rfl h, fun _ => rfl⟩
  · exact ⟨fun _ => rfl, fun h => absurd h (status_code_ne_ok d)⟩

/-- Settles O43, operation by operation: its STATUS is OK or that of the check that failed. -/
theorem operationsRaiseOnlyTheirStatus : Obligations.OperationsRaiseOnlyTheirStatus := by
  refine fun i s t ht => ⟨fun hi => ?_, fun hi => ?_, fun hi => ?_, fun hi => ?_, fun hi => ?_⟩
  · rcases hi with rfl | rfl | rfl | rfl | rfl
    · exact status_of_exec_one rfl ht fun _ => decodeOp_error_status
    · exact status_of_exec_one rfl ht fun _ => expdecOp_error_status
    · exact status_of_exec_one rfl ht fun _ => sigdecOp_error_status
    · exact status_of_exec_one rfl ht fun _ => classkOp_error_status
    · exact status_of_exec_one rfl ht fun _ => spdecOp_error_status
  · rcases hi with rfl | rfl | rfl
    · exact status_of_exec_one rfl ht fun _ => encodeOp_error_status
    · exact status_of_exec_one rfl ht fun _ => classvOp_error_status
    · exact status_of_exec_one rfl ht fun _ => spencOp_error_status
  · rcases hi with rfl | rfl
    · exact status_of_exec_two rfl ht fun _ => expencOp_error_status
    · exact status_of_exec_two rfl ht fun _ => sigencOp_error_status
  · obtain ⟨n, b, rfl⟩ := hi
    exact status_of_exec_two rfl ht fun _ => packOp_error_status
  · obtain ⟨n, rfl⟩ := hi
    exact status_of_exec_two rfl ht fun _ => unpackOp_error_status

end Sys2Proof.Machine
end

section
/-! The reset event, and what reaches no result: stale cells, and the parameters in a key
(70_reset_and_hazards.md). -/

namespace Sys2Proof.Machine

/-! ## Buffers that agree below a length -/

theorem take_eq_of_getD {α : Type} {x : α} {l l' : List α} {n : Nat} (hl : l.length = l'.length)
    (h : ∀ i, i < n → l.getD i x = l'.getD i x) : l.take n = l'.take n := by
  refine List.ext_getElem (by simp [hl]) fun i h1 h2 => ?_
  rw [List.length_take] at h1 h2
  have hi := h i (by omega)
  rw [List.getD_eq_getElem _ _ (by omega), List.getD_eq_getElem _ _ (by omega)] at hi
  simpa using hi

theorem set_zero_getD_zero {α : Type} {x v : α} {l l' : List α} (hl : l.length = l'.length) :
    (l.set 0 v).getD 0 x = (l'.set 0 v).getD 0 x := by
  simp [List.getD_eq_getElem?_getD, List.getElem?_set, hl]

theorem overlay_length_congr {α : Type} (new : List α) {old old' : List α} (hl : old.length = old'.length) :
    (overlay new old).length = (overlay new old').length := by
  simp [overlay, hl]

/-- A register holds at most the number written to it. -/
theorem toNat_ofNat_le (n : Nat) : (BitVec.ofNat 32 n).toNat ≤ n := by
  rw [BitVec.toNat_ofNat]
  exact Nat.mod_le _ _

/-- Packing the same bits at the same place of two keys whose bytes agree gives keys whose bytes agree. -/
theorem PackedAt.getD_congr {k k' m m' : List Byte} {len len' off : Nat} {bs : List Bool}
    (h : PackedAt k len off bs m len') (h' : PackedAt k' len off bs m' len')
    (hk : ∀ i, i < len → k.getD i 0#8 = k'.getD i 0#8) {i : Nat} (hi : i < len') :
    m.getD i 0#8 = m'.getD i 0#8 := by
  refine getD_eq_of_getbit i fun q hq => ?_
  generalize hj : 8 * i + q = j
  by_cases hin : off ≤ j ∧ j < off + bs.length
  · obtain ⟨r, rfl⟩ := Nat.exists_eq_add_of_le hin.1
    rw [(readBits_eq_iff rfl).mp h.written r (by omega), (readBits_eq_iff rfl).mp h'.written r (by omega)]
  · by_cases hold : j < 8 * len
    · rw [h.kept j (by omega) hold, h'.kept j (by omega) hold]
      exact getbit_of_getD (hk _ (by omega))
    · rw [h.fresh j (by omega) (by omega) (by omega), h'.fresh j (by omega) (by omega) (by omega)]

/-! ## States that differ in stale cells only -/

/-- `s` with other contents of the three buffers. -/
def State.withBuffers (s : State) (dig : List Cell4) (kbuf : List Byte) (scr : List Cell4) : State :=
  { s with dig := dig, kbuf := kbuf, scr := scr }

/-- A state that differs in stale cells only differs in its buffers only. -/
theorem SameButStale.exists_withBuffers {s s' : State} (h : SameButStale s s') :
    ∃ dig kbuf scr, s' = s.withBuffers dig kbuf scr :=
  ⟨s'.dig, s'.kbuf, s'.scr, congrArg (·.withBuffers s'.dig s'.kbuf s'.scr) h.registers.symm⟩

section Reads

variable {s : State} {dig : List Cell4} {kbuf : List Byte} {scr : List Cell4}

@[simp] theorem withBuffers_cur : (s.withBuffers dig kbuf scr).cur = s.cur := rfl
@[simp] theorem withBuffers_negative : (s.withBuffers dig kbuf scr).negative = s.negative := rfl
@[simp] theorem withBuffers_tIndicator : (s.withBuffers dig kbuf scr).tIndicator = s.tIndicator := rfl

variable (h : SameButStale s (s.withBuffers dig kbuf scr))
include h

theorem SameButStale.coefficient_eq : (s.withBuffers dig kbuf scr).coefficient = s.coefficient :=
  congrArg (List.map BitVec.toNat) (take_eq_of_getD h.digSize h.dig).symm

theorem SameButStale.getbit_eq {j : Nat} (hj : j < 8 * s.klen.toNat) : getbit s.kbuf j = getbit kbuf j :=
  getbit_of_getD (h.kbuf _ (by omega))

theorem SameButStale.kindv_eq : kindv (s.withBuffers dig kbuf scr) = kindv s := by
  rw [kindv, kindv, h.coefficient_eq]
  rfl

/-- The first byte is read of a key that has one. -/
theorem SameButStale.kindk_eq : kindk (s.withBuffers dig kbuf scr) = kindk s := by
  by_cases h0 : s.klen.toNat = 0
  · exact (if_pos h0).trans (if_pos h0).symm
  · have hlead : (s.withBuffers dig kbuf scr).lead = s.lead := (h.kbuf 0 (by omega)).symm
    rw [kindk, kindk, hlead]
    rfl

theorem SameButStale.unpack_eq {off n : Nat} (hn : off + n ≤ 8 * s.klen.toNat) :
    unpack (s.withBuffers dig kbuf scr).kbuf off n = unpack s.kbuf off n :=
  congrArg bitsVal (readBits_congr fun _ _ hj => (h.getbit_eq (by omega)).symm)

theorem SameButStale.expdec_eq (off : Nat) (t : Bool) :
    expdec (s.withBuffers dig kbuf scr).params (s.withBuffers dig kbuf scr).kbuf
      (s.withBuffers dig kbuf scr).klen.toNat off t = expdec s.params s.kbuf s.klen.toNat off t :=
  (expdec_congr (fun _ hj => h.getbit_eq hj) _ _ _).symm

theorem SameButStale.sigdec_eq (off : Nat) (neg : Bool) :
    sigdec (s.withBuffers dig kbuf scr).params (s.withBuffers dig kbuf scr).kbuf
      (s.withBuffers dig kbuf scr).klen.toNat off neg = sigdec s.params s.kbuf s.klen.toNat off neg :=
  (sigdec_congr (fun _ hj => h.getbit_eq hj) _ _ _).symm

end Reads

section Writes

variable {s s' : State} (h : SameButStale s s')

include h

theorem SameButStale.reported (a : BitVec 3) (b : BitVec 5) :
    SameButStale (s.reported a b) (s'.reported a b) :=
  { h with registers := congrArg (·.reported a b) h.registers }

theorem SameButStale.withScr (scr scr' : List Cell4) :
    SameButStale { s with scr := scr } { s' with scr := scr' } := { h with }

/-- The cells below the new DCNT are the decoded digits (42_significand.md R146). -/
theorem SameButStale.setCoefficient (d : List Nat) :
    SameButStale (s.setCoefficient d) (s'.setCoefficient d) where
  registers := congrArg (fun u : State => { u with dcnt := BitVec.ofNat 32 d.length }) h.registers
  digSize := overlay_length_congr _ h.digSize
  kbufSize := h.kbufSize
  dig i hi := by
    have hlt : i < (toCells d).length := by
      rw [toCells_length]
      exact hi.trans_le (toNat_ofNat_le _)
    simp only [setCoefficient_dig, overlay_getD_lt _ hlt]
  kbuf := h.kbuf

theorem SameButStale.decodedFinite (neg t : Bool) (f : ExpResult) (c : SigResult) :
    SameButStale (decodedFinite s neg t f c) (decodedFinite s' neg t f c) :=
  have hcoef := h.setCoefficient c.digits
  { hcoef with registers := congrArg (fun u : State => { u with
      sign := BitVec.ofBool neg
      cls := 0#2
      exp := BitVec.ofInt 32 (adjExpOf neg t f.e - c.digits.length + 1)
      emag := BitVec.ofNat 32 f.e
      tbit := BitVec.ofBool t
      nbits := BitVec.ofNat 6 f.n
      cur := BitVec.ofNat 32 c.off }) hcoef.registers }

/-- A special value holds no digit, or the one digit 0 that it writes (43_special.md R168). -/
theorem SameButStale.decodeSpecial (k : Kind) :
    SameButStale (decodeSpecial k s) (decodeSpecial k s') := by
  have hsize : (Machine.decodeSpecial k s).dig.length = (Machine.decodeSpecial k s').dig.length := by
    simp only [decodeSpecial_dig_length, h.digSize]
  have hreg := congrArg (Machine.decodeSpecial k) h.registers
  cases k with
  | negZero | posZero =>
    refine ⟨hreg, hsize, h.kbufSize, fun i hi => ?_, h.kbuf⟩
    obtain rfl : i = 0 := Nat.lt_one_iff.mp hi
    exact set_zero_getD_zero h.digSize
  | negFinite | posFinite => exact { h with registers := hreg }
  | negInf | posInf | nan =>
    exact ⟨hreg, hsize, h.kbufSize, fun i hi => absurd hi (Nat.not_lt_zero i), h.kbuf⟩

/-- The key is the one byte written (43_special.md R163). -/
theorem SameButStale.encodeSpecial (b : Byte) :
    SameButStale (encodeSpecial b s) (encodeSpecial b s') where
  registers := congrArg (fun u : State => { u with klen := 1#32, cur := 8#32 }) h.registers
  digSize := h.digSize
  kbufSize := by simp [h.kbufSize]
  dig := h.dig
  kbuf i hi := by
    obtain rfl : i = 0 := Nat.lt_one_iff.mp hi
    exact set_zero_getD_zero h.kbufSize

end Writes

/-- Packing at CUR keeps the difference to stale cells: each bit of the new key is packed, kept or 0
(40_cursor.md R100). -/
theorem SameButStale.packBits {s : State} {dig : List Cell4} {kbuf : List Byte} {scr : List Cell4}
    (h : SameButStale s (s.withBuffers dig kbuf scr)) {bs : List Bool}
    (hfit : s.cur.toNat + bs.length ≤ 8 * s.kbuf.length) :
    SameButStale (s.setStream (s.stream.packBits bs))
      ((s.withBuffers dig kbuf scr).setStream ((s.withBuffers dig kbuf scr).stream.packBits bs)) := by
  have hlen : ((s.withBuffers dig kbuf scr).stream.packBits bs).len = (s.stream.packBits bs).len := by
    rw [packBits_len, packBits_len]
    rfl
  have hoff : ((s.withBuffers dig kbuf scr).stream.packBits bs).off = (s.stream.packBits bs).off := by
    rw [packBits_off, packBits_off]
    rfl
  have hp := packBits_packedAt s.stream bs hfit
  have hp' := packBits_packedAt (s.withBuffers dig kbuf scr).stream bs (hfit.trans_eq (congrArg (8 * ·) h.kbufSize))
  rw [hlen] at hp'
  refine ⟨?_, h.digSize, ?_, h.dig, fun i hi => hp.getD_congr hp' h.kbuf (hi.trans_le (toNat_ofNat_le _))⟩
  · simp only [State.setStream, hlen, hoff]
    rfl
  · simpa using h.kbufSize

/-- Every byte of the key that ENCODE leaves is one of the stream it built afresh (44_orchestrator.md R183). -/
theorem SameButStale.encodedFinite {s : State} {dig : List Cell4} {kbuf : List Byte} {scr : List Cell4}
    (h : SameButStale s (s.withBuffers dig kbuf scr)) {st : KeyStream} (hst : st.len ≤ st.k.length) :
    SameButStale (encodedFinite s st) (encodedFinite (s.withBuffers dig kbuf scr) st) where
  registers := rfl
  digSize := h.digSize
  kbufSize := overlay_length_congr _ h.kbufSize
  dig := h.dig
  kbuf i hi := by
    have hlt : i < (st.k.take st.len).length := by
      rw [List.length_take, Nat.min_eq_left hst]
      exact hi.trans_le (toNat_ofNat_le _)
    exact (overlay_getD_lt _ hlt).trans (overlay_getD_lt _ hlt).symm

/-! ## Results that differ in stale cells only -/

/-- Two results that differ in stale cells only: the same fault, or two such states. -/
inductive SameResult : Except Detail State → Except Detail State → Prop where
  | ok {t t' : State} (h : SameButStale t t') : SameResult (.ok t) (.ok t')
  | error (d : Detail) : SameResult (.error d) (.error d)

/-- A check that reads no stale cell sends both states into the same branch. -/
theorem SameResult.ite {c : Prop} [Decidable c] {x x' y y' : Except Detail State}
    (hx : c → SameResult x x') (hy : ¬c → SameResult y y') :
    SameResult (if c then x else y) (if c then x' else y') := by
  split
  · exact hx ‹_›
  · exact hy ‹_›

theorem SameResult.finish {s s' : State} {r r' : Except Detail State} (h : SameButStale s s')
    (hr : SameResult r r') : SameButStale (finish s r) (finish s' r') := by
  cases hr with
  | ok ht => exact ht.reported _ _
  | error d => exact h.reported _ _

/-! ## No operation reads a stale cell -/

section Operations

variable {s : State} {dig : List Cell4} {kbuf : List Byte} {scr : List Cell4} (hinv : BlockInv s)
  (h : SameButStale s (s.withBuffers dig kbuf scr))

include hinv in
/-- The fit that the operations check, in bytes of KBUF (10_state.md R34). -/
theorem BlockInv.bits_fit {n : Nat} (hn : ¬8 * s.params.kmax < n) : n ≤ 8 * s.kbuf.length := by
  obtain ⟨-, hkbuf, -⟩ := wf_iff.mp hinv.memory
  omega

include hinv h in
theorem packOp_sameResult (n : BitVec 4) (bits : Byte) :
    SameResult (packOp n bits s) (packOp n bits (s.withBuffers dig kbuf scr)) := by
  rw [packOp, packOp]
  refine .ite (fun _ => .error _) fun _ => .ite (fun _ => .error _) fun _ => .ite (fun _ => .error _) fun hfit => ?_
  exact .ok (h.packBits (by simpa using hinv.bits_fit hfit))

include h in
theorem unpackOp_sameResult (n : BitVec 4) :
    SameResult (unpackOp n s) (unpackOp n (s.withBuffers dig kbuf scr)) := by
  rw [unpackOp, unpackOp]
  refine .ite (fun _ => .error _) fun _ => .ite (fun _ => .error _) fun _ => .ite (fun _ => .error _) fun hn => ?_
  rw [withBuffers_cur, h.unpack_eq (Nat.not_lt.mp hn)]
  exact .ok { h with registers := congrArg (fun u : State => { u with
    val := BitVec.ofNat 8 (unpack s.kbuf s.cur.toNat n.toNat)
    cur := BitVec.ofNat 32 (s.cur.toNat + n.toNat) }) h.registers }

include hinv h in
theorem expencOp_sameResult : SameResult (expencOp s) (expencOp (s.withBuffers dig kbuf scr)) := by
  rw [expencOp, expencOp]
  refine .ite (fun _ => .error _) fun _ => .ite (fun _ => .error _) fun _ => .ite (fun _ => .error _) fun hfit => ?_
  have hpack := h.packBits (bs := (expfield s.emag.toNat s.tIndicator).tail)
    (by rw [expfield_tail_length]; exact hinv.bits_fit hfit)
  exact .ok { hpack with registers := congrArg (fun u : State => { u with
    nbits := BitVec.ofNat 6 (expN s.emag.toNat) }) hpack.registers }

include h in
theorem expdecOp_sameResult : SameResult (expdecOp s) (expdecOp (s.withBuffers dig kbuf scr)) := by
  rw [expdecOp, expdecOp, h.expdec_eq, withBuffers_cur, withBuffers_tIndicator]
  refine .ite (fun _ => .error _) fun _ => ?_
  cases expdec s.params s.kbuf s.klen.toNat s.cur.toNat s.tIndicator with
  | error d => exact .error d
  | ok f =>
    exact .ok { h with registers := congrArg (fun u : State => { u with
      emag := BitVec.ofNat 32 f.e, nbits := BitVec.ofNat 6 f.n, cur := BitVec.ofNat 32 f.off }) h.registers }

include hinv h in
theorem sigencOp_sameResult : SameResult (sigencOp s) (sigencOp (s.withBuffers dig kbuf scr)) := by
  simp only [sigencOp, h.coefficient_eq]
  refine .ite (fun _ => .error _) fun hn => .ite (fun _ => .error _) fun _ => .ite (fun _ => .error _) fun _ =>
    .ite (fun _ => .error _) fun _ => .ite (fun _ => .error _) fun hfit => ?_
  have hbits : (sigbits s.coefficient s.negative).length = 10 * (s.dcnt.toNat / 3) := by
    rw [sigbits_length, coefficient_length hinv (by omega)]
  exact .ok ((h.packBits (by rw [hbits]; exact hinv.bits_fit hfit)).withScr _ _)

include h in
theorem sigdecOp_sameResult : SameResult (sigdecOp s) (sigdecOp (s.withBuffers dig kbuf scr)) := by
  rw [sigdecOp, sigdecOp, h.sigdec_eq, withBuffers_cur, withBuffers_negative]
  refine .ite (fun _ => .error _) fun _ => ?_
  cases sigdec s.params s.kbuf s.klen.toNat s.cur.toNat s.negative with
  | error d => exact .error d
  | ok c =>
    have hcoef := h.setCoefficient c.digits
    exact .ok { hcoef with registers := congrArg (fun u : State => { u with
      cur := BitVec.ofNat 32 c.off }) hcoef.registers }

include h

theorem classvOp_sameResult : SameResult (classvOp s) (classvOp (s.withBuffers dig kbuf scr)) := by
  rw [classvOp, classvOp, h.kindv_eq]
  cases kindv s with
  | error d => exact .error d
  | ok k =>
    exact .ok { h with registers := congrArg (fun u : State => { u with kind := k.code }) h.registers }

theorem classkOp_sameResult : SameResult (classkOp s) (classkOp (s.withBuffers dig kbuf scr)) := by
  rw [classkOp, classkOp, h.kindk_eq]
  cases kindk s with
  | error d => exact .error d
  | ok k =>
    exact .ok { h with registers := congrArg (fun u : State => { u with kind := k.code }) h.registers }

theorem spencOp_sameResult : SameResult (spencOp s) (spencOp (s.withBuffers dig kbuf scr)) := by
  rw [spencOp, spencOp, h.kindv_eq]
  cases kindv s with
  | error d => exact .error d
  | ok k =>
    dsimp only
    cases k.keyByte with
    | none => exact .error _
    | some b => exact .ok (h.encodeSpecial b)

theorem spdecOp_sameResult : SameResult (spdecOp s) (spdecOp (s.withBuffers dig kbuf scr)) := by
  rw [spdecOp, spdecOp, h.kindk_eq]
  refine .ite (fun _ => .error _) fun _ => .ite (fun _ => .error _) fun _ => .ite (fun _ => .error _) fun _ => ?_
  cases kindk s with
  | error d => exact .error d
  | ok k => exact .ok (h.decodeSpecial k)

include hinv in
theorem encodeFinite_sameResult :
    SameResult (encodeFinite s) (encodeFinite (s.withBuffers dig kbuf scr)) := by
  simp only [encodeFinite, h.coefficient_eq]
  refine .ite (fun _ => .error _) fun _ => .ite (fun _ => .error _) fun hr => .ite (fun _ => .error _) fun _ => .ok ?_
  obtain ⟨hk, -, -, hle, -⟩ := keyfinite_spec
    (keyBits_le_kmax hinv.params (neg := s.negative) (pad_coefficient_length_le hinv) (Nat.not_lt.mp hr))
  exact (h.encodedFinite (hle.trans_eq hk.symm)).withScr _ _

theorem decodeFinite_sameResult (hk : s.klen.toNat ≠ 0) (neg : Bool) :
    SameResult (decodeFinite neg s.kbuf s)
      (decodeFinite neg (s.withBuffers dig kbuf scr).kbuf (s.withBuffers dig kbuf scr)) := by
  have ht : getbit (s.withBuffers dig kbuf scr).kbuf 3 = getbit s.kbuf 3 := (h.getbit_eq (by omega)).symm
  simp only [decodeFinite, ht, h.expdec_eq, h.sigdec_eq]
  cases expdec s.params s.kbuf s.klen.toNat 4 (getbit s.kbuf 3) with
  | error d => exact .error d
  | ok f =>
    dsimp only
    cases sigdec s.params s.kbuf s.klen.toNat f.off neg with
    | error d => exact .error d
    | ok c =>
      exact .ok (h.decodedFinite neg (getbit s.kbuf 3) f c)

include hinv in
theorem encodeOp_sameResult : SameResult (encodeOp s) (encodeOp (s.withBuffers dig kbuf scr)) := by
  rw [encodeOp, encodeOp, h.kindv_eq]
  cases kindv s with
  | error d => exact .error d
  | ok k =>
    dsimp only
    cases k.keyByte with
    | none => exact encodeFinite_sameResult hinv h
    | some b => exact .ok (h.encodeSpecial b)

theorem decodeOp_sameResult : SameResult (decodeOp s) (decodeOp (s.withBuffers dig kbuf scr)) := by
  rw [decodeOp, decodeOp, h.kindk_eq]
  cases hk : kindk s with
  | error d => exact .error d
  | ok k =>
    have hlen : s.klen.toNat ≠ 0 := by
      intro h0
      rw [kindk, if_pos h0] at hk
      cases hk
    cases k with
    | negFinite => exact decodeFinite_sameResult h hlen true
    | posFinite => exact decodeFinite_sameResult h hlen false
    | _ => exact .ok (h.decodeSpecial _)

include hinv in
/-- No operation reads a stale cell (R246). -/
theorem commandResult_sameResult (i : Instr) :
    SameResult (commandResult i s) (commandResult i (s.withBuffers dig kbuf scr)) := by
  cases i with
  | encode => exact encodeOp_sameResult hinv h
  | decode => exact decodeOp_sameResult h
  | pack n bits => exact packOp_sameResult hinv h n bits
  | unpack n => exact unpackOp_sameResult h n
  | expenc => exact expencOp_sameResult hinv h
  | expdec => exact expdecOp_sameResult h
  | sigenc => exact sigencOp_sameResult hinv h
  | sigdec => exact sigdecOp_sameResult h
  | classv => exact classvOp_sameResult h
  | classk => exact classkOp_sameResult h
  | spenc => exact spencOp_sameResult h
  | spdec => exact spdecOp_sameResult h
  | _ => exact .error _

end Operations

/-! ## The parameters in a key (R249) -/

section Value

variable {a b : State} (hsign : a.sign = b.sign) (hcoef : a.coefficient = b.coefficient)

include hsign

theorem negative_eq_of_sign_eq : a.negative = b.negative := by
  rw [State.negative, State.negative, hsign]

include hcoef

theorem rank_eq_of_value_eq (hcls : a.cls = b.cls) : a.rank = b.rank := by
  rw [State.rank, State.rank, hcls, hcoef, negative_eq_of_sign_eq hsign]

theorem numeric_eq_of_value_eq (hexp : a.exp = b.exp) : a.numeric = b.numeric := by
  rw [State.numeric, State.numeric, hexp, hcoef, negative_eq_of_sign_eq hsign]

end Value

/-- ENCODE ends with OK on encodable values only. -/
theorem encodable_of_exec_encode {s t : State} (ht : exec .encode s = .next t) (hok : t.status = 0#3) :
    Encodable s := by
  rw [exec_encode] at ht
  cases ht
  obtain ⟨u, hu, -⟩ := finish_ok_of_status hok
  exact encodable_of_encodeOp hu

/-! ## The obligations of 70_reset_and_hazards.md -/

/-- Settles O41: the two states differ in their buffers only, each check sends both into one branch, and what the
branch writes differs in stale cells only. -/
theorem staleCellsNeverReachAResult : Obligations.StaleCellsNeverReachAResult := by
  intro i s s' t t' hi hinv _ h ht ht'
  obtain ⟨dig, kbuf, scr, rfl⟩ := h.exists_withBuffers
  rw [exec_command hi] at ht ht'
  cases ht
  cases ht'
  exact (commandResult_sameResult hinv h i).finish h

/-- Settles O52: equal registers hold equal values, and equal values have one key, whatever the parameters. -/
theorem keysDoNotDependOnParameters : Obligations.KeysDoNotDependOnParameters := by
  intro a b ta tb hia hib hsign hcls hexp _ hcoef hta htb hoka hokb
  have heq : ValueEq a b :=
    ⟨rank_eq_of_value_eq hsign hcoef hcls, fun _ => numeric_eq_of_value_eq hsign hcoef hexp⟩
  exact (keysOrderAsValues a b ta tb hia hib (encodable_of_exec_encode hta hoka)
    (encodable_of_exec_encode htb hokb) hta htb).2.mpr heq

/-- Settles O5: the contents of the buffers are the free values of this reset event. -/
theorem resetEventGivesResetState : Obligations.ResetEventGivesResetState := by
  intro s rest hp hs
  refine ⟨(List.range s.params.dmax).map (Config.resetDigit s.resets),
    (List.range s.params.dmax).map (Config.resetScratch s.resets),
    (List.range s.params.kmax).map (Config.resetByte s.resets), by simp, by simp, by simp, step_reset hp hs⟩

end Sys2Proof.Machine
end
